-- ==== Sys2Proof/Word.lean ====
section
/-! DEFINITION. The word types of the dsp-utils CORE: the 64-bit bus word, the byte, the bus address and the complex pair. -/

namespace Sys2Proof

/-- A 64-bit word: a register, a command word, or the bits of a binary64 value (20_memory.md R42, R44). -/
abbrev Word := BitVec 64

/-- One byte lane of a word (20_memory.md R41). -/
abbrev Byte := BitVec 8

/-- A byte address on the bus (00_scope.md R7: 21 bits). -/
abbrev Addr := BitVec 21

/-- A complex value: the pair (re, im) of binary64 words (00_scope.md R3, 20_memory.md R43). -/
structure Cplx where
  re : Word
  im : Word
deriving DecidableEq, Repr

end Sys2Proof
end

