-- ==== Sys2Proof/Syntax.lean ====
section
/-! DEFINITION. The 13 commands of 30_encoding.md R57, one constructor per row of the opcode table. -/

namespace Sys2Proof

/-- A command. The operand fields FA, FB, FC are unsigned integers (R56), named as each command's rule names them; `inv` is
the bit INV (suffix .I), `clr` the bit CLR (suffix .C) (R55, R62). -/
inductive Instr where
  /-- NOP (47_control.md R126) -/
  | nop
  /-- FFT base, n / FFT.I base, n (41_fft.md R93) -/
  | fft (inv : Bool) (base n : Nat)
  /-- BITREV base, n (41_fft.md R94) -/
  | bitrev (base n : Nat)
  /-- STAGE base, n, s / STAGE.I base, n, s (41_fft.md R95) -/
  | stage (inv : Bool) (base n s : Nat)
  /-- SCALE base, n (41_fft.md R96) -/
  | scale (base n : Nat)
  /-- BFLY p, q, t / BFLY.I p, q, t (41_fft.md R97) -/
  | bfly (inv : Bool) (p q t : Nat)
  /-- VCMUL dst, src, count (42_vector.md R99) -/
  | vcmul (dst src count : Nat)
  /-- FIR / FIR.C (44_fir.md R112) -/
  | fir (clr : Bool)
  /-- IIR sec / IIR.C sec (45_iir.md R117) -/
  | iir (clr : Bool) (sec : Nat)
  /-- SOS first, count (46_sos.md R119) -/
  | sos (first count : Nat)
  /-- RBWR id (43_ring_buffer.md R109) -/
  | rbwr (id : Nat)
  /-- RBRD id (43_ring_buffer.md R110) -/
  | rbrd (id : Nat)
  /-- RBCLR id (43_ring_buffer.md R111) -/
  | rbclr (id : Nat)
deriving DecidableEq, Repr

end Sys2Proof
end

