-- ==== Sys2Proof/WellFormed.lean ====
section
/-! DEFINITION. When a command has an encoding: every operand fits its 16-bit field (30_encoding.md R55, R56). -/

namespace Sys2Proof

/-- The numeric operands of a command, in the order written (30_encoding.md R62). -/
def Instr.operands : Instr → List Nat
  | .nop => []
  | .fft _ base n => [base, n]
  | .bitrev base n => [base, n]
  | .stage _ base n s => [base, n, s]
  | .scale base n => [base, n]
  | .bfly _ p q t => [p, q, t]
  | .vcmul dst src count => [dst, src, count]
  | .fir _ => []
  | .iir _ sec => [sec]
  | .sos first count => [first, count]
  | .rbwr id => [id]
  | .rbrd id => [id]
  | .rbclr id => [id]

/-- Every operand of the command fits its 16-bit field: an integer in [0, 65535] (R56, R62). Ranges a command checks when
it executes (lengths, section and ring numbers, DMEM bounds) are no matter of well-formedness: such a command is
issued, and raises its error. -/
abbrev Instr.WellFormed (i : Instr) : Prop := ∀ x ∈ i.operands, x < 65536

end Sys2Proof
end

