-- ==== Sys2Proof/Decode.lean ====
section
/-! DEFINITION. Decoding a command word (30_encoding.md R58, R61), total on every 64-bit word and rejecting by name; and the encoder (R55, R57). -/

namespace Sys2Proof

/-- Why a word is no command (R59, R60). The block raises ILLEGAL_CMD for each (60_exceptions.md R134). -/
inductive Illegal where
  /-- OPC is 0x07, 0x0B, 0x0F or 0x10-0xFF (R60) -/
  | reservedOpcode
  /-- a bit of [15:10] is 1 (R59) -/
  | reservedBits
  /-- a field the opcode's row of R57 marks 0 is not 0 (R59) -/
  | unusedField
deriving DecidableEq, Repr

/-- What a word decodes to (R61): a command, or ILLEGAL with the reason. -/
inductive Decoded where
  | command (i : Instr)
  | illegal (why : Illegal)
deriving DecidableEq, Repr

/-- The command of a decoded word, none if it is illegal. -/
def Decoded.instr? : Decoded → Option Instr
  | .command i => some i
  | .illegal _ => none

/-- OPC = bits [7:0] (R55). -/
def opcOf (w : Word) : BitVec 8 := w.extractLsb' 0 8

/-- INV = bit 8 (R55). -/
def invOf (w : Word) : Bool := w.getLsbD 8

/-- CLR = bit 9 (R55). -/
def clrOf (w : Word) : Bool := w.getLsbD 9

/-- The reserved bits [15:10] (R55). -/
def reservedOf (w : Word) : BitVec 6 := w.extractLsb' 10 6

/-- FA = zext(bits [31:16]) (R55, R56). -/
def faOf (w : Word) : Nat := (w.extractLsb' 16 16).toNat

/-- FB = zext(bits [47:32]) (R55, R56). -/
def fbOf (w : Word) : Nat := (w.extractLsb' 32 16).toNat

/-- FC = zext(bits [63:48]) (R55, R56). -/
def fcOf (w : Word) : Nat := (w.extractLsb' 48 16).toNat

/-- A row of the table of R58: a word w is the row's command when (w AND mask) = pat; `make` reads the operands the row
of R57 names from the fields of the word. -/
structure OpRow where
  pat : Word
  mask : Word
  make : Word → Instr

/-- Whether a word matches a row (R58). -/
def OpRow.hits (r : OpRow) (w : Word) : Bool := w &&& r.mask == r.pat

/-- The rows of R58, with the operand columns of R57. -/
def opRows : List OpRow := [
  ⟨0x0000000000000000, 0xFFFFFFFFFFFFFFFF, fun _ => .nop⟩,
  ⟨0x0000000000000001, 0xFFFF00000000FEFF, fun w => .fft (invOf w) (faOf w) (fbOf w)⟩,
  ⟨0x0000000000000002, 0xFFFF00000000FFFF, fun w => .bitrev (faOf w) (fbOf w)⟩,
  ⟨0x0000000000000003, 0x000000000000FEFF, fun w => .stage (invOf w) (faOf w) (fbOf w) (fcOf w)⟩,
  ⟨0x0000000000000004, 0xFFFF00000000FFFF, fun w => .scale (faOf w) (fbOf w)⟩,
  ⟨0x0000000000000005, 0x000000000000FEFF, fun w => .bfly (invOf w) (faOf w) (fbOf w) (fcOf w)⟩,
  ⟨0x0000000000000006, 0x000000000000FFFF, fun w => .vcmul (faOf w) (fbOf w) (fcOf w)⟩,
  ⟨0x0000000000000008, 0xFFFFFFFFFFFFFDFF, fun w => .fir (clrOf w)⟩,
  ⟨0x0000000000000009, 0xFFFFFFFF0000FDFF, fun w => .iir (clrOf w) (faOf w)⟩,
  ⟨0x000000000000000A, 0xFFFF00000000FFFF, fun w => .sos (faOf w) (fbOf w)⟩,
  ⟨0x000000000000000C, 0xFFFFFFFF0000FFFF, fun w => .rbwr (faOf w)⟩,
  ⟨0x000000000000000D, 0xFFFFFFFF0000FFFF, fun w => .rbrd (faOf w)⟩,
  ⟨0x000000000000000E, 0xFFFFFFFF0000FFFF, fun w => .rbclr (faOf w)⟩]

/-- Why a word that matches no row is illegal: the first reason that applies, in the order of R134's cause. -/
def whyIllegal (w : Word) : Illegal :=
  if opRows.all (fun r => opcOf r.pat != opcOf w) then .reservedOpcode
  else if reservedOf w != 0 then .reservedBits
  else .unusedField

/-- Decoding (R61): the first row of R58 the word matches, or the reason it is illegal. -/
def decode (w : Word) : Decoded :=
  match opRows.find? (fun r => r.hits w) with
  | some r => .command (r.make w)
  | none => .illegal (whyIllegal w)

/-- A word from its fields (R55): word = OPC + 2^8·INV + 2^9·CLR + 2^16·FA + 2^32·FB + 2^48·FC, the bits [15:10] given too. -/
def packWord (opc : BitVec 8) (inv clr : Bool) (rsv : BitVec 6) (fa fb fc : BitVec 16) : Word :=
  fc ++ fb ++ fa ++ rsv ++ BitVec.ofBool clr ++ BitVec.ofBool inv ++ opc

/-- The word of a command given its opcode, flags and operand fields, reserved bits 0. -/
def commandWord (opc : BitVec 8) (inv clr : Bool) (fa fb fc : Nat) : Word :=
  packWord opc inv clr 0 (BitVec.ofNat 16 fa) (BitVec.ofNat 16 fb) (BitVec.ofNat 16 fc)

/-- The word of a well-formed command (R55, R57): unused fields are 0. -/
def encode (i : Instr) : Word :=
  match i with
  | .nop => commandWord 0x00 false false 0 0 0
  | .fft inv base n => commandWord 0x01 inv false base n 0
  | .bitrev base n => commandWord 0x02 false false base n 0
  | .stage inv base n s => commandWord 0x03 inv false base n s
  | .scale base n => commandWord 0x04 false false base n 0
  | .bfly inv p q t => commandWord 0x05 inv false p q t
  | .vcmul dst src count => commandWord 0x06 false false dst src count
  | .fir clr => commandWord 0x08 false clr 0 0 0
  | .iir clr sec => commandWord 0x09 false clr sec 0 0
  | .sos first count => commandWord 0x0A false false first count 0
  | .rbwr id => commandWord 0x0C false false id 0 0
  | .rbrd id => commandWord 0x0D false false id 0 0
  | .rbclr id => commandWord 0x0E false false id 0 0

/-- The instruction the decoder reads from an instruction whose low nbits bits are w's and whose other bits are 0, numbered
as spec/opcode_table.json numbers them. A command is one 64-bit word (R55), so no bytes need ordering. -/
def decodeTableWord (nbits w : Nat) : Option Instr :=
  (decode (BitVec.ofNat 64 (w % 2 ^ nbits))).instr?

end Sys2Proof
end

