-- ==== Sys2Proof/Config.lean ====
section
/-! DEFINITION. What an implementation fixes: the parameters of 00_scope.md R6, their legal ranges and defaults; and the model's one free value. -/

namespace Sys2Proof

/-- The parameters of one instance of the block (00_scope.md R6). They are fixed for the instance and are no state of
the block (10_state.md R11); `State` carries them so that one step function serves every legal instance (log entry 1). -/
structure Params where
  /-- log2 of the largest transform length -/
  log2Nmax : Nat
  /-- log2 of the number of DMEM entries -/
  log2Dmem : Nat
  /-- FIR coefficient-memory depth and FIR ring capacity -/
  firCap : Nat
  /-- number of biquad sections -/
  nsec : Nat
  /-- TW_ROM: the optional replacement of the twiddle ROM, NMAX/2 pairs (cos, sin) -/
  twRom : Option (List Cplx)
deriving DecidableEq, Repr

/-- NMAX = 2^LOG2_NMAX (R6). -/
def Params.nmax (p : Params) : Nat := 2 ^ p.log2Nmax

/-- DMEM_ENTRIES = 2^LOG2_DMEM (R6). -/
def Params.dmemEntries (p : Params) : Nat := 2 ^ p.log2Dmem

/-- The default column of R6. -/
def Params.default : Params :=
  { log2Nmax := 10, log2Dmem := 12, firCap := 64, nsec := 8, twRom := none }

/-- The legal-values column of R6. -/
abbrev Params.Legal (p : Params) : Prop :=
  (1 ≤ p.log2Nmax ∧ p.log2Nmax ≤ 11) ∧ (p.log2Nmax ≤ p.log2Dmem ∧ p.log2Dmem ≤ 16) ∧
  (1 ≤ p.firCap ∧ p.firCap ≤ 512) ∧ (1 ≤ p.nsec ∧ p.nsec ≤ 32) ∧
  p.twRom.all (fun t => t.length == p.nmax / 2)

/-- The free value: what the n-th draw gives. A draw is a read of an unspecified DMEM word
(93_implementation_defined.md U4, U6) or of a VOLATILE location while BUSY = 1 (U5). It has no body: nothing can be
proved about the value, so a statement holds whatever the hardware returns (log entries 4, 6). -/
opaque Config.freeWord : Nat → Word

end Sys2Proof
end

