-- ==== Sys2Proof/Machine/State.lean ====
section
/-! DEFINITION. The state of the dsp-utils CORE as plain data (10_state.md R11), the environment's turns, and the state after reset (70_reset_and_hazards.md R151). -/

namespace Sys2Proof.Machine

open Sys2Proof

/-- A ring buffer (43_ring_buffer.md R101): storage of `slots.length` slots, a write cursor and a read cursor. -/
structure RingBuf where
  slots : List Word
  wc : Nat
  rc : Nat
deriving DecidableEq, Repr

/-- The capacity of a ring, fixed when it is made (R101). -/
def RingBuf.cap (r : RingBuf) : Nat := r.slots.length

/-- The ring of capacity `cap` that `create(cap)` produces and reset leaves: every slot +0.0, both cursors 0 (R105). -/
def RingBuf.cleared (cap : Nat) : RingBuf :=
  { slots := List.replicate cap 0, wc := 0, rc := 0 }

/-- A biquad section: six coefficient registers (10_state.md R30) and its own two rings (R31). -/
structure Section where
  b0 : Word
  b1 : Word
  b2 : Word
  a0 : Word
  a1 : Word
  g : Word
  /-- input history XH(s), capacity 3 -/
  xh : RingBuf
  /-- output history YH(s), capacity 2 -/
  yh : RingBuf
deriving DecidableEq, Repr

/-- A section after reset: coefficients +0.0, rings cleared (R30, R31). -/
def Section.cleared : Section :=
  { b0 := 0, b1 := 0, b2 := 0, a0 := 0, a1 := 0, g := 0, xh := RingBuf.cleared 3, yh := RingBuf.cleared 2 }

/-- One host bus request (20_memory.md R38): the read or the write of one 64-bit word at a byte address. -/
inductive Request where
  /-- bus_we = 0 -/
  | read (addr : Addr)
  /-- bus_we = 1 -/
  | write (addr : Addr) (data : Word)
deriving DecidableEq, Repr

/-- The response to a request (R38, R46): bus_err, and on a read bus_rdata. -/
structure Response where
  err : Bool
  /-- bus_rdata of a read; a write carries none -/
  rdata : Option Word
deriving DecidableEq, Repr

/-- One turn of an agent (47_control.md R122): a host access, the engine's step, or reset's: a clock edge at which the pin
rst_n has the given level (70_reset_and_hazards.md R150). -/
inductive Turn where
  | host (r : Request)
  | engine
  | rstEdge (level : Bool)
deriving DecidableEq, Repr

/-- The state: everything 10_state.md R11 lists, and the model's own fields at the end. -/
structure State where
  /-- the instance's fixed parameters (00_scope.md R6); no step writes them (log entry 1) -/
  params : Params
  /-- CTRL.DONE_IE (10_state.md R18) -/
  doneIe : Bool
  /-- CTRL.ERR_IE (R18) -/
  errIe : Bool
  /-- STATUS.BUSY (R19); with `cmd` the pending-command latch (R35) -/
  busy : Bool
  /-- STATUS.DONE (R19) -/
  done : Bool
  /-- STATUS.ERR (R19) -/
  err : Bool
  /-- STATUS.EOVF (R19) -/
  eovf : Bool
  /-- CMD: the last accepted command word (R20) -/
  cmd : Word
  /-- ERR_CODE bits [7:0] (R21) -/
  errCode : BitVec 8
  /-- ERR_INFO (R22) -/
  errInfo : Word
  /-- XIN (R23) -/
  xin : Word
  /-- ACC (R24) -/
  acc : Word
  /-- RBDATA (R25) -/
  rbdata : Word
  /-- FIR_CFG.NTAPS (R26) -/
  ntaps : BitVec 16
  /-- the FIR coefficient memory H[0..FIR_CAP) (R28) -/
  h : List Word
  /-- the FIR ring, ring id 0 (R29) -/
  fir : RingBuf
  /-- the sections 0..NSEC-1 (R30, R31) -/
  secs : List Section
  /-- DMEM (R33) as bytes at bus byte addresses, addresses strictly rising; a byte that is not listed is unspecified -/
  dmem : List Host.Cell
  /-- the byte addresses, strictly rising, of the DMEM words that an abandoned command could write and the host has not
  written since (70_reset_and_hazards.md R153, 93_implementation_defined.md U6); such a word stays unspecified whatever a
  command stores there (log entry 5) -/
  lost : List Nat
  /-- MODEL: the level of the pin rst_n at the last clock edge (log entry 8) -/
  rstN : Bool
  /-- MODEL: the coming turns of the agents, the first one next (log entry 2) -/
  agenda : List Turn
  /-- MODEL: the port outputs bus_ack, bus_err, bus_rdata after the step just taken (log entry 14) -/
  resp : Option Response
  /-- MODEL: how many free values have been drawn (log entry 4) -/
  draws : Nat
deriving DecidableEq, Repr

/-- No step of this machine ends in a fault: every error of 60_exceptions.md R134 is recorded in STATUS, ERR_CODE and
ERR_INFO and the block goes on (R141), and a bad bus access gets an error response (20_memory.md R46). So the type
has no constructor (log entry 21). -/
inductive Fault where
deriving DecidableEq, Repr

/-- Why a step gives no meaning. -/
inductive Refusal where
  /-- an instruction whose arm of `exec` has no meaning yet; raised by no arm of this model (safe: the step stops) -/
  | notModelled (mnemonic : String)
deriving DecidableEq, Repr

/-- An instance with parameters `p` right after power-on and reset (R151): every register 0, every ring and coefficient +0.0,
no DMEM word specified (R33), nothing pending; the environment has nothing lined up. -/
def State.resetFor (p : Params) : State :=
  { params := p
    doneIe := false, errIe := false
    busy := false, done := false, err := false, eovf := false
    cmd := 0, errCode := 0, errInfo := 0
    xin := 0, acc := 0, rbdata := 0
    ntaps := 0
    h := List.replicate p.firCap 0
    fir := RingBuf.cleared p.firCap
    secs := List.replicate p.nsec Section.cleared
    dmem := [], lost := []
    rstN := true, agenda := [], resp := none, draws := 0 }

/-- The machine right after reset, with the default parameters of 00_scope.md R6. -/
def State.reset : State := State.resetFor Params.default

/-- The answer of a step. -/
abbrev Outcome := Host.Outcome State Fault Refusal

end Sys2Proof.Machine
end

