-- ==== Sys2Proof/Machine/Flags.lean ====
section
/-! DEFINITION. STATUS, CTRL and the interrupt line: the flag words, write-1-to-clear, the error codes, irq (10_state.md R18, R19; 60_exceptions.md R134, R140). -/

namespace Sys2Proof.Machine

open Sys2Proof

/-- The error codes of 60_exceptions.md R134. -/
inductive ErrCode where
  | illegalCmd
  | invalidLength
  | lengthRange
  | dimMismatch
  | fieldRange
  | addrRange
  | cmdOverrun
  | busyWrite
deriving DecidableEq, Repr

/-- The number of an error code (R134). -/
def ErrCode.code (c : ErrCode) : BitVec 8 :=
  match c with
  | .illegalCmd => 1
  | .invalidLength => 2
  | .lengthRange => 3
  | .dimMismatch => 4
  | .fieldRange => 5
  | .addrRange => 6
  | .cmdOverrun => 7
  | .busyWrite => 8

/-- The word STATUS reads (10_state.md R19): BUSY bit 0, DONE bit 1, ERR bit 2, EOVF bit 3, the rest 0. -/
def State.statusWord (s : State) : Word :=
  (0 : BitVec 60) ++ BitVec.ofBool s.eovf ++ BitVec.ofBool s.err ++ BitVec.ofBool s.done ++ BitVec.ofBool s.busy

/-- The word CTRL reads (R18): DONE_IE bit 0, ERR_IE bit 1, SRST and the rest 0. -/
def State.ctrlWord (s : State) : Word :=
  (0 : BitVec 62) ++ BitVec.ofBool s.errIe ++ BitVec.ofBool s.doneIe

/-- A write of v to STATUS (R19): each of DONE, ERR, EOVF whose written bit is 1 is cleared; clearing ERR also sets ERR_CODE
and ERR_INFO to 0. -/
def State.clearFlags (s : State) (v : Word) : State :=
  { s with
    done := s.done && !v.getLsbD 1
    err := s.err && !v.getLsbD 2
    eovf := s.eovf && !v.getLsbD 3
    errCode := if v.getLsbD 2 then 0 else s.errCode
    errInfo := if v.getLsbD 2 then 0 else s.errInfo }

/-- The port irq (60_exceptions.md R140), a function of the state at every moment. -/
def State.irq (s : State) : Bool := (s.done && s.doneIe) || (s.err && s.errIe)

end Sys2Proof.Machine
end

