-- ==== Sys2Proof/Machine/Operands.lean ====
section
/-! DEFINITION. The checks a command makes on its operands before any effect, each with the error it raises, in the order of 60_exceptions.md R138. -/

namespace Sys2Proof.Machine

open Sys2Proof

/-- The first error of a list of checks (60_exceptions.md R138). -/
def firstErr (checks : List (Option ErrCode)) : Option ErrCode := checks.findSome? id

/-- Raise `c` if `bad` holds. -/
def errIf (bad : Bool) (c : ErrCode) : Option ErrCode := if bad then some c else none

/-- N is a power of two (N = 0 is not). -/
def isPow2 (n : Nat) : Bool := 2 ^ n.log2 == n

/-- LENCHECK (41_fft.md R92). -/
def lenCheck (p : Params) (n : Nat) : Option ErrCode :=
  if !isPow2 n then some .invalidLength
  else if p.nmax < n then some .lengthRange
  else none

/-- base + N > DMEM_ENTRIES raises ADDR_RANGE (R93); the sum is unbounded (30_encoding.md R56). -/
def addrCheck (p : Params) (base n : Nat) : Option ErrCode := errIf (decide (p.dmemEntries < base + n)) .addrRange

/-- The checks of FFT, BITREV and SCALE (41_fft.md R93, R94, R96). -/
def regionCheck (p : Params) (base n : Nat) : Option ErrCode := firstErr [lenCheck p n, addrCheck p base n]

/-- The checks of STAGE (41_fft.md R95). -/
def stageCheck (p : Params) (base n s : Nat) : Option ErrCode :=
  firstErr [lenCheck p n, errIf (decide (s < 1) || decide (n.log2 < s)) .fieldRange, addrCheck p base n]

/-- The checks of BFLY (41_fft.md R97). -/
def bflyCheck (p : Params) (e o t : Nat) : Option ErrCode :=
  firstErr [errIf (decide (p.nmax / 2 ≤ t) || decide (e = o)) .fieldRange,
    errIf (decide (p.dmemEntries ≤ e) || decide (p.dmemEntries ≤ o)) .addrRange]

/-- The checks of VCMUL (42_vector.md R99); both apply also when count = 0. -/
def vcmulCheck (p : Params) (dst src count : Nat) : Option ErrCode :=
  firstErr [addrCheck p dst count, addrCheck p src count]

/-- The check of FIR (44_fir.md R112). -/
def firCheck (p : Params) (taps : Nat) : Option ErrCode :=
  errIf (decide (taps = 0) || decide (p.firCap < taps)) .dimMismatch

/-- The check of IIR (45_iir.md R117). -/
def iirCheck (p : Params) (sec : Nat) : Option ErrCode := errIf (decide (p.nsec ≤ sec)) .fieldRange

/-- The checks of SOS (46_sos.md R119). -/
def sosCheck (p : Params) (first count : Nat) : Option ErrCode :=
  firstErr [errIf (decide (count = 0)) .dimMismatch, errIf (decide (p.nsec < first + count)) .fieldRange]

/-- RINGCHECK (43_ring_buffer.md R108). -/
def ringCheck (p : Params) (id : Nat) : Option ErrCode := errIf (decide (2 * p.nsec < id)) .fieldRange

end Sys2Proof.Machine
end

