-- ==== Sys2Proof/Machine/Memory.lean ====
section
/-! DEFINITION. The byte memory under DMEM: a list of (address, byte) in canonical form, and the little-endian words over it (20_memory.md R41, R43, R48). -/

namespace Sys2Proof.Machine

open Sys2Proof

/-- The canonical form: addresses strictly rising. A byte that is not listed has no value (it is unspecified), so no listed
byte can equal what an unlisted one reads as. -/
def Memory.wf : List Host.Cell → Bool
  | [] => true
  | [_] => true
  | c :: d :: m => decide (c.1 < d.1) && Memory.wf (d :: m)

/-- The byte at an address, none where nothing is listed. -/
def Memory.read : List Host.Cell → Nat → Option Byte
  | [], _ => none
  | c :: m, a => if c.1 = a then some c.2 else Memory.read m a

/-- Store a byte, keeping the addresses rising. -/
def Memory.write : List Host.Cell → Nat → Byte → List Host.Cell
  | [], a, b => [(a, b)]
  | c :: m, a, b =>
    if a < c.1 then (a, b) :: c :: m
    else if a = c.1 then (a, b) :: m
    else c :: Memory.write m a b

/-- Make a byte unspecified. -/
def Memory.erase (m : List Host.Cell) (a : Nat) : List Host.Cell := m.filter (fun c => c.1 != a)

/-- The eight bytes of a word, least significant first: the byte at address a + i is bits [8i+7:8i] (R41). -/
def bytesOfWord (v : Word) : List Byte := (List.range 8).map (fun i => v.extractLsb' (8 * i) 8)

/-- The word of a list of bytes, least significant first (R41). -/
def wordOfBytes (bs : List Byte) : Word := BitVec.ofNat 64 (bs.foldr (fun b v => b.toNat + 256 * v) 0)

/-- `n` bytes from an address on, none if one of them is unspecified. -/
def Memory.readBytes (m : List Host.Cell) : Nat → Nat → Option (List Byte)
  | _, 0 => some []
  | a, n + 1 =>
    match Memory.read m a, Memory.readBytes m (a + 1) n with
    | some b, some bs => some (b :: bs)
    | _, _ => none

/-- Store bytes from an address on. -/
def Memory.writeBytes (m : List Host.Cell) : Nat → List Byte → List Host.Cell
  | _, [] => m
  | a, b :: bs => Memory.writeBytes (Memory.write m a b) (a + 1) bs

/-- The 64-bit word at an aligned byte address, none if it is unspecified. -/
def Memory.readWord (m : List Host.Cell) (a : Nat) : Option Word := (Memory.readBytes m a 8).map wordOfBytes

/-- Store a 64-bit word. -/
def Memory.writeWord (m : List Host.Cell) (a : Nat) (v : Word) : List Host.Cell := Memory.writeBytes m a (bytesOfWord v)

/-- Make the 64-bit word at an address unspecified. -/
def Memory.eraseWord (m : List Host.Cell) (a : Nat) : List Host.Cell :=
  m.filter (fun c => !(decide (a ≤ c.1) && decide (c.1 < a + 8)))

/-! A set of addresses: a list, strictly rising. -/

/-- Add an address, keeping the list strictly rising. -/
def Addrs.insert : List Nat → Nat → List Nat
  | [], a => [a]
  | b :: l, a =>
    if a < b then a :: b :: l
    else if a = b then b :: l
    else b :: Addrs.insert l a

/-- Take an address out. -/
def Addrs.remove (l : List Nat) (a : Nat) : List Nat := l.filter (fun b => b != a)

/-- The byte address of a part of DMEM entry e: the real part at 0x10000 + 16·e, the imaginary part 8 above it (10_state.md
R33, 20_memory.md R43). -/
def dmemAddr (e : Nat) (im : Bool) : Nat := 0x10000 + 16 * e + (if im then 8 else 0)

end Sys2Proof.Machine
end

