-- ==== Sys2Proof/Machine/Ops.lean ====
section
/-! DEFINITION. The shared operations: raising and recording an error, completing a command, drawing a free value, and the engine's access to DMEM. -/

namespace Sys2Proof.Machine

open Sys2Proof

/-- record(code, info) (60_exceptions.md R137): the first error sets ERR, ERR_CODE and ERR_INFO; while ERR = 1 a further one sets
EOVF only. For an error of a host access (raise_host, R136) this is all that happens. -/
def State.record (s : State) (c : ErrCode) (info : Word) : State :=
  if s.err then { s with eovf := true }
  else { s with err := true, errCode := c.code, errInfo := info }

/-- Taking a command's error (R136, 47_control.md R125): record it with the command word CMD, and BUSY <- 0. DONE is not set
and nothing else changes (R139). -/
def State.raiseErr (s : State) (c : ErrCode) : State := { s.record c s.cmd with busy := false }

/-- Completion without error (47_control.md R125): DONE <- 1, BUSY <- 0. -/
def State.complete (s : State) : State := { s with done := true, busy := false }

/-- The engine's execution of a decoded command (47_control.md R125, 60_exceptions.md R139): its checks come first; the first
that fails is raised and nothing else happens, otherwise the effect happens and the command completes. -/
def runCommand (check : Option ErrCode) (effect : State → State) (s : State) : Outcome :=
  match check with
  | some c => .next (s.raiseErr c)
  | none => .next (effect s).complete

/-- Draw a free value (93_implementation_defined.md U4, U5, U6; log entry 4). -/
def State.draw (s : State) : Word × State := (Config.freeWord s.draws, { s with draws := s.draws + 1 })

/-- A DMEM word at a byte address: its value, or a draw where it is unspecified (10_state.md R33). -/
def State.readDmem (s : State) (a : Nat) : Word × State :=
  match Memory.readWord s.dmem a with
  | some v => (v, s)
  | none => s.draw

/-- A command's store to a DMEM word. A word lost to an abandoned command stays unspecified until the host writes it
(70_reset_and_hazards.md R153; log entry 5). -/
def State.writeDmem (s : State) (a : Nat) (v : Word) : State :=
  { s with dmem := if a ∈ s.lost then s.dmem else Memory.writeWord s.dmem a v }

/-- The host's store to a DMEM word; it specifies a lost word again (R153). -/
def State.hostDmem (s : State) (a : Nat) (v : Word) : State :=
  { s with dmem := Memory.writeWord s.dmem a v, lost := Addrs.remove s.lost a }

/-- DRead(e) (20_memory.md R48). -/
def State.dread (s : State) (e : Nat) : Cplx × State :=
  let r := s.readDmem (dmemAddr e false)
  let i := r.2.readDmem (dmemAddr e true)
  (⟨r.1, i.1⟩, i.2)

/-- DWrite(e, z) (R48). -/
def State.dwrite (s : State) (e : Nat) (z : Cplx) : State :=
  (s.writeDmem (dmemAddr e false) z.re).writeDmem (dmemAddr e true) z.im

/-- DRead of the n entries from `base` on, in increasing order. -/
def State.readRegion (s : State) (base : Nat) : Nat → List Cplx × State
  | 0 => ([], s)
  | n + 1 =>
    let r := s.dread base
    let rest := r.2.readRegion (base + 1) n
    (r.1 :: rest.1, rest.2)

/-- DWrite of each (entry, value) in the order listed. -/
def State.writeEntries (s : State) (ws : List (Nat × Cplx)) : State := ws.foldl (fun t w => t.dwrite w.1 w.2) s

/-- DWrite of a list of values to the entries from `base` on. -/
def State.writeRegion (s : State) (base : Nat) (zs : List Cplx) : State :=
  s.writeEntries (zs.mapIdx (fun i z => (base + i, z)))

end Sys2Proof.Machine
end

