-- ==== Sys2Proof/Machine/Reset.lean ====
section
/-! DEFINITION. Hard and soft reset, and what an abandoned command leaves in DMEM (70_reset_and_hazards.md R150-R153). -/

namespace Sys2Proof.Machine

open Sys2Proof

/-- `es` if the command's checks pass; a command that fails its checks writes nothing (R153). -/
def ifChecked (check : Option ErrCode) (es : List Nat) : List Nat :=
  match check with
  | none => es
  | some _ => []

/-- The DMEM entries a command could write (R153). -/
def dmemTargets (p : Params) (i : Instr) : List Nat :=
  match i with
  | .nop => []
  | .fft _ base n => ifChecked (regionCheck p base n) (List.range' base n)
  | .bitrev base n => ifChecked (regionCheck p base n) (List.range' base n)
  | .stage _ base n st => ifChecked (stageCheck p base n st) (List.range' base n)
  | .scale base n => ifChecked (regionCheck p base n) (List.range' base n)
  | .bfly _ e o t => ifChecked (bflyCheck p e o t) [e, o]
  | .vcmul dst src count => ifChecked (vcmulCheck p dst src count) (List.range' dst count)
  | .fir _ => []
  | .iir _ _ => []
  | .sos _ _ => []
  | .rbwr _ => []
  | .rbrd _ => []
  | .rbclr _ => []

/-- The DMEM entries that a reset now leaves unspecified: those the pending command could write (R153). -/
def State.abandoned (s : State) : List Nat :=
  if s.busy then
    match decode s.cmd with
    | .command i => dmemTargets s.params i
    | .illegal _ => []
  else []

/-- Make a DMEM entry's two words unspecified. -/
def eraseEntry (m : List Host.Cell) (e : Nat) : List Host.Cell :=
  Memory.eraseWord (Memory.eraseWord m (dmemAddr e false)) (dmemAddr e true)

/-- Both words of a DMEM entry are lost until the host writes them (R153). -/
def loseEntry (e : Nat) (l : List Nat) : List Nat := Addrs.insert (Addrs.insert l (dmemAddr e true)) (dmemAddr e false)

/-- The effect of a reset, hard (R150) or soft (R152): every piece of state takes its reset value (R151) but DMEM, which keeps
its contents except for the words an abandoned command could write (R153); those stay unspecified until the host writes
them, so a reset forgets no word lost before. The pin, the environment and the draws are
the model's own fields and stay. -/
def State.doReset (s : State) : State :=
  { State.resetFor s.params with
    dmem := s.abandoned.foldl eraseEntry s.dmem
    lost := s.abandoned.foldr loseEntry s.lost
    rstN := s.rstN
    agenda := s.agenda
    resp := s.resp
    draws := s.draws }

/-- A clock edge at which rst_n has the given level (R150): low resets, high leaves reset. -/
def State.clockEdge (s : State) (level : Bool) : State :=
  if level then { s with rstN := true } else { s.doReset with rstN := false }

end Sys2Proof.Machine
end

