-- ==== Sys2Proof/Machine/Ring.lean ====
section
/-! DEFINITION. The ring-buffer primitive (43_ring_buffer.md R101-R105) and the block's rings by id (R107). -/

namespace Sys2Proof.Machine

open Sys2Proof

/-- RWrite (R102): the write cursor advances from its own previous value (90_conflicts.md C2). -/
def RingBuf.write (r : RingBuf) (v : Word) : RingBuf :=
  { r with slots := r.slots.set r.wc v, wc := (r.wc + 1) % r.cap }

/-- RRead (R103): the value at the read cursor, and the ring with that cursor advanced. -/
def RingBuf.read (r : RingBuf) : Word × RingBuf :=
  (r.slots.getD r.rc 0, { r with rc := (r.rc + 1) % r.cap })

/-- The slot of RTap(R, i): (wc - 1 - i) mod cap, in [0, cap) (R104). -/
def RingBuf.tapSlot (r : RingBuf) (i : Nat) : Nat :=
  (((r.wc : Int) - 1 - (i : Int)) % (r.cap : Int)).toNat

/-- RTap (R104): the i-th most recent value written; no cursor moves. -/
def RingBuf.tap (r : RingBuf) (i : Nat) : Word := r.slots.getD (r.tapSlot i) 0

/-- RClear (R105): the capacity does not change. -/
def RingBuf.clear (r : RingBuf) : RingBuf := RingBuf.cleared r.cap

/-- The rings of the block (R107). -/
inductive RingName where
  | fir
  | xh (s : Nat)
  | yh (s : Nat)
deriving DecidableEq, Repr

/-- The ring an id names (R107): 0 is FIR, 2s+1 is XH(s), 2s+2 is YH(s). -/
def ringOf (id : Nat) : RingName :=
  if id = 0 then .fir
  else if id % 2 = 1 then .xh ((id - 1) / 2)
  else .yh ((id - 2) / 2)

/-- Section k of the state. -/
def State.sec (s : State) (k : Nat) : Section := s.secs.getD k Section.cleared

/-- RING(id) (R108), by name. -/
def State.ring (s : State) (n : RingName) : RingBuf :=
  match n with
  | .fir => s.fir
  | .xh k => (s.sec k).xh
  | .yh k => (s.sec k).yh

/-- Put a ring back. -/
def State.setRing (s : State) (n : RingName) (r : RingBuf) : State :=
  match n with
  | .fir => { s with fir := r }
  | .xh k => { s with secs := s.secs.set k { s.sec k with xh := r } }
  | .yh k => { s with secs := s.secs.set k { s.sec k with yh := r } }

end Sys2Proof.Machine
end

