-- ==== Sys2Proof/Machine/Float.lean ====
section
/-! DEFINITION. IEEE 754 binary64 arithmetic on 64-bit words (40_complex.md R65-R73): one rounding, to nearest even, canonical NaN, no flush. -/

namespace Sys2Proof.Machine

open Sys2Proof

/-- What a word says as a binary64 number (R65). A finite value is its sign and its magnitude in units of 2^-1074, the least
subnormal: every finite binary64 magnitude is a whole number of these units, so sums and products are exact integers. -/
inductive Num where
  | nan
  | inf (neg : Bool)
  | fin (neg : Bool) (mag : Nat)
deriving DecidableEq, Repr

/-- The canonical NaN (R72). -/
def canonicalNaN : Word := 0x7FF8000000000000

/-- +0.0 -/
def posZero : Word := 0

/-- The biased exponent, bits [62:52] (20_memory.md R42). -/
def expOf (w : Word) : Nat := (w.extractLsb' 52 11).toNat

/-- The fraction, bits [51:0] (R42). -/
def fracOf (w : Word) : Nat := (w.extractLsb' 0 52).toNat

/-- The number a word stands for: sign bit 63, biased exponent, fraction (R42, R65). -/
def unpack (w : Word) : Num :=
  if expOf w = 2047 then
    if fracOf w = 0 then .inf w.msb else .nan
  else if expOf w = 0 then .fin w.msb (fracOf w)
  else .fin w.msb ((2 ^ 52 + fracOf w) * 2 ^ (expOf w - 1))

/-- A word from its sign and its other 63 bits. -/
def withSign (neg : Bool) (bits : Nat) : Word :=
  BitVec.ofBool neg ++ BitVec.ofNat 63 bits

/-- ±inf -/
def infWord (neg : Bool) : Word := withSign neg (2047 * 2 ^ 52)

/-- ±0.0 -/
def zeroWord (neg : Bool) : Word := withSign neg 0

/-- num / den rounded to a whole number, ties to even (R66, RNE). -/
def roundDiv (num den : Nat) : Nat :=
  let q := num / den
  let r := num % den
  if den < 2 * r ∨ (2 * r = den ∧ q % 2 = 1) then q + 1 else q

/-- How many low bits the significand of num / den drops: 0 for a subnormal or the lowest normal binade. -/
def dropBits (num den : Nat) : Nat := Nat.log2 (num / den) - 52

/-- The magnitude num / den, in units of 2^-1074, rounded once to binary64 (R66). With e dropped bits and the rounded
significand q < 2^53 + 1, the 63 bits are e·2^52 + q: a q below 2^52 is a subnormal (e = 0), and a q that rounds up to
2^53 carries into the exponent. A result of exponent 2047 or more is ±inf. -/
def roundMag (neg : Bool) (num den : Nat) : Word :=
  let e := dropBits num den
  let bits := e * 2 ^ 52 + roundDiv num (den * 2 ^ e)
  if bits < 2047 * 2 ^ 52 then withSign neg bits else infWord neg

/-- The units in 1.0: 2^1074. -/
def oneMag : Nat := 2 ^ 1074

/-- A signed magnitude as an integer. -/
def signedMag (neg : Bool) (mag : Nat) : Int := if neg then - (mag : Int) else (mag : Int)

/-- The sum of two finite values, rounded once; an exact zero sum is +0.0 except (-0.0) + (-0.0) = -0.0 (R66). -/
def addFin (n₁ : Bool) (m₁ : Nat) (n₂ : Bool) (m₂ : Nat) : Word :=
  let z := signedMag n₁ m₁ + signedMag n₂ m₂
  if z = 0 then zeroWord (n₁ && n₂) else roundMag (decide (z < 0)) z.natAbs 1

/-- fadd (R67). -/
def fadd (a b : Word) : Word :=
  match unpack a, unpack b with
  | .nan, _ => canonicalNaN
  | _, .nan => canonicalNaN
  | .inf n₁, .inf n₂ => if n₁ = n₂ then infWord n₁ else canonicalNaN
  | .inf n₁, .fin _ _ => infWord n₁
  | .fin _ _, .inf n₂ => infWord n₂
  | .fin n₁ m₁, .fin n₂ m₂ => addFin n₁ m₁ n₂ m₂

/-- fneg inverts bit 63 and changes nothing else (R71). -/
def fneg (a : Word) : Word := a ^^^ 0x8000000000000000

/-- fsub(a, b) = fadd(a, fneg(b)) (R68). -/
def fsub (a b : Word) : Word := fadd a (fneg b)

/-- fmul (R69): the sign of a zero or infinite product is the exclusive-or of the signs (R66). -/
def fmul (a b : Word) : Word :=
  match unpack a, unpack b with
  | .nan, _ => canonicalNaN
  | _, .nan => canonicalNaN
  | .inf n₁, .inf n₂ => infWord (n₁ ^^ n₂)
  | .inf n₁, .fin n₂ m₂ => if m₂ = 0 then canonicalNaN else infWord (n₁ ^^ n₂)
  | .fin n₁ m₁, .inf n₂ => if m₁ = 0 then canonicalNaN else infWord (n₁ ^^ n₂)
  | .fin n₁ m₁, .fin n₂ m₂ =>
    if m₁ * m₂ = 0 then zeroWord (n₁ ^^ n₂) else roundMag (n₁ ^^ n₂) (m₁ * m₂) oneMag

/-- fdiv (R70). The block divides only by powers of two in [1, NMAX]; the other cases are IEEE 754's (log entry 12). -/
def fdiv (a b : Word) : Word :=
  match unpack a, unpack b with
  | .nan, _ => canonicalNaN
  | _, .nan => canonicalNaN
  | .inf _, .inf _ => canonicalNaN
  | .inf n₁, .fin n₂ _ => infWord (n₁ ^^ n₂)
  | .fin n₁ _, .inf n₂ => zeroWord (n₁ ^^ n₂)
  | .fin n₁ m₁, .fin n₂ m₂ =>
    if m₂ = 0 then (if m₁ = 0 then canonicalNaN else infWord (n₁ ^^ n₂))
    else roundMag (n₁ ^^ n₂) (m₁ * oneMag) m₂

/-- A natural number converted to binary64 (R77: exact for n <= 2^11). -/
def ofNatF (n : Nat) : Word := roundMag false (n * oneMag) 1

/-- Whether a word is a NaN. -/
def isNaN (w : Word) : Bool := unpack w == .nan

/-- Whether a word is a finite number. -/
def isFinite (w : Word) : Bool := expOf w != 2047

end Sys2Proof.Machine
end

