-- ==== Sys2Proof/Machine/Rom.lean ====
section
/-! DEFINITION. The twiddle-factor ROM and its address generator (41_fft.md R82-R84). -/

namespace Sys2Proof.Machine

open Sys2Proof

/-- 2^200: the fixed-point scale in which the default ROM is computed (log entry 10). -/
def fixOne : Nat := 2 ^ 200

/-- The integer part of π·2^200. -/
def fixPi : Nat := 0x3243f6a8885a308d313198a2e03707344a4093822299f31d008

/-- term - term·t²/((k+1)(k+2)) + ..., n further terms, in fixed point: the alternating Taylor series whose first term is
`term`, of degree k. With k = 0 and term 1 it is cos t, with k = 1 and term t it is sin t. -/
def taylor (t : Nat) : Nat → Nat → Nat → Nat
  | 0, _, term => term
  | n + 1, k, term => term - taylor t n (k + 2) (term * t * t / (fixOne * fixOne * ((k + 1) * (k + 2))))

/-- π·y/1024 in fixed point. -/
def fixAngle (y : Nat) : Nat := fixPi * y / 1024

/-- sin(π·y/1024) in fixed point, for y in [0, 256] (angles up to π/4). -/
def fixSin (y : Nat) : Nat := taylor (fixAngle y) 24 1 (fixAngle y)

/-- cos(π·y/1024) in fixed point, for y in [0, 256]. -/
def fixCos (y : Nat) : Nat := taylor (fixAngle y) 24 0 fixOne

/-- A fixed-point value rounded once to binary64. -/
def fixRound (neg : Bool) (v : Nat) : Word := roundMag neg (v * oneMag) fixOne

/-- RNE(cos(π·x/1024)) for x in [0, 1024), by the symmetries that bring the angle into [0, π/4] (R82). -/
def cosWord (x : Nat) : Word :=
  if x ≤ 256 then fixRound false (fixCos x)
  else if x ≤ 512 then fixRound false (fixSin (512 - x))
  else if x ≤ 768 then fixRound true (fixSin (x - 512))
  else fixRound true (fixCos (1024 - x))

/-- RNE(sin(π·x/1024)) for x in [0, 1024) (R82). -/
def sinWord (x : Nat) : Word :=
  if x ≤ 256 then fixRound false (fixSin x)
  else if x ≤ 512 then fixRound false (fixCos (512 - x))
  else if x ≤ 768 then fixRound false (fixCos (x - 512))
  else fixRound false (fixSin (1024 - x))

/-- ROM(j) = (ROMc[j], ROMs[j]) for j in [0, NMAX/2) (R82, R34): the angle 2π·j/NMAX is π·x/1024 with
x = j·2^(11 - LOG2_NMAX); a table TW_ROM given as a parameter replaces the default values. -/
def romEntry (p : Params) (j : Nat) : Cplx :=
  match p.twRom with
  | none => let x := j * 2 ^ (11 - p.log2Nmax); ⟨cosWord x, sinWord x⟩
  | some t => t.getD j ⟨0, 0⟩

/-- The address generator (R83): t(s, k) = k·2^(LOG2_NMAX - s). -/
def twAddr (p : Params) (s k : Nat) : Nat := k * 2 ^ (p.log2Nmax - s)

/-- The twiddle factor for ROM address t and direction inv (R84). -/
def twiddle (p : Params) (t : Nat) (inv : Bool) : Cplx :=
  if inv then romEntry p t else ⟨(romEntry p t).re, fneg (romEntry p t).im⟩

end Sys2Proof.Machine
end

