-- ==== Sys2Proof/Machine/Bus.lean ====
section
/-! DEFINITION. The bus slave port: the address map and every host read and write (10_state.md R15-R34, 20_memory.md R39-R47, 47_control.md R124, R127, R128). -/

namespace Sys2Proof.Machine

open Sys2Proof

/-- The coefficient registers of a section, in address order (10_state.md R30). -/
inductive Coef where
  | b0
  | b1
  | b2
  | a0
  | a1
  | g
deriving DecidableEq, Repr

/-- The mapped 64-bit locations (20_memory.md R39, 10_state.md R15). -/
inductive Loc where
  | id
  | param
  | ctrl
  | status
  | cmd
  | errCode
  | errInfo
  | xin
  | acc
  | rbdata
  | firCfg
  | firCur
  /-- H[i] -/
  | h (i : Nat)
  /-- FIR.S[i] -/
  | firSlot (i : Nat)
  /-- a coefficient register of section s -/
  | coef (s : Nat) (c : Coef)
  /-- XH(s).S[i] -/
  | xhSlot (s i : Nat)
  /-- YH(s).S[i] -/
  | yhSlot (s i : Nat)
  /-- the cursor word of section s -/
  | secCur (s : Nat)
  /-- ROMc[j], or with `im` ROMs[j] -/
  | rom (j : Nat) (im : Bool)
  /-- the real or imaginary word of DMEM entry e -/
  | dmem (e : Nat) (im : Bool)
deriving DecidableEq, Repr

/-- The control and data registers by word number (10_state.md R15); 0x060-0x0FF is unmapped. -/
def locateControl (k : Nat) : Option Loc :=
  match k with
  | 0 => some .id
  | 1 => some .param
  | 2 => some .ctrl
  | 3 => some .status
  | 4 => some .cmd
  | 5 => some .errCode
  | 6 => some .errInfo
  | 7 => some .xin
  | 8 => some .acc
  | 9 => some .rbdata
  | 10 => some .firCfg
  | 11 => some .firCur
  | _ => none

/-- The words of a section block by word number (10_state.md R30-R32); offsets 0x60-0x7F are unmapped. -/
def locateSection (s k : Nat) : Option Loc :=
  match k with
  | 0 => some (.coef s .b0)
  | 1 => some (.coef s .b1)
  | 2 => some (.coef s .b2)
  | 3 => some (.coef s .a0)
  | 4 => some (.coef s .a1)
  | 5 => some (.coef s .g)
  | 6 => some (.xhSlot s 0)
  | 7 => some (.xhSlot s 1)
  | 8 => some (.xhSlot s 2)
  | 9 => some (.yhSlot s 0)
  | 10 => some (.yhSlot s 1)
  | 11 => some (.secCur s)
  | _ => none

/-- `l` if the index lies in the implemented part of its window (20_memory.md R39). -/
def ifMapped (mapped : Bool) (l : Option Loc) : Option Loc := if mapped then l else none

/-- The location at a byte address, none if it is misaligned (20_memory.md R45) or unmapped (R39). -/
def locate (p : Params) (a : Nat) : Option Loc :=
  if a % 8 ≠ 0 then none
  else if a < 0x1000 then locateControl (a / 8)
  else if a < 0x2000 then let i := (a - 0x1000) / 8; ifMapped (decide (i < p.firCap)) (some (.h i))
  else if a < 0x3000 then let i := (a - 0x2000) / 8; ifMapped (decide (i < p.firCap)) (some (.firSlot i))
  else if a < 0x4000 then
    let s := (a - 0x3000) / 0x80
    ifMapped (decide (s < p.nsec)) (locateSection s ((a - 0x3000) % 0x80 / 8))
  else if a < 0x8000 then none
  else if a < 0xC000 then
    let j := (a - 0x8000) / 16
    ifMapped (decide (j < p.nmax / 2)) (some (.rom j (a % 16 == 8)))
  else if a < 0x10000 then none
  else
    let e := (a - 0x10000) / 16
    ifMapped (decide (e < p.dmemEntries)) (some (.dmem e (a % 16 == 8)))

/-- The read-only locations (20_memory.md R46). -/
def Loc.readOnly (l : Loc) : Bool :=
  match l with
  | .id => true
  | .param => true
  | .ctrl => false
  | .status => false
  | .cmd => false
  | .errCode => true
  | .errInfo => true
  | .xin => false
  | .acc => false
  | .rbdata => true
  | .firCfg => false
  | .firCur => true
  | .h _ => false
  | .firSlot _ => true
  | .coef _ _ => false
  | .xhSlot _ _ => true
  | .yhSlot _ _ => true
  | .secCur _ => true
  | .rom _ _ => true
  | .dmem _ _ => false

/-- VOLATILE: the locations a command can write (47_control.md R127). -/
def Loc.isVolatile (l : Loc) : Bool :=
  match l with
  | .id => false
  | .param => false
  | .ctrl => false
  | .status => false
  | .cmd => false
  | .errCode => false
  | .errInfo => false
  | .xin => false
  | .acc => true
  | .rbdata => true
  | .firCfg => false
  | .firCur => true
  | .h _ => false
  | .firSlot _ => true
  | .coef _ _ => false
  | .xhSlot _ _ => true
  | .yhSlot _ _ => true
  | .secCur _ => true
  | .rom _ _ => false
  | .dmem _ _ => true

/-- A field of `width` bits with its lowest bit at `lo`. -/
def placed (lo width v : Nat) : Nat := v % 2 ^ width * 2 ^ lo

/-- ID (10_state.md R16). -/
def idWord : Word := 0x4453505500010000

/-- PARAM (10_state.md R17). -/
def paramWord (p : Params) : Word :=
  BitVec.ofNat 64 (placed 0 5 p.log2Nmax + placed 8 5 p.log2Dmem + placed 16 10 p.firCap + placed 32 6 p.nsec)

/-- FIR_CUR (10_state.md R27). -/
def firCurWord (r : RingBuf) : Word := BitVec.ofNat 64 (placed 0 10 r.wc + placed 16 10 r.rc)

/-- The cursor word of a section (10_state.md R32). -/
def secCurWord (c : Section) : Word :=
  BitVec.ofNat 64 (placed 0 2 c.xh.wc + placed 8 2 c.xh.rc + placed 16 1 c.yh.wc + placed 24 1 c.yh.rc)

/-- A coefficient register of a section. -/
def Section.coef (c : Section) (k : Coef) : Word :=
  match k with
  | .b0 => c.b0
  | .b1 => c.b1
  | .b2 => c.b2
  | .a0 => c.a0
  | .a1 => c.a1
  | .g => c.g

/-- Store a coefficient register. -/
def Section.setCoef (c : Section) (k : Coef) (v : Word) : Section :=
  match k with
  | .b0 => { c with b0 := v }
  | .b1 => { c with b1 := v }
  | .b2 => { c with b2 := v }
  | .a0 => { c with a0 := v }
  | .a1 => { c with a1 := v }
  | .g => { c with g := v }

/-- The word at a location (47_control.md R127); only an unspecified DMEM word draws. -/
def State.readLoc (s : State) (l : Loc) : Word × State :=
  match l with
  | .id => (idWord, s)
  | .param => (paramWord s.params, s)
  | .ctrl => (s.ctrlWord, s)
  | .status => (s.statusWord, s)
  | .cmd => (s.cmd, s)
  | .errCode => (s.errCode.setWidth 64, s)
  | .errInfo => (s.errInfo, s)
  | .xin => (s.xin, s)
  | .acc => (s.acc, s)
  | .rbdata => (s.rbdata, s)
  | .firCfg => (s.ntaps.setWidth 64, s)
  | .firCur => (firCurWord s.fir, s)
  | .h i => (s.h.getD i 0, s)
  | .firSlot i => (s.fir.slots.getD i 0, s)
  | .coef k c => ((s.sec k).coef c, s)
  | .xhSlot k i => ((s.sec k).xh.slots.getD i 0, s)
  | .yhSlot k i => ((s.sec k).yh.slots.getD i 0, s)
  | .secCur k => (secCurWord (s.sec k), s)
  | .rom j im => (if im then (romEntry s.params j).im else (romEntry s.params j).re, s)
  | .dmem e im => s.readDmem (dmemAddr e im)

/-- Store v at a writable location other than CMD, CTRL and STATUS (47_control.md R128): the 64 bits, or NTAPS <- v[15:0]. -/
def State.storeLoc (s : State) (l : Loc) (v : Word) : State :=
  match l with
  | .xin => { s with xin := v }
  | .acc => { s with acc := v }
  | .firCfg => { s with ntaps := v.setWidth 16 }
  | .h i => { s with h := s.h.set i v }
  | .coef k c => { s with secs := s.secs.set k ((s.sec k).setCoef c v) }
  | .dmem e im => s.hostDmem (dmemAddr e im) v
  | .id => s
  | .param => s
  | .ctrl => s
  | .status => s
  | .cmd => s
  | .errCode => s
  | .errInfo => s
  | .rbdata => s
  | .firCur => s
  | .firSlot _ => s
  | .xhSlot _ _ => s
  | .yhSlot _ _ => s
  | .secCur _ => s
  | .rom _ _ => s

/-- Give the response of a read: the data, no error. -/
def State.answer (s : State) (v : Word) : State := { s with resp := some ⟨false, some v⟩ }

/-- Acknowledge a write. -/
def State.ack (s : State) : State := { s with resp := some ⟨false, none⟩ }

/-- A host read at byte address a (47_control.md R127). -/
def State.hostRead (s : State) (a : Addr) : State :=
  match locate s.params a.toNat with
  | none => { s with resp := some ⟨true, some 0⟩ }
  | some l =>
    let r := if s.busy && l.isVolatile then s.draw else s.readLoc l
    r.2.answer r.1

/-- A write of v to CMD: the issue of a command (47_control.md R124). -/
def State.issue (s : State) (v : Word) : State :=
  if s.busy then s.record .cmdOverrun v else { s with cmd := v, busy := true }

/-- A write of v to CTRL (10_state.md R18): bit 2 performs the soft reset, whatever the other bits are (70 R152). -/
def State.writeCtrl (s : State) (v : Word) : State :=
  if v.getLsbD 2 then s.doReset else { s with doneIe := v.getLsbD 0, errIe := v.getLsbD 1 }

/-- The effect of a host write of v to a writable location (47_control.md R128); `a` is its byte address. -/
def State.writeLoc (s : State) (a : Addr) (l : Loc) (v : Word) : State :=
  match l with
  | .cmd => s.issue v
  | .ctrl => s.writeCtrl v
  | .status => s.clearFlags v
  | _ => if s.busy then s.record .busyWrite (a.setWidth 64) else s.storeLoc l v

/-- A host write of v at byte address a (47_control.md R128). -/
def State.hostWrite (s : State) (a : Addr) (v : Word) : State :=
  match locate s.params a.toNat with
  | none => { s with resp := some ⟨true, none⟩ }
  | some l => if l.readOnly then { s with resp := some ⟨true, none⟩ } else (s.writeLoc a l v).ack

/-- One host access (47_control.md R122). -/
def State.hostAccess (s : State) (r : Request) : State :=
  match r with
  | .read a => s.hostRead a
  | .write a v => s.hostWrite a v

end Sys2Proof.Machine
end

