-- ==== Sys2Proof/Machine/Control.lean ====
section
/-! DEFINITION. NOP (47_control.md R126). -/

namespace Sys2Proof.Machine

open Sys2Proof

/-- NOP (R126): no check beyond the decoder's, no effect; it completes with DONE. -/
def execNop (s : State) : Outcome := runCommand none (fun t => t) s

end Sys2Proof.Machine
end

