-- ==== Sys2Proof/Machine/Complex.lean ====
section
/-! DEFINITION. The complex primitives of 40_complex.md R74-R79: pure functions of their operands. -/

namespace Sys2Proof.Machine

open Sys2Proof

/-- cadd (R74). -/
def cadd (a b : Cplx) : Cplx := ⟨fadd a.re b.re, fadd a.im b.im⟩

/-- csub (R75). -/
def csub (a b : Cplx) : Cplx := ⟨fsub a.re b.re, fsub a.im b.im⟩

/-- cmul (R76): each product is rounded before its sum. -/
def cmul (a b : Cplx) : Cplx :=
  ⟨fsub (fmul a.re b.re) (fmul a.im b.im), fadd (fmul a.re b.im) (fmul a.im b.re)⟩

/-- cdivn (R77): both parts divided by the integer n as a binary64 value. -/
def cdivn (a : Cplx) (n : Nat) : Cplx := ⟨fdiv a.re (ofNatF n), fdiv a.im (ofNatF n)⟩

end Sys2Proof.Machine
end

