-- ==== Sys2Proof/Machine/Fft.lean ====
section
/-! DEFINITION. The FFT unit: bit reversal, butterfly, stage, the reference recursion, and the commands FFT, BITREV, STAGE, SCALE, BFLY (41_fft.md R85-R97). -/

namespace Sys2Proof.Machine

open Sys2Proof

/-- bitrev_L(i) (R85): bit 0 of i becomes bit L-1, and the rest is reversed below it. -/
def bitrev : Nat → Nat → Nat
  | 0, _ => 0
  | l + 1, i => (i % 2) * 2 ^ l + bitrev l (i / 2)

/-- BF(e, o, W) (R87): the product W·o is computed once, W as first operand. -/
def butterfly (e o w : Cplx) : Cplx × Cplx :=
  let u := cmul w o
  (cadd e u, csub e u)

/-- x[0], x[2], ... (R89). -/
def evens : List Cplx → List Cplx
  | [] => []
  | [a] => [a]
  | a :: _ :: r => a :: evens r

/-- x[1], x[3], ... (R89). -/
def odds : List Cplx → List Cplx
  | [] => []
  | [_] => []
  | _ :: b :: r => b :: odds r

/-- The last loop of REC for length n (R89): butterfly k of (E[k], O[k]) with the twiddle at k·(NMAX/n); the first results, then
the second ones. -/
def combine (p : Params) (inv : Bool) (n : Nat) (es os : List Cplx) : List Cplx :=
  let ys := (es.zip os).mapIdx (fun k eo => butterfly eo.1 eo.2 (twiddle p (k * (p.nmax / n)) inv))
  ys.map Prod.fst ++ ys.map Prod.snd

/-- REC (R89) on a sequence of length 2^L. -/
def recFft (p : Params) (inv : Bool) : Nat → List Cplx → List Cplx
  | 0, x => x
  | l + 1, x => combine p inv (2 ^ (l + 1)) (recFft p inv l (evens x)) (recFft p inv l (odds x))

/-- FFT_ref(x, inv) (R89): scaled once, at the top, when inverse. -/
def fftRef (p : Params) (inv : Bool) (x : List Cplx) : List Cplx :=
  let y := recFft p inv x.length.log2 x
  if inv then y.map (fun z => cdivn z x.length) else y

/-- The effect of FFT (R93): read the region, transform, write it back. -/
def State.fft (s : State) (inv : Bool) (base n : Nat) : State :=
  let r := s.readRegion base n
  r.2.writeRegion base (fftRef s.params inv r.1)

/-- PERMUTE(base, N) with N = 2^L (R86): all entries are read before any is written. -/
def State.permute (s : State) (base n : Nat) : State :=
  let r := s.readRegion base n
  r.2.writeEntries (r.1.mapIdx (fun i z => (base + bitrev n.log2 i, z)))

/-- One butterfly on the entries e and o with the twiddle at ROM address t (R88, R97). -/
def State.bflyAt (s : State) (inv : Bool) (e o t : Nat) : State :=
  let x := s.dread e
  let y := x.2.dread o
  let b := butterfly x.1 y.1 (twiddle s.params t inv)
  (y.2.dwrite e b.1).dwrite o b.2

/-- The butterflies (even entry, odd entry, ROM address) of stage s on [base, base + N), in the order of R88: j in steps of
m = 2^s, k in [0, m/2). -/
def stageBflys (p : Params) (base n s : Nat) : List (Nat × Nat × Nat) :=
  (List.range (n / 2 ^ s)).flatMap (fun b =>
    (List.range (2 ^ s / 2)).map (fun k =>
      (base + b * 2 ^ s + k, base + b * 2 ^ s + k + 2 ^ s / 2, twAddr p s k)))

/-- STAGEFN(base, N, s, inv) (R88). -/
def State.stage (s : State) (inv : Bool) (base n st : Nat) : State :=
  (stageBflys s.params base n st).foldl (fun t b => t.bflyAt inv b.1 b.2.1 b.2.2) s

/-- DWrite(e, cdivn(DRead(e), N)) (R96). -/
def State.scaleAt (s : State) (n e : Nat) : State :=
  let r := s.dread e
  r.2.dwrite e (cdivn r.1 n)

/-- The effect of SCALE (R96), in increasing order. -/
def State.scale (s : State) (base n : Nat) : State :=
  (List.range n).foldl (fun t i => t.scaleAt n (base + i)) s

/-- FFT (R93). -/
def execFft (inv : Bool) (base n : Nat) (s : State) : Outcome :=
  runCommand (regionCheck s.params base n) (fun t => t.fft inv base n) s

/-- BITREV (R94). -/
def execBitrev (base n : Nat) (s : State) : Outcome :=
  runCommand (regionCheck s.params base n) (fun t => t.permute base n) s

/-- STAGE (R95). -/
def execStage (inv : Bool) (base n st : Nat) (s : State) : Outcome :=
  runCommand (stageCheck s.params base n st) (fun t => t.stage inv base n st) s

/-- SCALE (R96). -/
def execScale (base n : Nat) (s : State) : Outcome :=
  runCommand (regionCheck s.params base n) (fun t => t.scale base n) s

/-- BFLY (R97): p is the even-half entry, q the odd-half entry, t the ROM address. -/
def execBfly (inv : Bool) (p q t : Nat) (s : State) : Outcome :=
  runCommand (bflyCheck s.params p q t) (fun u => u.bflyAt inv p q t) s

end Sys2Proof.Machine
end

