-- ==== Sys2Proof/Machine/Fir.lean ====
section
/-! DEFINITION. The FIR transversal filter (44_fir.md R112). -/

namespace Sys2Proof.Machine

open Sys2Proof

/-- The weighted sum of R112: y <- fadd(y, fmul(H[i], RTap(R, i))) for i = 0, ..., L-1, from y0. -/
def firSum (h : List Word) (r : RingBuf) (taps : Nat) (y0 : Word) : Word :=
  (List.range taps).foldl (fun y i => fadd y (fmul (h.getD i 0) (r.tap i))) y0

/-- The starting value of an accumulating command: +0.0 with CLR = 1, else ACC (44_fir.md R112, 45_iir.md R117). -/
def State.acc0 (s : State) (clr : Bool) : Word := if clr then posZero else s.acc

/-- The effect of FIR (R112): XIN enters the ring, and ACC gets the sum. -/
def State.fir1 (s : State) (clr : Bool) : State :=
  let r := s.fir.write s.xin
  { s with fir := r, acc := firSum s.h r s.ntaps.toNat (s.acc0 clr) }

/-- FIR (R112). -/
def execFir (clr : Bool) (s : State) : Outcome :=
  runCommand (firCheck s.params s.ntaps.toNat) (fun t => t.fir1 clr) s

end Sys2Proof.Machine
end

