-- ==== Sys2Proof/Machine/Iir.lean ====
section
/-! DEFINITION. The IIR biquad section (45_iir.md R115, R117). -/

namespace Sys2Proof.Machine

open Sys2Proof

/-- The five sums of BQ (R115), feed-forward then feedback, from acc0; `xh` already holds the new input. -/
def biquadSum (c : Section) (xh : RingBuf) (acc0 : Word) : Word :=
  let y0 := fadd acc0 (fmul c.b0 (xh.tap 0))
  let y1 := fadd y0 (fmul c.b1 (xh.tap 1))
  let y2 := fadd y1 (fmul c.b2 (xh.tap 2))
  let y3 := fadd y2 (fmul c.a0 (c.yh.tap 0))
  fadd y3 (fmul c.a1 (c.yh.tap 1))

/-- BQ(s, x, acc0) on one section (R115): the output, and the section with both histories pushed. -/
def biquad (c : Section) (x acc0 : Word) : Word × Section :=
  let xh := c.xh.write x
  let y := biquadSum c xh acc0
  (y, { c with xh := xh, yh := c.yh.write y })

/-- The effect of IIR (R117): ACC <- BQ(sec, XIN, acc0). -/
def State.iir1 (s : State) (clr : Bool) (k : Nat) : State :=
  let b := biquad (s.sec k) s.xin (s.acc0 clr)
  { s with acc := b.1, secs := s.secs.set k b.2 }

/-- IIR (R117). -/
def execIir (clr : Bool) (sec : Nat) (s : State) : Outcome :=
  runCommand (iirCheck s.params sec) (fun t => t.iir1 clr sec) s

end Sys2Proof.Machine
end

