-- ==== Sys2Proof/Machine/RingCmd.lean ====
section
/-! DEFINITION. The ring-buffer commands RBWR, RBRD, RBCLR (43_ring_buffer.md R109-R111). -/

namespace Sys2Proof.Machine

open Sys2Proof

/-- The effect of RBWR (R109): RWrite(RING(id), XIN). -/
def State.ringWrite (s : State) (id : Nat) : State := s.setRing (ringOf id) ((s.ring (ringOf id)).write s.xin)

/-- The effect of RBRD (R110): RBDATA <- RRead(RING(id)). -/
def State.ringRead (s : State) (id : Nat) : State :=
  let r := (s.ring (ringOf id)).read
  { s.setRing (ringOf id) r.2 with rbdata := r.1 }

/-- The effect of RBCLR (R111): RClear(RING(id)). -/
def State.ringClear (s : State) (id : Nat) : State := s.setRing (ringOf id) (s.ring (ringOf id)).clear

/-- RBWR (R109). -/
def execRbwr (id : Nat) (s : State) : Outcome := runCommand (ringCheck s.params id) (fun t => t.ringWrite id) s

/-- RBRD (R110). -/
def execRbrd (id : Nat) (s : State) : Outcome := runCommand (ringCheck s.params id) (fun t => t.ringRead id) s

/-- RBCLR (R111). -/
def execRbclr (id : Nat) (s : State) : Outcome := runCommand (ringCheck s.params id) (fun t => t.ringClear id) s

end Sys2Proof.Machine
end

