-- ==== Sys2Proof/Machine/Sos.lean ====
section
/-! DEFINITION. The SOS cascader (46_sos.md R119). -/

namespace Sys2Proof.Machine

open Sys2Proof

/-- The loop of R119 over the sections `ks`: each section's sum starts at +0.0, its gain-scaled output is the next one's input.
The last value, and the sections afterwards. -/
def cascade : List Nat → Word → List Section → Word × List Section
  | [], v, secs => (v, secs)
  | k :: ks, v, secs =>
    let b := biquad (secs.getD k Section.cleared) v posZero
    cascade ks (fmul b.1 b.2.g) (secs.set k b.2)

/-- The effect of SOS (R119): sections first .. first + count - 1 on XIN, the last scaled output in ACC. -/
def State.sos1 (s : State) (first count : Nat) : State :=
  let r := cascade (List.range' first count) s.xin s.secs
  { s with acc := r.1, secs := r.2 }

/-- SOS (R119). -/
def execSos (first count : Nat) (s : State) : Outcome :=
  runCommand (sosCheck s.params first count) (fun t => t.sos1 first count) s

end Sys2Proof.Machine
end

