-- ==== Sys2Proof/Machine/Vector.lean ====
section
/-! DEFINITION. The pointwise complex product VCMUL (42_vector.md R99). -/

namespace Sys2Proof.Machine

open Sys2Proof

/-- One element of VCMUL: DWrite(d, cmul(DRead(d), DRead(e))), the destination's value as first operand (R99). -/
def State.vcmulAt (s : State) (d e : Nat) : State :=
  let a := s.dread d
  let b := a.2.dread e
  b.2.dwrite d (cmul a.1 b.1)

/-- The effect of VCMUL (R99): in increasing i, each element read and written before the next. -/
def State.vcmul (s : State) (dst src count : Nat) : State :=
  (List.range count).foldl (fun t i => t.vcmulAt (dst + i) (src + i)) s

/-- VCMUL (R99). -/
def execVcmul (dst src count : Nat) (s : State) : Outcome :=
  runCommand (vcmulCheck s.params dst src count) (fun t => t.vcmul dst src count) s

end Sys2Proof.Machine
end

