-- ==== Sys2Proof/Machine/Dispatch.lean ====
section
/-! DEFINITION. exec: the engine's execution of a decoded command, one arm per constructor (47_control.md R125). -/

namespace Sys2Proof.Machine

open Sys2Proof

def exec (i : Instr) (s : State) : Host.Outcome State Fault Refusal :=
  match i with
  | .nop => Sys2Proof.Machine.execNop s
  | .fft inv base n => Sys2Proof.Machine.execFft inv base n s
  | .bitrev base n => Sys2Proof.Machine.execBitrev base n s
  | .stage inv base n st => Sys2Proof.Machine.execStage inv base n st s
  | .scale base n => Sys2Proof.Machine.execScale base n s
  | .bfly inv p q t => Sys2Proof.Machine.execBfly inv p q t s
  | .vcmul dst src count => Sys2Proof.Machine.execVcmul dst src count s
  | .fir clr => Sys2Proof.Machine.execFir clr s
  | .iir clr sec => Sys2Proof.Machine.execIir clr sec s
  | .sos first count => Sys2Proof.Machine.execSos first count s
  | .rbwr id => Sys2Proof.Machine.execRbwr id s
  | .rbrd id => Sys2Proof.Machine.execRbrd id s
  | .rbclr id => Sys2Proof.Machine.execRbclr id s

end Sys2Proof.Machine
end

