-- ==== Sys2Proof/Machine/Engine.lean ====
section
/-! DEFINITION. The engine's step and the turns of the three agents (47_control.md R122, R123, R125; 70_reset_and_hazards.md R150). -/

namespace Sys2Proof.Machine

open Sys2Proof

/-- engine_step (47_control.md R125) for the pending word CMD: decode it (30_encoding.md R61) and execute it; an illegal word
raises ILLEGAL_CMD with no other effect (R59, R60). -/
def engineStep (s : State) : Outcome :=
  match decode s.cmd with
  | .command i => exec i s
  | .illegal _ => .next (s.raiseErr .illegalCmd)

/-- The engine's turn: its step is enabled exactly when BUSY = 1 (R122); otherwise nothing happens (log entry 13). -/
def engineTurn (s : State) : Outcome := if s.busy then engineStep s else .next s

/-- One agent's turn (R122). -/
def takeTurn (t : Turn) (s : State) : Outcome :=
  match t with
  | .host r => .next (s.hostAccess r)
  | .engine => engineTurn s
  | .rstEdge level => .next (s.clockEdge level)

/-- The first clock edge with a given reset level among the coming turns, and the turns without it. -/
def takeEdge : List Turn → Option (Bool × List Turn)
  | [] => none
  | .rstEdge level :: ts => some (level, ts)
  | t :: ts => (takeEdge ts).map (fun r => (r.1, t :: r.2))

/-- While rst_n = 0 the block answers no bus request (70 R150): the host's accesses wait, and the next thing that can happen is a
clock edge (93_implementation_defined.md U8). -/
def heldInReset (s : State) : Outcome :=
  match takeEdge s.agenda with
  | some (level, ts) => .next ({ s with agenda := ts }.clockEdge level)
  | none => .next s

/-- Out of reset the first coming turn is taken; with none, the engine is the only agent left, and its step happens if it is
enabled (weak fairness, R123). -/
def nextTurn (s : State) : Outcome :=
  match s.agenda with
  | t :: ts => takeTurn t { s with agenda := ts }
  | [] => engineTurn s

/-- One step: the ports carry no response until this step gives one (20_memory.md R38). -/
def turn (s : State) : Outcome :=
  if s.rstN then nextTurn { s with resp := none } else heldInReset { s with resp := none }

/-- The state in which the next step executes the command word w: w is pending, the block is out of reset, and the engine has
the next turn. -/
def State.withPending (s : State) (w : Word) : State :=
  { s with cmd := w, busy := true, rstN := true, agenda := .engine :: s.agenda }

end Sys2Proof.Machine
end

