-- ==== Sys2Proof/Machine/Step.lean ====
section
/-! DEFINITION. step: one turn of one agent (47_control.md R122); and the state whose next step executes a given command word. -/

namespace Sys2Proof.Machine

open Sys2Proof

/-- One step of the machine. -/
def step (s : State) : Host.Outcome State Fault Refusal := turn s

/-- `s` with the command whose low nbits bits are w's, and whose other bits are 0, pending and the engine's turn next: the block
fetches no instruction (10_state.md R13), it executes the word held in CMD while BUSY = 1 (R35). See log entry 3. -/
def State.withFetchWord (s : State) (nbits w : Nat) : State := s.withPending (BitVec.ofNat 64 (w % 2 ^ nbits))

end Sys2Proof.Machine
end

