-- ==== Sys2Proof/Safety.lean ====
section
/-! DEFINITION. The words the claims are stated in: a well-formed state, a safe run, an error's causes, what a command touches, the addresses of the map. Written from the spec's own lists, apart from the checks and meanings they are compared with. -/

namespace Sys2Proof.Machine

open Sys2Proof

/-! Well-formed states. -/

/-- A ring of capacity `cap` with both cursors on valid slots (43_ring_buffer.md R101). -/
abbrev RingBuf.Ok (r : RingBuf) (cap : Nat) : Prop := r.slots.length = cap ∧ r.wc < cap ∧ r.rc < cap

/-- A section's rings have their capacities (43_ring_buffer.md R107). -/
abbrev Section.Ok (c : Section) : Prop := c.xh.Ok 3 ∧ c.yh.Ok 2

/-- The sizes of every memory and ring are those the parameters fix (10_state.md R28, R29, R31; 43_ring_buffer.md R101, R107). -/
abbrev State.Sized (s : State) : Prop :=
  s.h.length = s.params.firCap ∧ s.fir.Ok s.params.firCap ∧
  s.secs.length = s.params.nsec ∧ ∀ c ∈ s.secs, c.Ok

/-- The byte memory is in canonical form and lists DMEM's bytes only (10_state.md R33). -/
abbrev State.DmemOk (s : State) : Prop :=
  Memory.wf s.dmem = true ∧ ∀ c ∈ s.dmem, 0x10000 ≤ c.1 ∧ c.1 < 0x10000 + 16 * s.params.dmemEntries

/-- The lost words are DMEM words, listed in rising order, and none of their bytes is specified
(70_reset_and_hazards.md R153, 93_implementation_defined.md U6). -/
abbrev State.LostOk (s : State) : Prop :=
  s.lost.Pairwise (· < ·) ∧
  ∀ a ∈ s.lost, (a % 8 = 0 ∧ 0x10000 ≤ a ∧ a < 0x10000 + 16 * s.params.dmemEntries) ∧
    ∀ c ∈ s.dmem, c.1 < a ∨ a + 8 ≤ c.1

/-- The error record is empty while ERR = 0, and holds a code of 60_exceptions.md R134 while ERR = 1 (10_state.md R21, R22;
93_implementation_defined.md U12). -/
abbrev State.ErrOk (s : State) : Prop :=
  (s.err = false → s.errCode = 0 ∧ s.errInfo = 0) ∧
  (s.err = true → 1 ≤ s.errCode.toNat ∧ s.errCode.toNat ≤ 8)

/-- A well-formed state: legal parameters, the sizes they fix, canonical memory, lost words unspecified, a consistent error record. -/
abbrev State.Wf (s : State) : Prop := s.params.Legal ∧ s.Sized ∧ s.DmemOk ∧ s.LostOk ∧ s.ErrOk

/-- The machine goes on from s: a safe run never stops (60_exceptions.md R141). -/
def GoesOn (s : State) : Prop := ∃ t, step s = .next t

/-! DMEM seen from outside. -/

/-- The value of DMEM entry e, none if one of its two words is unspecified. -/
def State.entry? (s : State) (e : Nat) : Option Cplx :=
  match Memory.readWord s.dmem (dmemAddr e false), Memory.readWord s.dmem (dmemAddr e true) with
  | some a, some b => some ⟨a, b⟩
  | _, _ => none

/-- In t entry e holds z, as a command that stores z there in s leaves it: each word is the one stored (20_memory.md R48), but a
lost word is as it was (70_reset_and_hazards.md R153: unspecified until the host writes it). -/
def Stored (s t : State) (e : Nat) (z : Cplx) : Prop :=
  ∀ im, Memory.readWord t.dmem (dmemAddr e im) =
    if dmemAddr e im ∈ s.lost then Memory.readWord s.dmem (dmemAddr e im) else some (if im then z.im else z.re)

/-- The bus address `a` is a byte of DMEM entry e (10_state.md R33). -/
abbrev inEntry (e a : Nat) : Prop := 0x10000 + 16 * e ≤ a ∧ a < 0x10000 + 16 * e + 16

/-- Entry e is one a command writes when it succeeds (the regions of 41_fft.md R93-R97 and 42_vector.md R99). -/
def Touches (i : Instr) (e : Nat) : Prop :=
  match i with
  | .nop => False
  | .fft _ base n => base ≤ e ∧ e < base + n
  | .bitrev base n => base ≤ e ∧ e < base + n
  | .stage _ base n _ => base ≤ e ∧ e < base + n
  | .scale base n => base ≤ e ∧ e < base + n
  | .bfly _ p q _ => e = p ∨ e = q
  | .vcmul dst _ count => dst ≤ e ∧ e < dst + count
  | .fir _ => False
  | .iir _ _ => False
  | .sos _ _ => False
  | .rbwr _ => False
  | .rbrd _ => False
  | .rbclr _ => False

/-! The causes of errors, from the table of 60_exceptions.md R134, in no order. -/

/-- N is a power of two. -/
def PowerOfTwo (n : Nat) : Prop := ∃ k, n = 2 ^ k

/-- The causes about a transform length (R134 codes 2 and 3). -/
def LenCause (p : Params) (n : Nat) (c : ErrCode) : Prop :=
  (c = .invalidLength ∧ ¬ PowerOfTwo n) ∨ (c = .lengthRange ∧ PowerOfTwo n ∧ p.nmax < n)

/-- The cause about a DMEM region (R134 code 6). -/
def AddrCause (p : Params) (base n : Nat) (c : ErrCode) : Prop := c = .addrRange ∧ p.dmemEntries < base + n

/-- `c` is an error a decoded command has a cause for (R134), given the parameters and FIR_CFG.NTAPS. -/
def CauseOf (p : Params) (taps : Nat) (i : Instr) (c : ErrCode) : Prop :=
  match i with
  | .nop => False
  | .fft _ base n => LenCause p n c ∨ AddrCause p base n c
  | .bitrev base n => LenCause p n c ∨ AddrCause p base n c
  | .stage _ base n s => LenCause p n c ∨ (c = .fieldRange ∧ (s < 1 ∨ n.log2 < s)) ∨ AddrCause p base n c
  | .scale base n => LenCause p n c ∨ AddrCause p base n c
  | .bfly _ e o t =>
    (c = .fieldRange ∧ (p.nmax / 2 ≤ t ∨ e = o)) ∨ (c = .addrRange ∧ (p.dmemEntries ≤ e ∨ p.dmemEntries ≤ o))
  | .vcmul dst src count => AddrCause p dst count c ∨ AddrCause p src count c
  | .fir _ => c = .dimMismatch ∧ (taps = 0 ∨ p.firCap < taps)
  | .iir _ sec => c = .fieldRange ∧ p.nsec ≤ sec
  | .sos first count => (c = .dimMismatch ∧ count = 0) ∨ (c = .fieldRange ∧ p.nsec < first + count)
  | .rbwr id => c = .fieldRange ∧ 2 * p.nsec < id
  | .rbrd id => c = .fieldRange ∧ 2 * p.nsec < id
  | .rbclr id => c = .fieldRange ∧ 2 * p.nsec < id

/-- The causes that hold in a state. -/
def State.HasCause (s : State) (i : Instr) (c : ErrCode) : Prop := CauseOf s.params s.ntaps.toNat i c

/-! What a reset abandons. -/

/-- The pending command could write entry e: it is a DMEM command that passes its checks, and e is in its region
(70_reset_and_hazards.md R153). -/
def State.Abandons (s : State) (e : Nat) : Prop :=
  s.busy = true ∧ ∃ i, decode s.cmd = .command i ∧ (∀ c, ¬ s.HasCause i c) ∧ Touches i e

/-- What a reset of s leaves of DMEM in t (R150, R153): with nothing pending all of it; else every byte but those of the entries
the pending command could write, which become unspecified, and whose words are lost until the host writes them. -/
def ResetDmem (s t : State) : Prop :=
  (s.busy = false → t.dmem = s.dmem ∧ t.lost = s.lost) ∧
  (∀ a, (∀ e, s.Abandons e → ¬ inEntry e a) → Memory.read t.dmem a = Memory.read s.dmem a) ∧
  (∀ a e, s.Abandons e → inEntry e a → Memory.read t.dmem a = none) ∧
  (∀ a, a ∈ t.lost ↔ a ∈ s.lost ∨ ∃ e im, s.Abandons e ∧ a = dmemAddr e im)

/-! The fields a word may use, from the table of 30_encoding.md R57. -/

/-- The fields an opcode uses: INV, CLR, FA, FB, FC (R57). -/
structure FieldUse where
  inv : Bool
  clr : Bool
  fa : Bool
  fb : Bool
  fc : Bool
deriving DecidableEq, Repr

/-- The rows of R57; none for a reserved opcode (R60). -/
def fieldUse (opc : BitVec 8) : Option FieldUse :=
  match opc.toNat with
  | 0x00 => some ⟨false, false, false, false, false⟩
  | 0x01 => some ⟨true, false, true, true, false⟩
  | 0x02 => some ⟨false, false, true, true, false⟩
  | 0x03 => some ⟨true, false, true, true, true⟩
  | 0x04 => some ⟨false, false, true, true, false⟩
  | 0x05 => some ⟨true, false, true, true, true⟩
  | 0x06 => some ⟨false, false, true, true, true⟩
  | 0x08 => some ⟨false, true, false, false, false⟩
  | 0x09 => some ⟨false, true, true, false, false⟩
  | 0x0A => some ⟨false, false, true, true, false⟩
  | 0x0C => some ⟨false, false, true, false, false⟩
  | 0x0D => some ⟨false, false, true, false, false⟩
  | 0x0E => some ⟨false, false, true, false, false⟩
  | _ => none

/-- A legal word (R59, R60): its opcode is not reserved, its reserved bits are 0, and every field its row does not use is 0. -/
def LegalWord (w : Word) : Prop :=
  ∃ u, fieldUse (opcOf w) = some u ∧ reservedOf w = 0 ∧
    (u.inv = false → invOf w = false) ∧ (u.clr = false → clrOf w = false) ∧
    (u.fa = false → faOf w = 0) ∧ (u.fb = false → fbOf w = 0) ∧ (u.fc = false → fcOf w = 0)

/-! The address map, from 10_state.md R15, R28-R34 and 20_memory.md R39: the address of each location. -/

/-- The byte offset of a coefficient register in its section block (10_state.md R30). -/
def Coef.offset (c : Coef) : Nat :=
  match c with
  | .b0 => 0x00
  | .b1 => 0x08
  | .b2 => 0x10
  | .a0 => 0x18
  | .a1 => 0x20
  | .g => 0x28

/-- SB(s) (10_state.md R30). -/
def sectionBase (s : Nat) : Nat := 0x03000 + 0x80 * s

/-- The byte address of a location. -/
def Loc.addr (l : Loc) : Nat :=
  match l with
  | .id => 0x000
  | .param => 0x008
  | .ctrl => 0x010
  | .status => 0x018
  | .cmd => 0x020
  | .errCode => 0x028
  | .errInfo => 0x030
  | .xin => 0x038
  | .acc => 0x040
  | .rbdata => 0x048
  | .firCfg => 0x050
  | .firCur => 0x058
  | .h i => 0x01000 + 8 * i
  | .firSlot i => 0x02000 + 8 * i
  | .coef s c => sectionBase s + c.offset
  | .xhSlot s i => sectionBase s + 0x30 + 8 * i
  | .yhSlot s i => sectionBase s + 0x48 + 8 * i
  | .secCur s => sectionBase s + 0x58
  | .rom j im => 0x08000 + 16 * j + (if im then 8 else 0)
  | .dmem e im => 0x10000 + 16 * e + (if im then 8 else 0)

/-- The location is in the implemented part of its window (20_memory.md R39). -/
def Loc.Implemented (p : Params) (l : Loc) : Prop :=
  match l with
  | .id => True
  | .param => True
  | .ctrl => True
  | .status => True
  | .cmd => True
  | .errCode => True
  | .errInfo => True
  | .xin => True
  | .acc => True
  | .rbdata => True
  | .firCfg => True
  | .firCur => True
  | .h i => i < p.firCap
  | .firSlot i => i < p.firCap
  | .coef s _ => s < p.nsec
  | .xhSlot s i => s < p.nsec ∧ i < 3
  | .yhSlot s i => s < p.nsec ∧ i < 2
  | .secCur s => s < p.nsec
  | .rom j _ => j < p.nmax / 2
  | .dmem e _ => e < p.dmemEntries

/-! What a host read shows, from 10_state.md R16-R34. -/

/-- w is the word the host reads at a location: the fields at their places and every other bit 0. Of an unspecified DMEM word
only that it is the next free value (R33). -/
def State.Shows (s : State) (l : Loc) (w : Word) : Prop :=
  match l with
  | .id => w = 0x4453505500010000
  | .param =>
    w.toNat = s.params.log2Nmax + s.params.log2Dmem * 2 ^ 8 + s.params.firCap * 2 ^ 16 + s.params.nsec * 2 ^ 32
  | .ctrl => w.toNat = s.doneIe.toNat + s.errIe.toNat * 2 ^ 1
  | .status => w.toNat = s.busy.toNat + s.done.toNat * 2 ^ 1 + s.err.toNat * 2 ^ 2 + s.eovf.toNat * 2 ^ 3
  | .cmd => w = s.cmd
  | .errCode => w.toNat = s.errCode.toNat
  | .errInfo => w = s.errInfo
  | .xin => w = s.xin
  | .acc => w = s.acc
  | .rbdata => w = s.rbdata
  | .firCfg => w.toNat = s.ntaps.toNat
  | .firCur => w.toNat = s.fir.wc + s.fir.rc * 2 ^ 16
  | .h i => s.h[i]? = some w
  | .firSlot i => s.fir.slots[i]? = some w
  | .coef k .b0 => s.secs[k]?.map Section.b0 = some w
  | .coef k .b1 => s.secs[k]?.map Section.b1 = some w
  | .coef k .b2 => s.secs[k]?.map Section.b2 = some w
  | .coef k .a0 => s.secs[k]?.map Section.a0 = some w
  | .coef k .a1 => s.secs[k]?.map Section.a1 = some w
  | .coef k .g => s.secs[k]?.map Section.g = some w
  | .xhSlot k i => (s.sec k).xh.slots[i]? = some w
  | .yhSlot k i => (s.sec k).yh.slots[i]? = some w
  | .secCur k =>
    w.toNat = (s.sec k).xh.wc + (s.sec k).xh.rc * 2 ^ 8 + (s.sec k).yh.wc * 2 ^ 16 + (s.sec k).yh.rc * 2 ^ 24
  | .rom j im => w = if im then (romEntry s.params j).im else (romEntry s.params j).re
  | .dmem e im => w = (Memory.readWord s.dmem (dmemAddr e im)).getD (Config.freeWord s.draws)

/-! Signed zeros and infinities (40_complex.md R65, 20_memory.md R42). -/

/-- -0.0 or +0.0. -/
def signedZero (neg : Bool) : Word := if neg then 0x8000000000000000 else 0

/-- -inf or +inf. -/
def signedInf (neg : Bool) : Word := if neg then 0xFFF0000000000000 else 0x7FF0000000000000

/-! Reading a ring several times. -/

/-- n RReads in turn (43_ring_buffer.md R106): the values read, and the ring afterwards. -/
def readMany : Nat → RingBuf → List Word × RingBuf
  | 0, r => ([], r)
  | n + 1, r =>
    let x := r.read
    let rest := readMany n x.2
    (x.1 :: rest.1, rest.2)

/-! Sequences of commands, each issued and completed before the next (70_reset_and_hazards.md R156, R158). -/

/-- Execute commands one after the other. -/
def runSeq : List Instr → State → Outcome
  | [], s => .next s
  | i :: is, s =>
    match exec i s with
    | .next t => runSeq is t
    | .fault r => .fault r
    | .refused r => .refused r

/-- The host's side of 46_sos.md R121 for the sections `ks`: IIR.C, read ACC, multiply by the gain, write XIN; at the end write ACC. -/
def hostCascade : List Nat → State → Outcome
  | [], s => .next { s with acc := s.xin }
  | k :: ks, s =>
    match exec (.iir true k) s with
    | .next t => hostCascade ks { t with xin := fmul t.acc (t.sec k).g }
    | .fault r => .fault r
    | .refused r => .refused r

/-- The values of ACC as a filter command runs once per sample, the host writing each sample to XIN (44_fir.md R112). -/
def stream (i : Instr) : List Word → State → List Word
  | [], _ => []
  | x :: xs, s =>
    match exec i { s with xin := x } with
    | .next t => t.acc :: stream i xs t
    | .fault _ => []
    | .refused _ => []

end Sys2Proof.Machine
end

