-- ==== Sys2Proof/Certificates/Slice0/Obligations.lean ====
section
/-! DEFINITION. The statements for the provers, from the numbered rules of spec/. Each docstring names the rule. -/

open Sys2Proof Sys2Proof.Machine

/-! Encoding. -/

/-- R64: the eighteen worked encodings decode to the commands they are written as. -/
def Obligations.WorkedEncodingsDecode : Prop :=
  decode 0x0000000000000000 = .command .nop ∧
  decode 0x0000000400000001 = .command (.fft false 0 4) ∧
  decode 0x0000000400000101 = .command (.fft true 0 4) ∧
  decode 0x0000000800100001 = .command (.fft false 16 8) ∧
  decode 0x0000000800000002 = .command (.bitrev 0 8) ∧
  decode 0x0003000800000003 = .command (.stage false 0 8 3) ∧
  decode 0x0001000800000103 = .command (.stage true 0 8 1) ∧
  decode 0x0000000400000004 = .command (.scale 0 4) ∧
  decode 0x0000000100000005 = .command (.bfly false 0 1 0) ∧
  decode 0x0100000600020105 = .command (.bfly true 2 6 256) ∧
  decode 0x0004000400000006 = .command (.vcmul 0 4 4) ∧
  decode 0x0000000000000008 = .command (.fir false) ∧
  decode 0x0000000000000208 = .command (.fir true) ∧
  decode 0x0000000000030209 = .command (.iir true 3) ∧
  decode 0x000000020000000A = .command (.sos 0 2) ∧
  decode 0x000000000001000C = .command (.rbwr 1) ∧
  decode 0x000000000000000D = .command (.rbrd 0) ∧
  decode 0x000000000004000E = .command (.rbclr 4)

/-- R55, R57, R58, R61: decoding the word of a well-formed command gives the command back. -/
def Obligations.DecodeOfEncode : Prop :=
  ∀ i : Instr, i.WellFormed → decode (encode i) = .command i

/-- R55, R58, R61: a word that decodes to a command is that command's own word, and the command is well formed. -/
def Obligations.EncodeOfDecode : Prop :=
  ∀ (w : Word) (i : Instr), decode w = .command i → i.WellFormed ∧ encode i = w

/-- R59, R60: the decoder (the masks and matches of R58) accepts exactly the words whose opcode is not reserved, whose bits [15:10]
are 0, and whose unused fields (the columns of R57) are 0. -/
def Obligations.DecodeAcceptsExactlyLegalWords : Prop :=
  ∀ w : Word, (∃ i, decode w = .command i) ↔ LegalWord w

/-! The machine's step. -/

/-- R125: when the pending word decodes to a command and the engine has the turn, the step is exec of that command, on the state
with the turn taken and no bus response. The model's choice, not the spec's: that the engine has the turn when no turn is lined up
(log entry 2, a DESIGN CHOICE), and that the step leaves no response in resp (log entry 14, a DESIGN CHOICE). -/
def Obligations.StepExecutesPendingCommand : Prop :=
  ∀ (s : State) (i : Instr) (ts : List Turn), s.rstN = true → s.busy = true → decode s.cmd = .command i →
    (s.agenda = .engine :: ts ∨ (s.agenda = [] ∧ ts = [])) →
    step s = exec i { s with agenda := ts, resp := none }

/-- R59, R60, R134, R137: executing a word that is no legal word records ILLEGAL_CMD (code 1) with the word, clears BUSY and changes
nothing else of the block. The model's choice, not the spec's: that the turn is taken from the agenda (log entry 2, a DESIGN CHOICE),
and that the step leaves no response in resp (log entry 14, a DESIGN CHOICE). -/
def Obligations.IllegalWordRaisesIllegalCmd : Prop :=
  ∀ (s : State) (ts : List Turn), s.rstN = true → s.busy = true → ¬ LegalWord s.cmd → s.agenda = .engine :: ts →
    step s = .next { s with
      agenda := ts, resp := none, busy := false, err := true
      eovf := s.eovf || s.err
      errCode := if s.err then s.errCode else 1
      errInfo := if s.err then s.errInfo else s.cmd }

/-- R141, R122: no step stops the machine, whatever the state and the next turn. -/
def Obligations.StepAlwaysGoesOn : Prop :=
  ∀ s : State, GoesOn s

/-- R11, R101, R134: every step keeps the state well formed (legal parameters, memory and ring sizes, cursors on valid slots,
canonical DMEM, lost words that are unspecified DMEM words, a consistent error record) and the parameters as they are. -/
def Obligations.StepKeepsWellFormed : Prop :=
  ∀ s t : State, s.Wf → step s = .next t → t.Wf ∧ t.params = s.params

/-- The state after reset is well formed, for every legal choice of the parameters. -/
def Obligations.ResetIsWellFormed : Prop :=
  ∀ p : Params, p.Legal → (State.resetFor p).Wf

/-- R151, R16, R17: what power-on and the first reset leave, read through the bus locations. That nothing of DMEM is specified, and no
word of it lost, is power-on's (R33, R150: a later reset leaves DMEM as it is); that this one state is power-on and first reset
together is the model's choice (log entry 9, a DESIGN CHOICE). -/
def Obligations.ResetValues : Prop :=
  ∀ p : Params, p.Legal →
    let s := State.resetFor p
    (s.readLoc .id).1 = 0x4453505500010000 ∧
    (s.readLoc .param).1 = BitVec.ofNat 64 (p.log2Nmax + p.log2Dmem * 2 ^ 8 + p.firCap * 2 ^ 16 + p.nsec * 2 ^ 32) ∧
    (s.readLoc .ctrl).1 = 0 ∧ (s.readLoc .status).1 = 0 ∧
    (s.readLoc .cmd).1 = 0 ∧ (s.readLoc .errCode).1 = 0 ∧ (s.readLoc .errInfo).1 = 0 ∧
    (s.readLoc .xin).1 = 0 ∧ (s.readLoc .acc).1 = 0 ∧ (s.readLoc .rbdata).1 = 0 ∧
    (s.readLoc .firCfg).1 = 0 ∧ (s.readLoc .firCur).1 = 0 ∧
    (∀ i < p.firCap, (s.readLoc (.h i)).1 = 0 ∧ (s.readLoc (.firSlot i)).1 = 0) ∧
    (∀ k < p.nsec, (∀ c, (s.readLoc (.coef k c)).1 = 0) ∧ (∀ i < 3, (s.readLoc (.xhSlot k i)).1 = 0) ∧
      (∀ i < 2, (s.readLoc (.yhSlot k i)).1 = 0) ∧ (s.readLoc (.secCur k)).1 = 0) ∧
    (∀ a, Memory.read s.dmem a = none) ∧ s.lost = [] ∧ s.irq = false

/-- R123 says that a pending command ends eventually, and bounds nothing. In the model, while a command is pending and the environment
has finitely many turns lined up, BUSY is cleared after at most one step more than there are turns. The bound, and that the
engine is due when no turn is lined up, are the model's choice (log entry 2, a DESIGN CHOICE). -/
def Obligations.PendingCommandEnds : Prop :=
  ∀ s : State, s.rstN = true → s.busy = true →
    ∃ k t, k ≤ s.agenda.length + 1 ∧ Host.Core.run Sys2Proof.core k s = .next t ∧ t.busy = false

/-! Errors, completion and frames, over all commands. -/

/-- R138, R139, R137: of the causes that hold, the one with the lowest code is recorded, with the command word; BUSY is cleared and
nothing else changes. -/
def Obligations.LowestCauseIsRaised : Prop :=
  ∀ (i : Instr) (s : State) (c : ErrCode), s.HasCause i c → (∀ d, s.HasCause i d → c.code.toNat ≤ d.code.toNat) →
    exec i s = .next { s with
      busy := false, err := true
      eovf := s.eovf || s.err
      errCode := if s.err then s.errCode else c.code
      errInfo := if s.err then s.errInfo else s.cmd }

/-- R125, R139: a command no cause of an error holds for completes: DONE set, BUSY clear, the error record as it was. -/
def Obligations.CommandWithoutCauseCompletes : Prop :=
  ∀ (i : Instr) (s : State), (∀ c, ¬ s.HasCause i c) →
    ∃ t, exec i s = .next t ∧ t.done = true ∧ t.busy = false ∧ t.err = s.err ∧ t.eovf = s.eovf ∧
      t.errCode = s.errCode ∧ t.errInfo = s.errInfo

/-- R37, R98: what each command may change. No command writes CTRL, CMD, XIN, FIR_CFG, H or a section's coefficients; ACC only FIR,
IIR and SOS; RBDATA only RBRD; the FIR ring only FIR and RBWR, RBRD, RBCLR of ring 0; DMEM only the FFT unit's commands and VCMUL;
and no command ends the loss of a DMEM word (R153: only the host's write does, as log
entry 5, DEDUCED, reads it). -/
def Obligations.CommandsWriteOnlyTheirState : Prop :=
  ∀ (i : Instr) (s t : State), exec i s = .next t →
    t.params = s.params ∧ t.doneIe = s.doneIe ∧ t.errIe = s.errIe ∧ t.cmd = s.cmd ∧ t.xin = s.xin ∧ t.ntaps = s.ntaps ∧
    t.h = s.h ∧ t.lost = s.lost ∧ t.rstN = s.rstN ∧ t.agenda = s.agenda ∧ t.resp = s.resp ∧ t.secs.length = s.secs.length ∧
    (∀ k c, (t.sec k).coef c = (s.sec k).coef c) ∧
    ((∀ clr, i ≠ .fir clr) → (∀ clr k, i ≠ .iir clr k) → (∀ f n, i ≠ .sos f n) → t.acc = s.acc) ∧
    ((∀ id, i ≠ .rbrd id) → t.rbdata = s.rbdata) ∧
    ((∀ clr, i ≠ .fir clr) → i ≠ .rbwr 0 → i ≠ .rbrd 0 → i ≠ .rbclr 0 → t.fir = s.fir) ∧
    ((∀ clr k, i ≠ .iir clr k) → (∀ f n, i ≠ .sos f n) → (∀ id, i ≠ .rbwr id) → (∀ id, i ≠ .rbrd id) → (∀ id, i ≠ .rbclr id) →
      t.secs = s.secs) ∧
    ((∀ v b n, i ≠ .fft v b n) → (∀ b n, i ≠ .bitrev b n) → (∀ v b n k, i ≠ .stage v b n k) → (∀ b n, i ≠ .scale b n) →
      (∀ v p q k, i ≠ .bfly v p q k) → (∀ d e n, i ≠ .vcmul d e n) → t.dmem = s.dmem ∧ t.draws = s.draws)

/-- R127, R37: a command changes the word at no location outside VOLATILE, but STATUS, ERR_CODE and ERR_INFO. So a host read of such a
location gives the same word before and after the engine's step. -/
def Obligations.CommandsChangeOnlyVolatileLocations : Prop :=
  ∀ (i : Instr) (s t : State) (l : Loc), exec i s = .next t → l.isVolatile = false →
    l ≠ .status → l ≠ .errCode → l ≠ .errInfo → (t.readLoc l).1 = (s.readLoc l).1

/-- R98, R93-R99, R139: the frame of DMEM: every byte outside the entries a command writes reads as before. The entries are
base .. base+N-1 for FFT, BITREV, STAGE and SCALE, p and q for BFLY, dst .. dst+count-1 for VCMUL, and none for the others. R153, as
log entry 5 (DEDUCED) reads it: of those entries too the bytes of a lost word are as before: unspecified, until the host writes it. -/
def Obligations.DmemFrame : Prop :=
  ∀ (i : Instr) (s t : State), exec i s = .next t →
    (∀ a, (∀ e, Touches i e → ¬ inEntry e a) → Memory.read t.dmem a = Memory.read s.dmem a) ∧
    ∀ e im a, dmemAddr e im ∈ s.lost → dmemAddr e im ≤ a → a < dmemAddr e im + 8 → Memory.read t.dmem a = Memory.read s.dmem a

/-- R14: no command reads a flag: with any other values of DONE, ERR, EOVF, ERR_CODE, ERR_INFO and the interrupt enables, the next
state differs in those fields only. -/
def Obligations.CommandsReadNoFlag : Prop :=
  ∀ (i : Instr) (s t : State) (d e o di ei : Bool) (c : BitVec 8) (n : Word), exec i s = .next t →
    ∃ u, exec i { s with done := d, err := e, eovf := o, doneIe := di, errIe := ei, errCode := c, errInfo := n } = .next u ∧
      u = { t with
        done := u.done, err := u.err, eovf := u.eovf, doneIe := u.doneIe, errIe := u.errIe, errCode := u.errCode
        errInfo := u.errInfo }

/-- R126: the one NOP word is 0; NOP completes and changes nothing else. -/
def Obligations.NopOnlyCompletes : Prop :=
  (∀ w : Word, decode w = .command .nop ↔ w = 0) ∧
  ∀ s : State, exec .nop s = .next { s with done := true, busy := false }

/-! The FFT unit. -/

/-- R93: FFT reads the region in increasing order, and leaves in it FFT_ref of what it read (a lost word stays unspecified, R153 as
log entry 5, DEDUCED, reads it); it completes for every power of two up to NMAX and every region inside DMEM, specified or not. -/
def Obligations.FftWritesTheTransform : Prop :=
  ∀ (s : State) (inv : Bool) (base l : Nat), l ≤ s.params.log2Nmax → base + 2 ^ l ≤ s.params.dmemEntries →
    ∃ t, exec (.fft inv base (2 ^ l)) s = .next t ∧ t = { s with dmem := t.dmem, draws := t.draws, done := true, busy := false } ∧
      t.draws = (s.readRegion base (2 ^ l)).2.draws ∧
      ∀ i < 2 ^ l, ∃ z, (fftRef s.params inv (s.readRegion base (2 ^ l)).1)[i]? = some z ∧ Stored s t (base + i) z

/-- R48, R33, U4: a region of specified entries reads as their values in order and draws nothing; an entry whose two words are unspecified
draws two free values and nothing else, and whatever they are this holds (log entry 4). R153, U6: every read of a lost word is a draw
(log entry 5, DEDUCED). -/
def Obligations.EntriesReadTheirValuesOrDraw : Prop :=
  (∀ (s : State) (base n : Nat) (x : Nat → Cplx), (∀ i < n, s.entry? (base + i) = some (x i)) →
    s.readRegion base n = ((List.range n).map x, s)) ∧
  (∀ (s : State) (e : Nat), Memory.readWord s.dmem (dmemAddr e false) = none → Memory.readWord s.dmem (dmemAddr e true) = none →
    s.dread e = (⟨Config.freeWord s.draws, Config.freeWord (s.draws + 1)⟩, { s with draws := s.draws + 2 })) ∧
  (∀ (s : State) (a : Nat), s.LostOk → a ∈ s.lost →
    s.readDmem a = (Config.freeWord s.draws, { s with draws := s.draws + 1 }))

/-- R89: the transform is the recursion: with E and O the transforms of the even- and odd-indexed samples of a sequence of length
n = 2^(l+1), entries k and k + n/2 are the butterfly of E[k] and O[k] with the twiddle at k·(NMAX/n); one sample is itself; and the
inverse divides each entry by the length, once, at the top. -/
def Obligations.TransformIsTheRecursion : Prop :=
  ∀ (p : Params) (inv : Bool),
    (∀ z, recFft p inv 0 [z] = [z]) ∧
    (∀ (l : Nat) (x : Nat → Cplx) (k : Nat), k < 2 ^ l →
      let n := 2 ^ (l + 1)
      let es := recFft p inv l ((List.range (2 ^ l)).map (fun i => x (2 * i)))
      let os := recFft p inv l ((List.range (2 ^ l)).map (fun i => x (2 * i + 1)))
      let y := recFft p inv (l + 1) ((List.range n).map x)
      es.length = 2 ^ l ∧ os.length = 2 ^ l ∧ y.length = n ∧
      ∀ e ∈ es[k]?, ∀ o ∈ os[k]?,
        y[k]? = some (butterfly e o (twiddle p (k * (p.nmax / n)) inv)).1 ∧
        y[k + 2 ^ l]? = some (butterfly e o (twiddle p (k * (p.nmax / n)) inv)).2) ∧
    (∀ (l : Nat) (x : Nat → Cplx),
      fftRef p inv ((List.range (2 ^ l)).map x) =
        if inv then (recFft p inv l ((List.range (2 ^ l)).map x)).map (fun z => cdivn z (2 ^ l))
        else recFft p inv l ((List.range (2 ^ l)).map x))

/-- R85: bitrev_L(i) is below 2^L, its bit L-1-b is bit b of i, and it is its own inverse. -/
def Obligations.BitReversalIndex : Prop :=
  ∀ (l i : Nat), i < 2 ^ l →
    bitrev l i < 2 ^ l ∧ (∀ b < l, (bitrev l i).testBit (l - 1 - b) = i.testBit b) ∧ bitrev l (bitrev l i) = i

/-- R94, R86: BITREV moves what entry base + i read to entry base + bitrev_L(i), where a lost word stays unspecified (R153,
as log entry 5, DEDUCED, reads it). -/
def Obligations.BitrevPermutes : Prop :=
  ∀ (s : State) (base l : Nat), l ≤ s.params.log2Nmax → base + 2 ^ l ≤ s.params.dmemEntries →
    ∃ t, exec (.bitrev base (2 ^ l)) s = .next t ∧ t = { s with dmem := t.dmem, draws := t.draws, done := true, busy := false } ∧
      ∀ i < 2 ^ l, ∃ z, (s.readRegion base (2 ^ l)).1[i]? = some z ∧ Stored s t (base + bitrev l i) z

/-- R95, R88, R83: STAGE applies to each pair of entries (j + k, j + k + m/2) of a region the butterfly with the twiddle at
k·2^(LOG2_NMAX - s), m = 2^s; it never scales. Each pair whose entries are specified gets exactly these values; a
lost word, which is never specified in a well-formed state, would stay as it is (R153, log entry 5, DEDUCED). -/
def Obligations.StageAppliesButterflies : Prop :=
  ∀ (s : State) (inv : Bool) (base l st : Nat), l ≤ s.params.log2Nmax → base + 2 ^ l ≤ s.params.dmemEntries → 1 ≤ st → st ≤ l →
    ∃ t, exec (.stage inv base (2 ^ l) st) s = .next t ∧
      t = { s with dmem := t.dmem, draws := t.draws, done := true, busy := false } ∧
      ∀ b k x y, b < 2 ^ (l - st) → k < 2 ^ (st - 1) →
        s.entry? (base + b * 2 ^ st + k) = some x → s.entry? (base + b * 2 ^ st + k + 2 ^ (st - 1)) = some y →
        let r := butterfly x y (twiddle s.params (k * 2 ^ (s.params.log2Nmax - st)) inv)
        Stored s t (base + b * 2 ^ st + k) r.1 ∧ Stored s t (base + b * 2 ^ st + k + 2 ^ (st - 1)) r.2

/-- R96, R77: SCALE divides both parts of each entry of a region by its length 2^l as a binary64 value (sign 0, biased exponent 1023 + l,
fraction 0); each specified entry gets exactly the two quotients; a lost word, which is never specified in a well-formed state, would
stay as it is (R153, log entry 5, DEDUCED). -/
def Obligations.ScaleDividesEachEntry : Prop :=
  ∀ (s : State) (base l : Nat), s.params.Legal → l ≤ s.params.log2Nmax → base + 2 ^ l ≤ s.params.dmemEntries →
    let n : Word := BitVec.ofNat 64 ((1023 + l) * 2 ^ 52)
    ∃ t, exec (.scale base (2 ^ l)) s = .next t ∧ t = { s with dmem := t.dmem, draws := t.draws, done := true, busy := false } ∧
      ∀ i x, i < 2 ^ l → s.entry? (base + i) = some x → Stored s t (base + i) ⟨fdiv x.re n, fdiv x.im n⟩

/-- R97, R87, R74-R76: with x and y what entries p and q read, w the twiddle, and u = w·y, each product of parts rounded before their
difference or sum, BFLY leaves x + u in p and x - u in q, part by part, and needs no order of p and q; what it read may have been
drawn, and a lost word stays unspecified (R153, as log entry 5, DEDUCED, reads it). -/
def Obligations.BflyComputesOneButterfly : Prop :=
  ∀ (s : State) (inv : Bool) (p q t : Nat), p < s.params.dmemEntries → q < s.params.dmemEntries → p ≠ q → t < s.params.nmax / 2 →
    let x := s.dread p
    let y := x.2.dread q
    let w := twiddle s.params t inv
    let u : Cplx := ⟨fsub (fmul w.re y.1.re) (fmul w.im y.1.im), fadd (fmul w.re y.1.im) (fmul w.im y.1.re)⟩
    ∃ v, exec (.bfly inv p q t) s = .next v ∧
      v = { s with dmem := v.dmem, draws := y.2.draws, done := true, busy := false } ∧
      Stored s v p ⟨fadd x.1.re u.re, fadd x.1.im u.im⟩ ∧ Stored s v q ⟨fsub x.1.re u.re, fsub x.1.im u.im⟩

/-- R90, R63: the host sequence BITREV, STAGE 1, ..., STAGE L, and SCALE when inverse (FFTX, IFFTX) leaves FFT_ref of the region's previous
contents in the region, and in all of DMEM, bit for bit, what FFT leaves; for every region and every contents, unspecified words
included, but not words lost to an abandoned command, which read as a fresh draw between the commands (R153,
log entry 5, DEDUCED). That the two runs
agree on unspecified words rests on the model's count of draws: both draw the same values in the same order (log entry 4, where
U4 lets each read draw independently). -/
def Obligations.ScheduleEqualsTransform : Prop :=
  ∀ (s : State) (inv : Bool) (base l : Nat), l ≤ s.params.log2Nmax → base + 2 ^ l ≤ s.params.dmemEntries →
    (∀ i < 2 ^ l, ∀ im, dmemAddr (base + i) im ∉ s.lost) →
    ∃ t u, exec (.fft inv base (2 ^ l)) s = .next t ∧
      runSeq (.bitrev base (2 ^ l) :: ((List.range' 1 l).map (fun st => Instr.stage inv base (2 ^ l) st) ++
        (if inv then [.scale base (2 ^ l)] else []))) s = .next u ∧
      (∀ i < 2 ^ l, u.entry? (base + i) = (fftRef s.params inv (s.readRegion base (2 ^ l)).1)[i]?) ∧
      u = { t with dmem := u.dmem } ∧ ∀ a, Memory.read u.dmem a = Memory.read t.dmem a

/-- R91: the forward transform of the impulse (1, 0, 0, ...) is (1, +0.0) in every entry, exactly, when the ROM holds finite values. -/
def Obligations.ImpulseIsConstant : Prop :=
  ∀ (p : Params) (l : Nat), (∀ j < p.nmax / 2, isFinite (romEntry p j).re = true ∧ isFinite (romEntry p j).im = true) →
    l ≤ p.log2Nmax →
    fftRef p false (⟨0x3FF0000000000000, 0⟩ :: List.replicate (2 ^ l - 1) ⟨0, 0⟩) = List.replicate (2 ^ l) ⟨0x3FF0000000000000, 0⟩

/-- R83, R84: the twiddle address of stage s and index k is k·2^(LOG2_NMAX - s), below NMAX/2, and its angle 2π·t/NMAX is 2π·k/2^s; the
inverse twiddle is the ROM entry, the forward one inverts bit 63 of the sine; at t = 0 of the default ROM they are (1.0, +0.0) and
(1.0, -0.0). -/
def Obligations.TwiddleAddressAndDirection : Prop :=
  ∀ (p : Params),
    (∀ s k, 1 ≤ s → s ≤ p.log2Nmax → k < 2 ^ s / 2 →
      twAddr p s k = k * 2 ^ (p.log2Nmax - s) ∧ twAddr p s k * 2 ^ s = k * p.nmax ∧ twAddr p s k < p.nmax / 2) ∧
    (∀ t, twiddle p t true = romEntry p t ∧ (twiddle p t false).re = (romEntry p t).re ∧
      ∀ b < 64, (twiddle p t false).im.getLsbD b = ((romEntry p t).im.getLsbD b ^^ decide (b = 63))) ∧
    (p.twRom = none →
      twiddle p 0 true = ⟨0x3FF0000000000000, 0⟩ ∧ twiddle p 0 false = ⟨0x3FF0000000000000, 0x8000000000000000⟩)

/-- R82, its listed values, for every legal size of the default ROM. -/
def Obligations.RomListedValues : Prop :=
  ∀ p : Params, p.Legal → p.twRom = none →
    romEntry p 0 = ⟨0x3FF0000000000000, 0⟩ ∧
    (2 ≤ p.log2Nmax → romEntry p (p.nmax / 4) = ⟨0, 0x3FF0000000000000⟩) ∧
    (3 ≤ p.log2Nmax → romEntry p (p.nmax / 8) = ⟨0x3FE6A09E667F3BCD, 0x3FE6A09E667F3BCD⟩ ∧
      romEntry p (3 * p.nmax / 8) = ⟨0xBFE6A09E667F3BCD, 0x3FE6A09E667F3BCD⟩) ∧
    (p.log2Nmax = 10 → romEntry p 64 = ⟨0x3FED906BCF328D46, 0x3FD87DE2A6AEA963⟩)

/-- R82: every value of the default ROM is the binary64 number nearest to the exact cosine or sine of 2π·j/NMAX, strictly nearer than any
other finite binary64 number (so rounding to nearest, ties to even, gives it). The sign of a zero entry is RomListedValues'. -/
def Obligations.RomIsCorrectlyRounded : Prop :=
  ∀ (p : Params) (j : Nat) (im : Bool), p.Legal → p.twRom = none → j < p.nmax / 2 →
    let x : ℝ := if im then Real.sin (2 * Real.pi * j / p.nmax) else Real.cos (2 * Real.pi * j / p.nmax)
    ∃ (neg : Bool) (m : Nat), unpack (if im then (romEntry p j).im else (romEntry p j).re) = .fin neg m ∧
      ∀ (w : Word) (neg' : Bool) (m' : Nat), unpack w = .fin neg' m' → signedMag neg' m' ≠ signedMag neg m →
        |(signedMag neg m : ℝ) / 2 ^ 1074 - x| < |(signedMag neg' m' : ℝ) / 2 ^ 1074 - x|

/-! VCMUL. -/

/-- R99: VCMUL multiplies element by element in increasing order, the destination's own value first: element i is the product of what
entry dst + i held and what entry src + i holds by then, the result of an earlier element where the regions overlap so. -/
def Obligations.VcmulMultipliesAscending : Prop :=
  ∀ (s : State) (dst src count : Nat) (a b y : Nat → Cplx), s.LostOk →
    dst + count ≤ s.params.dmemEntries → src + count ≤ s.params.dmemEntries →
    (∀ i < count, s.entry? (dst + i) = some (a i)) → (∀ i < count, s.entry? (src + i) = some (b i)) →
    (∀ i < count, y i = cmul (a i) (if dst ≤ src + i ∧ src + i < dst + i then y (src + i - dst) else b i)) →
    ∃ t, exec (.vcmul dst src count) s = .next t ∧ t = { s with dmem := t.dmem, done := true, busy := false } ∧
      ∀ i < count, t.entry? (dst + i) = some (y i)

/-! Ring buffers. -/

/-- R107: ring id 0 is the FIR ring, 2s+1 is XH(s), 2s+2 is YH(s). -/
def Obligations.RingIdsNameRings : Prop :=
  ringOf 0 = .fir ∧ ∀ s, ringOf (2 * s + 1) = .xh s ∧ ringOf (2 * s + 2) = .yh s

/-- R109, R102: RBWR stores XIN, bit for bit, at the write cursor of the ring its id names and advances that cursor modulo the capacity;
the read cursor, every other ring and every coefficient stay. -/
def Obligations.RbwrWritesTheRing : Prop :=
  ∀ (s : State) (id : Nat), s.secs.length = s.params.nsec → id ≤ 2 * s.params.nsec →
    let r := s.ring (ringOf id)
    ∃ t, exec (.rbwr id) s = .next t ∧ t = { s with fir := t.fir, secs := t.secs, done := true, busy := false } ∧
      t.ring (ringOf id) = { slots := r.slots.set r.wc s.xin, wc := (r.wc + 1) % r.slots.length, rc := r.rc } ∧
      (∀ id', id' ≠ id → t.ring (ringOf id') = s.ring (ringOf id')) ∧
      (∀ k c, (t.sec k).coef c = (s.sec k).coef c)

/-- R110, R103: RBRD puts the value at the read cursor in RBDATA and advances that cursor modulo the capacity; the storage, the write
cursor, every other ring and every coefficient stay. -/
def Obligations.RbrdReadsTheRing : Prop :=
  ∀ (s : State) (id : Nat), s.secs.length = s.params.nsec → id ≤ 2 * s.params.nsec →
    let r := s.ring (ringOf id)
    ∃ t, exec (.rbrd id) s = .next t ∧ t = { s with fir := t.fir, secs := t.secs, rbdata := t.rbdata, done := true, busy := false } ∧
      t.rbdata = r.slots.getD r.rc 0 ∧
      t.ring (ringOf id) = { slots := r.slots, wc := r.wc, rc := (r.rc + 1) % r.slots.length } ∧
      (∀ id', id' ≠ id → t.ring (ringOf id') = s.ring (ringOf id')) ∧
      (∀ k c, (t.sec k).coef c = (s.sec k).coef c)

/-- R111, R105: RBCLR makes every slot of the ring +0.0 and both cursors 0 and keeps the capacity; every other ring, every coefficient and
RBDATA stay. -/
def Obligations.RbclrClearsTheRing : Prop :=
  ∀ (s : State) (id : Nat), s.secs.length = s.params.nsec → id ≤ 2 * s.params.nsec →
    let r := s.ring (ringOf id)
    ∃ t, exec (.rbclr id) s = .next t ∧ t = { s with fir := t.fir, secs := t.secs, done := true, busy := false } ∧
      t.ring (ringOf id) = { slots := List.replicate r.slots.length 0, wc := 0, rc := 0 } ∧
      (∀ id', id' ≠ id → t.ring (ringOf id') = s.ring (ringOf id')) ∧
      (∀ k c, (t.sec k).coef c = (s.sec k).coef c)

/-- R106: in a ring of capacity N whose cursors are equal, N writes and then N reads return the values in the order written, and leave both
cursors where they were. -/
def Obligations.RingIsFifo : Prop :=
  ∀ (r : RingBuf) (vs : List Word), r.slots.length = vs.length → r.wc = r.rc → r.wc < r.slots.length →
    (readMany vs.length (vs.foldl RingBuf.write r)).1 = vs ∧
    (readMany vs.length (vs.foldl RingBuf.write r)).2.wc = r.wc ∧
    (readMany vs.length (vs.foldl RingBuf.write r)).2.rc = r.rc

/-- R104: tap i is the i-th most recent value written, and +0.0 after fewer than i + 1 writes since the ring was cleared. -/
def Obligations.TapIsRecentHistory : Prop :=
  (∀ (r : RingBuf) (vs : List Word) (i : Nat), r.wc < r.slots.length → i < r.slots.length → i < vs.length →
    some ((vs.foldl RingBuf.write r).tap i) = vs[vs.length - 1 - i]?) ∧
  (∀ (cap : Nat) (vs : List Word) (i : Nat), i < cap → vs.length ≤ i →
    (vs.foldl RingBuf.write (RingBuf.cleared cap)).tap i = 0)

/-! The filters. -/

/-- R112, R114: FIR pushes XIN into the FIR ring, then adds fmul(H[i], RTap(FIR, i)) for i = 0, ..., NTAPS-1 one at a time to +0.0 (CLR = 1)
or to ACC (CLR = 0), and leaves the sum in ACC; nothing else changes. -/
def Obligations.FirAccumulatesTaps : Prop :=
  ∀ (s : State) (clr : Bool) (y : Nat → Word), 1 ≤ s.ntaps.toNat → s.ntaps.toNat ≤ s.params.firCap →
    let r := s.fir.write s.xin
    y 0 = (if clr then 0 else s.acc) →
    (∀ i < s.ntaps.toNat, y (i + 1) = fadd (y i) (fmul (s.h.getD i 0) (r.tap i))) →
    exec (.fir clr) s = .next { s with fir := r, acc := y s.ntaps.toNat, done := true, busy := false }

/-- R113: with H = 1, 0, ..., 0 and CLR = 1, FIR leaves XIN in ACC bit for bit when XIN is neither -0.0 nor a NaN and the older taps are finite;
-0.0 gives +0.0; a NaN gives the canonical NaN; an infinite older tap gives NaN. -/
def Obligations.FirPassThrough : Prop :=
  ∀ s : State, s.Sized → 1 ≤ s.ntaps.toNat → s.ntaps.toNat ≤ s.params.firCap → s.h.getD 0 0 = 0x3FF0000000000000 →
    (∀ i, 1 ≤ i → i < s.ntaps.toNat → s.h.getD i 0 = 0) →
    let r := s.fir.write s.xin
    ∃ t, exec (.fir true) s = .next t ∧
      ((∀ i, 1 ≤ i → i < s.ntaps.toNat → isFinite (r.tap i) = true) →
        (isNaN s.xin = false → s.xin ≠ 0x8000000000000000 → t.acc = s.xin) ∧ (s.xin = 0x8000000000000000 → t.acc = 0)) ∧
      (isNaN s.xin = true → t.acc = canonicalNaN) ∧
      (∀ i b, 1 ≤ i → i < s.ntaps.toNat → unpack (r.tap i) = .inf b → t.acc = canonicalNaN)

/-- R117, R115: IIR pushes XIN into XH(sec), adds the three feed-forward products and then the two feedback products, each rounded, to +0.0
(CLR = 1) or ACC (CLR = 0), pushes the sum into YH(sec) and leaves it in ACC; the gain is not applied and nothing else changes. -/
def Obligations.IirRunsOneBiquad : Prop :=
  ∀ (s : State) (clr : Bool) (k : Nat), k < s.params.nsec →
    let c := s.sec k
    let x := c.xh.write s.xin
    let y0 : Word := if clr then 0 else s.acc
    let y1 := fadd y0 (fmul c.b0 (x.tap 0))
    let y2 := fadd y1 (fmul c.b1 (x.tap 1))
    let y3 := fadd y2 (fmul c.b2 (x.tap 2))
    let y4 := fadd y3 (fmul c.a0 (c.yh.tap 0))
    let y := fadd y4 (fmul c.a1 (c.yh.tap 1))
    exec (.iir clr k) s = .next { s with
      acc := y, secs := s.secs.set k { c with xh := x, yh := c.yh.write y }, done := true, busy := false }

/-- R118: a section without feedback (A0 = A1 = +0.0) filters a stream as FIR with NTAPS = 3 and H = [B0, B1, B2] does, from cleared rings, bit
for bit as long as no output that has entered YH is infinite or NaN. -/
def Obligations.IirWithoutFeedbackIsFir : Prop :=
  ∀ (s : State) (k : Nat) (xs : List Word), s.Sized → k < s.params.nsec → 3 ≤ s.params.firCap →
    (s.sec k).a0 = 0 → (s.sec k).a1 = 0 → (s.sec k).xh = RingBuf.cleared 3 → (s.sec k).yh = RingBuf.cleared 2 →
    s.fir = RingBuf.cleared s.params.firCap → s.ntaps = 3 →
    s.h.getD 0 0 = (s.sec k).b0 → s.h.getD 1 0 = (s.sec k).b1 → s.h.getD 2 0 = (s.sec k).b2 →
    (∀ y ∈ (stream (.iir true k) xs s).dropLast, isFinite y = true) →
    stream (.iir true k) xs s = stream (.fir true) xs s

/-- R119: SOS runs the sections first .. first+count-1 in order, each from +0.0 on the previous section's gain-scaled output, XIN first; each
section's rings get its own input and pre-gain output; ACC gets the last scaled output; the incoming ACC is not read; nothing else changes. -/
def Obligations.SosCascadesSections : Prop :=
  ∀ (s : State) (first count : Nat) (v : Nat → Word), s.secs.length = s.params.nsec → 1 ≤ count →
    first + count ≤ s.params.nsec → v 0 = s.xin →
    (∀ j < count, v (j + 1) = fmul (biquad (s.sec (first + j)) (v j) 0).1 (s.sec (first + j)).g) →
    ∃ t, exec (.sos first count) s = .next t ∧
      t = { s with acc := t.acc, secs := t.secs, done := true, busy := false } ∧ t.acc = v count ∧
      (∀ j < count, t.sec (first + j) = (biquad (s.sec (first + j)) (v j) 0).2) ∧
      (∀ k, k < first ∨ first + count ≤ k → t.sec k = s.sec k)

/-- R121: SOS leaves the same ACC and the same rings as the host's loop of IIR.C, a product by the gain and a write of XIN. -/
def Obligations.SosEqualsHostSequence : Prop :=
  ∀ (s : State) (first count : Nat), s.secs.length = s.params.nsec → 1 ≤ count → first + count ≤ s.params.nsec →
    ∃ t u, exec (.sos first count) s = .next t ∧ hostCascade (List.range' first count) s = .next u ∧
      u = { t with xin := u.xin } ∧ t.xin = s.xin

/-- R120: the identity section leaves XIN in ACC bit for bit when XIN is neither -0.0 nor a NaN and the section's older history is finite; -0.0
gives +0.0; a NaN gives the canonical NaN. -/
def Obligations.SosIdentitySection : Prop :=
  ∀ (s : State) (k : Nat), s.Sized → k < s.params.nsec →
    let c := s.sec k
    c.b0 = 0x3FF0000000000000 → c.b1 = 0 → c.b2 = 0 → c.a0 = 0 → c.a1 = 0 → c.g = 0x3FF0000000000000 →
    (∀ v ∈ c.xh.slots, isFinite v = true) → (∀ v ∈ c.yh.slots, isFinite v = true) →
    ∃ t, exec (.sos k 1) s = .next t ∧
      (isNaN s.xin = false → s.xin ≠ 0x8000000000000000 → t.acc = s.xin) ∧
      (s.xin = 0x8000000000000000 → t.acc = 0) ∧
      (isNaN s.xin = true → t.acc = canonicalNaN)

/-! Arithmetic. -/

/-- R81 (a), (b): addition, multiplication and the complex product are commutative on bits. -/
def Obligations.ArithmeticCommutes : Prop :=
  (∀ a b, fadd a b = fadd b a) ∧ (∀ a b, fmul a b = fmul b a) ∧ ∀ a b, cmul a b = cmul b a

/-- R81 (c), (e): 1.0 is neutral for the product of every non-NaN, +0.0 for the sum of every non-NaN but -0.0, which gives +0.0. -/
def Obligations.ArithmeticIdentities : Prop :=
  ∀ x, isNaN x = false → fmul 0x3FF0000000000000 x = x ∧ (x ≠ 0x8000000000000000 → fadd x 0 = x) ∧ fadd 0x8000000000000000 0 = 0

/-- R81 (d), R70: division by 2^k, k at most 11, is exact when the quotient is normal or zero: the exponent drops by k, sign and fraction stay;
a zero keeps its sign; a NaN gives the canonical NaN. -/
def Obligations.DivisionByPowerOfTwoIsExact : Prop :=
  ∀ (x : Word) (k : Nat), k ≤ 11 →
    (expOf x ≠ 2047 → k < expOf x →
      expOf (fdiv x (ofNatF (2 ^ k))) = expOf x - k ∧ fracOf (fdiv x (ofNatF (2 ^ k))) = fracOf x ∧
      (fdiv x (ofNatF (2 ^ k))).msb = x.msb) ∧
    (x = 0 ∨ x = 0x8000000000000000 → fdiv x (ofNatF (2 ^ k)) = x) ∧
    (isNaN x = true → fdiv x (ofNatF (2 ^ k)) = canonicalNaN)

/-- R72, R67, R69: a NaN operand, signalling or quiet, gives the canonical NaN; so do opposite infinities added and zero times infinity;
and whenever a result is a NaN it is the canonical one. That zero by zero and infinity by infinity give it is not the spec's: the
block never divides so (R70), and the model takes IEEE 754's answer (log entry 12, PRESUMED). -/
def Obligations.NaNsAreCanonical : Prop :=
  canonicalNaN = 0x7FF8000000000000 ∧ ∀ a b : Word,
    (isNaN a = true ∨ isNaN b = true →
      fadd a b = canonicalNaN ∧ fsub a b = canonicalNaN ∧ fmul a b = canonicalNaN ∧ fdiv a b = canonicalNaN) ∧
    (∀ n, unpack a = .inf n → unpack b = .inf (!n) → fadd a b = canonicalNaN) ∧
    (∀ n n', unpack a = .inf n → unpack b = .fin n' 0 → fmul a b = canonicalNaN) ∧
    (∀ n n', unpack a = .inf n → unpack b = .inf n' → fdiv a b = canonicalNaN) ∧
    (∀ n n', unpack a = .fin n 0 → unpack b = .fin n' 0 → fdiv a b = canonicalNaN) ∧
    (isNaN (fadd a b) = true → fadd a b = canonicalNaN) ∧ (isNaN (fsub a b) = true → fsub a b = canonicalNaN) ∧
    (isNaN (fmul a b) = true → fmul a b = canonicalNaN) ∧ (isNaN (fdiv a b) = true → fdiv a b = canonicalNaN)

/-- R66-R71: every operation on finite operands gives the one rounding, roundMag, of its exact sum, product or quotient in units of
2^-1074, and on an exact zero the signed zero of R66; fsub is fadd of the operand with bit 63 inverted; an infinity with an operand
that makes no NaN gives the infinity or zero of IEEE 754. That one rounding has the sign asked for and is never a NaN; a finite result is nearest
to the exact num/den among all finite binary64 magnitudes, and of two equally near it has an even fraction; the result is infinite
exactly from half a unit above the largest finite number on. Rounding and signs are IEEE 754's as R66 takes them from general
knowledge; a division by zero or by an infinity is none the block makes (R70; log entry 12, PRESUMED). -/
def Obligations.RoundingIsNearestEven : Prop :=
  (∀ (neg : Bool) (num den : Nat), 0 < den →
    ((∃ m, unpack (roundMag neg num den) = .fin neg m) ∨ unpack (roundMag neg num den) = .inf neg) ∧
    (∀ m, unpack (roundMag neg num den) = .fin neg m →
      ∀ w m', unpack w = .fin neg m' →
        ((m * den : ℤ) - num).natAbs ≤ ((m' * den : ℤ) - num).natAbs ∧
        (m' ≠ m → ((m * den : ℤ) - num).natAbs = ((m' * den : ℤ) - num).natAbs → fracOf (roundMag neg num den) % 2 = 0)) ∧
    (unpack (roundMag neg num den) = .inf neg ↔ (2 ^ 54 - 1) * 2 ^ 2044 * den ≤ num)) ∧
  (∀ (a b : Word) (n n' : Bool) (m m' : Nat), unpack a = .fin n m → unpack b = .fin n' m' →
    let z : Int := (if n then -(m : Int) else m) + (if n' then -(m' : Int) else m')
    (z = 0 → fadd a b = signedZero (n && n')) ∧ (z ≠ 0 → fadd a b = roundMag (decide (z < 0)) z.natAbs 1) ∧
    (m = 0 ∨ m' = 0 → fmul a b = signedZero (n ^^ n')) ∧
    (m ≠ 0 → m' ≠ 0 → fmul a b = roundMag (n ^^ n') (m * m') (2 ^ 1074)) ∧
    (m = 0 → m' ≠ 0 → fdiv a b = signedZero (n ^^ n')) ∧
    (m ≠ 0 → m' ≠ 0 → fdiv a b = roundMag (n ^^ n') (m * 2 ^ 1074) m') ∧
    (m ≠ 0 → m' = 0 → fdiv a b = signedInf (n ^^ n'))) ∧
  (∀ a b : Word, fsub a b = fadd a (b ^^^ 0x8000000000000000)) ∧
  (∀ (a b : Word) (n n' : Bool), unpack a = .inf n →
    (unpack b = .inf n → fadd a b = signedInf n) ∧
    (unpack b = .inf n' → fmul a b = signedInf (n ^^ n')) ∧
    (∀ m', unpack b = .fin n' m' →
      fadd a b = signedInf n ∧ fadd b a = signedInf n ∧
      (m' ≠ 0 → fmul a b = signedInf (n ^^ n') ∧ fmul b a = signedInf (n' ^^ n)) ∧
      fdiv a b = signedInf (n ^^ n') ∧ fdiv b a = signedZero (n' ^^ n)))

/-! The host's accesses. -/

/-- R39, R15, R30-R34, R45: the address map. An address is mapped to a location exactly when the location is in the implemented part of its
window and the address is its own. -/
def Obligations.AddressMap : Prop :=
  ∀ (p : Params) (a : Nat) (l : Loc), p.Legal → (locate p a = some l ↔ l.Implemented p ∧ a = l.addr)

/-- R124: a write to CMD while BUSY = 0 makes the word pending; while BUSY = 1 it is dropped and CMD_OVERRUN (7) is recorded with the word. Either
way the response is a normal acknowledge and nothing else changes. The model's choice, not the spec's: that the turn is taken from the
agenda (log entry 2) and that the acknowledge is resp with no data (log entry 14), both DESIGN CHOICE. -/
def Obligations.CmdWriteIssues : Prop :=
  ∀ (s : State) (ts : List Turn) (v : Word), s.rstN = true → s.agenda = .host (.write 0x020 v) :: ts →
    (s.busy = false → step s = .next { s with agenda := ts, resp := some ⟨false, none⟩, cmd := v, busy := true }) ∧
    (s.busy = true → step s = .next { s with
      agenda := ts, resp := some ⟨false, none⟩, err := true
      eovf := s.eovf || s.err
      errCode := if s.err then s.errCode else 7
      errInfo := if s.err then s.errInfo else v })

/-- R127, R46: a host read. An address that is misaligned or unmapped answers bus_err with data 0; a VOLATILE location while BUSY = 1 answers a
free value; any other answers the word there, in a well-formed block the one of R16-R34: STATUS, CTRL, the cursor words and the others
bit by bit, the slots, the coefficients, the ROM. No read changes the block: only the port outputs (resp, log entry 14), the
turn and the draws move, and of the draws one for an unspecified DMEM word. -/
def Obligations.HostReadRule : Prop :=
  ∀ (s : State) (ts : List Turn) (a : Addr), s.rstN = true → s.agenda = .host (.read a) :: ts →
    (locate s.params a.toNat = none → step s = .next { s with agenda := ts, resp := some ⟨true, some 0⟩ }) ∧
    (∀ l, locate s.params a.toNat = some l → s.busy = true → l.isVolatile = true →
      step s = .next { s with agenda := ts, resp := some ⟨false, some (Config.freeWord s.draws)⟩, draws := s.draws + 1 }) ∧
    (∀ l, locate s.params a.toNat = some l → s.busy = false ∨ l.isVolatile = false →
      step s = .next { s with
        agenda := ts, resp := some ⟨false, some (s.readLoc l).1⟩, draws := (s.readLoc l).2.draws } ∧
      (s.params.Legal → s.Sized → s.Shows l (s.readLoc l).1) ∧
      (s.readLoc l).2.draws = s.draws + (match l with
        | .dmem e im => if Memory.readWord s.dmem (dmemAddr e im) = none then 1 else 0
        | _ => 0))

/-- R46: a write to an address that is misaligned, unmapped or read-only answers bus_err and changes nothing of the block. -/
def Obligations.RefusedWriteChangesNothing : Prop :=
  ∀ (s : State) (ts : List Turn) (a : Addr) (v : Word), s.rstN = true → s.agenda = .host (.write a v) :: ts →
    (∀ l, locate s.params a.toNat = some l → l.readOnly = true) →
    step s = .next { s with agenda := ts, resp := some ⟨true, none⟩ }

/-- R128, R155: a write to a writable location other than CMD, CTRL and STATUS: while BUSY = 1 it is ignored and BUSY_WRITE (8) is recorded with
the byte address; while BUSY = 0 the word is stored. -/
def Obligations.DataWriteRule : Prop :=
  ∀ (s : State) (ts : List Turn) (a : Addr) (v : Word) (l : Loc), s.rstN = true → s.agenda = .host (.write a v) :: ts →
    locate s.params a.toNat = some l → l.readOnly = false → l ≠ .cmd → l ≠ .ctrl → l ≠ .status →
    (s.busy = true → step s = .next { s with
      agenda := ts, resp := some ⟨false, none⟩, err := true
      eovf := s.eovf || s.err
      errCode := if s.err then s.errCode else 8
      errInfo := if s.err then s.errInfo else BitVec.ofNat 64 a.toNat }) ∧
    (s.busy = false → step s = .next { s.storeLoc l v with agenda := ts, resp := some ⟨false, none⟩ })

/-- R128, R12: a stored word reads back, 64 bits of it (FIR_CFG: the low 16), and no other location changes: the block has no aliases.
R153: the host's store of a DMEM word ends its loss, and no other word's (log entry 5, DEDUCED). -/
def Obligations.StoredWordReadsBack : Prop :=
  ∀ (s : State) (l : Loc) (v : Word), s.Sized → l.Implemented s.params → l.readOnly = false → l ≠ .cmd → l ≠ .ctrl → l ≠ .status →
    ((s.storeLoc l v).readLoc l).1 = (if l = .firCfg then BitVec.ofNat 64 (v.toNat % 2 ^ 16) else v) ∧
    (∀ l', l'.Implemented s.params → l' ≠ l → ((s.storeLoc l v).readLoc l').1 = (s.readLoc l').1) ∧
    ∀ a, a ∈ (s.storeLoc l v).lost ↔ a ∈ s.lost ∧ ∀ e im, l = .dmem e im → a ≠ dmemAddr e im

/-- R19: a write to STATUS clears each of DONE, ERR and EOVF whose written bit is 1, ignores the other bits, and clearing ERR zeroes ERR_CODE and
ERR_INFO; it is honoured also while BUSY = 1. -/
def Obligations.StatusWriteClears : Prop :=
  ∀ (s : State) (ts : List Turn) (v : Word), s.rstN = true → s.agenda = .host (.write 0x018 v) :: ts →
    step s = .next { s with
      agenda := ts, resp := some ⟨false, none⟩
      done := s.done && !v.getLsbD 1
      err := s.err && !v.getLsbD 2
      eovf := s.eovf && !v.getLsbD 3
      errCode := if v.getLsbD 2 then 0 else s.errCode
      errInfo := if v.getLsbD 2 then 0 else s.errInfo }

/-- R18: a write to CTRL with bit 2 clear sets DONE_IE and ERR_IE from bits 0 and 1 and ignores the rest; with the enables, irq follows STATUS at
once (R140). -/
def Obligations.CtrlWriteSetsEnables : Prop :=
  ∀ (s : State) (ts : List Turn) (v : Word), s.rstN = true → s.agenda = .host (.write 0x010 v) :: ts → v.getLsbD 2 = false →
    ∃ t, step s = .next t ∧
      t = { s with agenda := ts, resp := some ⟨false, none⟩, doneIe := v.getLsbD 0, errIe := v.getLsbD 1 } ∧
      t.irq = ((s.done && v.getLsbD 0) || (s.err && v.getLsbD 1))

/-- R152, R153: a write to CTRL with bit 2 set gives every state its reset value, whatever the other bits are and also while BUSY = 1, but DMEM,
which keeps its contents; only the entries a pending command that passes its checks could write become unspecified, their words until
the host writes them, and that command never executes: R153 as log entries 5 and 7 (both DEDUCED) read it. That the turn is taken from
the agenda, and the acknowledge is resp with no data, are the model's choice (log entries 2 and 14, DESIGN CHOICE). -/
def Obligations.SoftResetRestoresAndAbandons : Prop :=
  ∀ (s : State) (ts : List Turn) (v : Word), s.rstN = true → s.agenda = .host (.write 0x010 v) :: ts → v.getLsbD 2 = true →
    ∃ t, step s = .next t ∧
      t = { State.resetFor s.params with
        dmem := t.dmem, lost := t.lost, agenda := ts, resp := some ⟨false, none⟩, draws := s.draws } ∧
      ResetDmem s t

/-- R150, R153: a clock edge with rst_n = 0, out of reset or held in it, gives every state its reset value but DMEM, which keeps its
contents less the entries that a pending command could write, as a soft reset does (R153 as log
entries 5 and 7, both DEDUCED, read it). While rst_n = 0 the block answers no host
access; the edge with rst_n = 1 leaves reset and changes nothing else. The model's choice, not the spec's (log entry 8, a DESIGN
CHOICE, and U8): in reset the host's accesses wait, the next clock edge is taken ahead of them, and with no edge coming a step does
nothing. -/
def Obligations.HardResetAndRelease : Prop :=
  ∀ (s : State) (ts : List Turn),
    (s.agenda = .rstEdge false :: ts →
      ∃ t, step s = .next t ∧
        t = { State.resetFor s.params with
          dmem := t.dmem, lost := t.lost, agenda := ts, draws := s.draws, rstN := false } ∧
        ResetDmem s t) ∧
    (s.rstN = false → (∀ level, .rstEdge level ∉ s.agenda) → step s = .next { s with resp := none }) ∧
    (∀ ws : List Turn, s.rstN = false → (∀ level, .rstEdge level ∉ ws) →
      (s.agenda = ws ++ .rstEdge true :: ts →
        step s = .next { s with resp := none, rstN := true, agenda := ws ++ ts }) ∧
      (s.agenda = ws ++ .rstEdge false :: ts →
        ∃ t, step s = .next t ∧
          t = { State.resetFor s.params with
            dmem := t.dmem, lost := t.lost, agenda := ws ++ ts, draws := s.draws, rstN := false } ∧
          ResetDmem s t))
end

