-- ==== Sys2Proof/Laws/Decode.lean ====
section
/-! SUPPORT. The algebra of the command word: packing is injective, AND works field by field, and each field reads back. -/

namespace Sys2Proof

theorem packWord_and (o o' : BitVec 8) (i i' c c' : Bool) (r r' : BitVec 6) (a a' b b' d d' : BitVec 16) :
    packWord o i c r a b d &&& packWord o' i' c' r' a' b' d' =
      packWord (o &&& o') (i && i') (c && c') (r &&& r') (a &&& a') (b &&& b') (d &&& d') := by
  unfold packWord
  rw [BitVec.and_append, BitVec.and_append, BitVec.and_append, BitVec.and_append, BitVec.and_append, BitVec.and_append]
  congr 2
  · congr 1
    cases c <;> cases c' <;> rfl
  · cases i <;> cases i' <;> rfl

section fields

variable (o : BitVec 8) (i c : Bool) (r : BitVec 6) (a b d : BitVec 16)

@[simp] theorem opcOf_packWord : opcOf (packWord o i c r a b d) = o := by
  apply BitVec.eq_of_getLsbD_eq
  intro k hk
  simp only [opcOf, packWord, BitVec.getLsbD_extractLsb', hk, decide_true, Bool.true_and, BitVec.getLsbD_append, Nat.zero_add, if_true]

@[simp] theorem invOf_packWord : invOf (packWord o i c r a b d) = i := by
  simp only [invOf, packWord, BitVec.getLsbD_append]
  simp

@[simp] theorem clrOf_packWord : clrOf (packWord o i c r a b d) = c := by
  simp only [clrOf, packWord, BitVec.getLsbD_append]
  simp

@[simp] theorem reservedOf_packWord : reservedOf (packWord o i c r a b d) = r := by
  apply BitVec.eq_of_getLsbD_eq
  intro k hk
  have h1 : ¬ 10 + k < 8 := by omega
  have h2 : ¬ 10 + k - 8 < 1 := by omega
  have h3 : ¬ 10 + k - 8 - 1 < 1 := by omega
  have h4 : 10 + k - 8 - 1 - 1 < 6 := by omega
  have h5 : 10 + k - 8 - 1 - 1 = k := by omega
  simp only [reservedOf, packWord, BitVec.getLsbD_extractLsb', hk, decide_true, Bool.true_and, BitVec.getLsbD_append, h1, h2,
    h3, h4, if_false, if_true]
  simp [h5, hk]

@[simp] theorem faOf_packWord : faOf (packWord o i c r a b d) = a.toNat := by
  unfold faOf
  congr 1
  apply BitVec.eq_of_getLsbD_eq
  intro k hk
  have h1 : ¬ 16 + k < 8 := by omega
  have h2 : ¬ 16 + k - 8 < 1 := by omega
  have h3 : ¬ 16 + k - 8 - 1 < 1 := by omega
  have h4 : ¬ 16 + k - 8 - 1 - 1 < 6 := by omega
  have h5 : 16 + k - 8 - 1 - 1 - 6 = k := by omega
  simp only [packWord, BitVec.getLsbD_extractLsb', hk, decide_true, Bool.true_and, BitVec.getLsbD_append, h1, h2, h3, h4,
    if_false, h5, if_true]

@[simp] theorem fbOf_packWord : fbOf (packWord o i c r a b d) = b.toNat := by
  unfold fbOf
  congr 1
  apply BitVec.eq_of_getLsbD_eq
  intro k hk
  have h1 : ¬ 32 + k < 8 := by omega
  have h2 : ¬ 32 + k - 8 < 1 := by omega
  have h3 : ¬ 32 + k - 8 - 1 < 1 := by omega
  have h4 : ¬ 32 + k - 8 - 1 - 1 < 6 := by omega
  have h5 : ¬ 32 + k - 8 - 1 - 1 - 6 < 16 := by omega
  have h6 : 32 + k - 8 - 1 - 1 - 6 - 16 = k := by omega
  simp only [packWord, BitVec.getLsbD_extractLsb', hk, decide_true, Bool.true_and, BitVec.getLsbD_append, h1, h2, h3, h4, h5,
    if_false, h6, if_true]

@[simp] theorem fcOf_packWord : fcOf (packWord o i c r a b d) = d.toNat := by
  unfold fcOf
  congr 1
  apply BitVec.eq_of_getLsbD_eq
  intro k hk
  have h1 : ¬ 48 + k < 8 := by omega
  have h2 : ¬ 48 + k - 8 < 1 := by omega
  have h3 : ¬ 48 + k - 8 - 1 < 1 := by omega
  have h4 : ¬ 48 + k - 8 - 1 - 1 < 6 := by omega
  have h5 : ¬ 48 + k - 8 - 1 - 1 - 6 < 16 := by omega
  have h6 : ¬ 48 + k - 8 - 1 - 1 - 6 - 16 < 16 := by omega
  have h7 : 48 + k - 8 - 1 - 1 - 6 - 16 - 16 = k := by omega
  simp only [packWord, BitVec.getLsbD_extractLsb', hk, decide_true, Bool.true_and, BitVec.getLsbD_append, h1, h2, h3, h4, h5,
    h6, if_false, h7]

end fields

/-- Two words of the same fields are the same, and only those. -/
theorem packWord_inj (o o' : BitVec 8) (i i' c c' : Bool) (r r' : BitVec 6) (a a' b b' d d' : BitVec 16) :
    packWord o i c r a b d = packWord o' i' c' r' a' b' d' ↔
      o = o' ∧ i = i' ∧ c = c' ∧ r = r' ∧ a = a' ∧ b = b' ∧ d = d' := by
  constructor
  · intro h
    have ho := congrArg opcOf h
    have hi := congrArg invOf h
    have hc := congrArg clrOf h
    have hr := congrArg reservedOf h
    have ha := congrArg faOf h
    have hb := congrArg fbOf h
    have hd := congrArg fcOf h
    simp only [opcOf_packWord, invOf_packWord, clrOf_packWord, reservedOf_packWord, faOf_packWord, fbOf_packWord,
      fcOf_packWord] at ho hi hc hr ha hb hd
    exact ⟨ho, hi, hc, hr, BitVec.eq_of_toNat_eq ha, BitVec.eq_of_toNat_eq hb, BitVec.eq_of_toNat_eq hd⟩
  · rintro ⟨rfl, rfl, rfl, rfl, rfl, rfl, rfl⟩
    rfl

/-- Every word is the packing of its fields (R55). -/
theorem packWord_fields (w : Word) :
    packWord (opcOf w) (invOf w) (clrOf w) (reservedOf w) (w.extractLsb' 16 16) (w.extractLsb' 32 16) (w.extractLsb' 48 16) = w := by
  apply BitVec.eq_of_getLsbD_eq
  intro k hk
  simp only [packWord, opcOf, invOf, clrOf, reservedOf, BitVec.getLsbD_append, BitVec.getLsbD_extractLsb', BitVec.getLsbD_ofBool]
  by_cases h1 : k < 8
  · simp [h1]
  by_cases h2 : k < 9
  · obtain rfl : k = 8 := by omega
    simp
  by_cases h3 : k < 10
  · obtain rfl : k = 9 := by omega
    simp
  by_cases h4 : k < 16
  · have e2 : ¬ k - 8 < 1 := by omega
    have e3 : ¬ k - 8 - 1 < 1 := by omega
    have e4 : k - 8 - 1 - 1 < 6 := by omega
    have e5 : 10 + (k - 8 - 1 - 1) = k := by omega
    simp [h1, e2, e3, e4, e5]
  by_cases h5 : k < 32
  · have e2 : ¬ k - 8 < 1 := by omega
    have e3 : ¬ k - 8 - 1 < 1 := by omega
    have e4 : ¬ k - 8 - 1 - 1 < 6 := by omega
    have e5 : k - 8 - 1 - 1 - 6 < 16 := by omega
    have e6 : 16 + (k - 8 - 1 - 1 - 6) = k := by omega
    simp only [h1, e2, e3, e4, e5, e6, if_false, if_true, decide_true, Bool.true_and]
  by_cases h6 : k < 48
  · have e2 : ¬ k - 8 < 1 := by omega
    have e3 : ¬ k - 8 - 1 < 1 := by omega
    have e4 : ¬ k - 8 - 1 - 1 < 6 := by omega
    have e5 : ¬ k - 8 - 1 - 1 - 6 < 16 := by omega
    have e6 : k - 8 - 1 - 1 - 6 - 16 < 16 := by omega
    have e7 : 32 + (k - 8 - 1 - 1 - 6 - 16) = k := by omega
    simp only [h1, e2, e3, e4, e5, e6, e7, if_false, if_true, decide_true, Bool.true_and]
  · have e2 : ¬ k - 8 < 1 := by omega
    have e3 : ¬ k - 8 - 1 < 1 := by omega
    have e4 : ¬ k - 8 - 1 - 1 < 6 := by omega
    have e5 : ¬ k - 8 - 1 - 1 - 6 < 16 := by omega
    have e6 : ¬ k - 8 - 1 - 1 - 6 - 16 < 16 := by omega
    have e8 : k - 8 - 1 - 1 - 6 - 16 - 16 < 16 := by omega
    have e7 : 48 + (k - 8 - 1 - 1 - 6 - 16 - 16) = k := by omega
    simp only [h1, e2, e3, e4, e5, e6, e7, e8, if_false, decide_true, Bool.true_and]

/-! Decoding a packed word, field by field: the rows of R58 are the unused-field columns of R57. -/

/-- Decoding by a list of rows. -/
def decodeIn (rows : List OpRow) (w : Word) : Decoded :=
  match rows.find? (fun r => r.hits w) with
  | some r => .command (r.make w)
  | none => .illegal (whyIllegal w)

/-- One row, its pattern's opcode `op` and its mask split into fields. -/
theorem decodeIn_row {pat mask : Word} {make : Word → Instr} (rs : List OpRow) (op : BitVec 8) (mi mc : Bool) (ma mb md : BitVec 16)
    (hp : pat = packWord op false false 0 0 0 0) (hm : mask = packWord 0xFF mi mc 0x3F ma mb md)
    (o : BitVec 8) (i c : Bool) (r : BitVec 6) (a b d : BitVec 16) :
    decodeIn (⟨pat, mask, make⟩ :: rs) (packWord o i c r a b d) =
      if o = op ∧ (i && mi) = false ∧ (c && mc) = false ∧ r = 0 ∧ a &&& ma = 0 ∧ b &&& mb = 0 ∧ d &&& md = 0
      then .command (make (packWord o i c r a b d)) else decodeIn rs (packWord o i c r a b d) := by
  have h : OpRow.hits ⟨pat, mask, make⟩ (packWord o i c r a b d) =
      decide (o = op ∧ (i && mi) = false ∧ (c && mc) = false ∧ r = 0 ∧ a &&& ma = 0 ∧ b &&& mb = 0 ∧ d &&& md = 0) := by
    subst hp hm
    rw [OpRow.hits, packWord_and, Bool.eq_iff_iff, beq_iff_eq, packWord_inj, decide_eq_true_eq,
      show o &&& 0xFF = o from BitVec.and_allOnes, show r &&& 0x3F = r from BitVec.and_allOnes]
  unfold decodeIn
  rw [List.find?_cons, h]
  split_ifs with hc
  · rw [decide_eq_true hc]
  · rw [decide_eq_false hc]

theorem and_ones16 (x : BitVec 16) : x &&& 0xFFFF = x := BitVec.and_allOnes

theorem and_zero16 (x : BitVec 16) : x &&& 0 = 0 := BitVec.and_zero

/-- What each word decodes to (R57, R59, R61). -/
theorem decode_packWord (o : BitVec 8) (i c : Bool) (r : BitVec 6) (a b d : BitVec 16) :
    decode (packWord o i c r a b d) =
      if o = 0x00 ∧ i = false ∧ c = false ∧ r = 0 ∧ a = 0 ∧ b = 0 ∧ d = 0 then .command .nop
      else if o = 0x01 ∧ c = false ∧ r = 0 ∧ d = 0 then .command (.fft i a.toNat b.toNat)
      else if o = 0x02 ∧ i = false ∧ c = false ∧ r = 0 ∧ d = 0 then .command (.bitrev a.toNat b.toNat)
      else if o = 0x03 ∧ c = false ∧ r = 0 then .command (.stage i a.toNat b.toNat d.toNat)
      else if o = 0x04 ∧ i = false ∧ c = false ∧ r = 0 ∧ d = 0 then .command (.scale a.toNat b.toNat)
      else if o = 0x05 ∧ c = false ∧ r = 0 then .command (.bfly i a.toNat b.toNat d.toNat)
      else if o = 0x06 ∧ i = false ∧ c = false ∧ r = 0 then .command (.vcmul a.toNat b.toNat d.toNat)
      else if o = 0x08 ∧ i = false ∧ r = 0 ∧ a = 0 ∧ b = 0 ∧ d = 0 then .command (.fir c)
      else if o = 0x09 ∧ i = false ∧ r = 0 ∧ b = 0 ∧ d = 0 then .command (.iir c a.toNat)
      else if o = 0x0A ∧ i = false ∧ c = false ∧ r = 0 ∧ d = 0 then .command (.sos a.toNat b.toNat)
      else if o = 0x0C ∧ i = false ∧ c = false ∧ r = 0 ∧ b = 0 ∧ d = 0 then .command (.rbwr a.toNat)
      else if o = 0x0D ∧ i = false ∧ c = false ∧ r = 0 ∧ b = 0 ∧ d = 0 then .command (.rbrd a.toNat)
      else if o = 0x0E ∧ i = false ∧ c = false ∧ r = 0 ∧ b = 0 ∧ d = 0 then .command (.rbclr a.toNat)
      else .illegal (whyIllegal (packWord o i c r a b d)) := by
  show decodeIn opRows _ = _
  unfold opRows
  rw [decodeIn_row _ 0x00 true true 0xFFFF 0xFFFF 0xFFFF (by decide) (by decide),
    decodeIn_row _ 0x01 false true 0 0 0xFFFF (by decide) (by decide),
    decodeIn_row _ 0x02 true true 0 0 0xFFFF (by decide) (by decide),
    decodeIn_row _ 0x03 false true 0 0 0 (by decide) (by decide),
    decodeIn_row _ 0x04 true true 0 0 0xFFFF (by decide) (by decide),
    decodeIn_row _ 0x05 false true 0 0 0 (by decide) (by decide),
    decodeIn_row _ 0x06 true true 0 0 0 (by decide) (by decide),
    decodeIn_row _ 0x08 true false 0xFFFF 0xFFFF 0xFFFF (by decide) (by decide),
    decodeIn_row _ 0x09 true false 0 0xFFFF 0xFFFF (by decide) (by decide),
    decodeIn_row _ 0x0A true true 0 0 0xFFFF (by decide) (by decide),
    decodeIn_row _ 0x0C true true 0 0xFFFF 0xFFFF (by decide) (by decide),
    decodeIn_row _ 0x0D true true 0 0xFFFF 0xFFFF (by decide) (by decide),
    decodeIn_row _ 0x0E true true 0 0xFFFF 0xFFFF (by decide) (by decide),
    show decodeIn [] (packWord o i c r a b d) = .illegal (whyIllegal (packWord o i c r a b d)) from rfl]
  simp only [and_ones16, and_zero16, Bool.and_true, Bool.and_false, true_and, and_true, invOf_packWord, clrOf_packWord,
    faOf_packWord, fbOf_packWord, fcOf_packWord]

end Sys2Proof
end

