-- ==== Sys2Proof/Laws/Memory.lean ====
section
/-! SUPPORT. The laws of the byte memory: canonical form is kept, a read after a write, and the same for 64-bit words. -/

namespace Sys2Proof.Machine

open Sys2Proof

/-! Bytes. -/

theorem Memory.wf_cons (c : Host.Cell) (m : List Host.Cell) :
    Memory.wf (c :: m) = true ↔ (∀ d ∈ m, c.1 < d.1) ∧ Memory.wf m = true := by
  induction m generalizing c with
  | nil => simp [Memory.wf]
  | cons d m ih =>
    simp only [Memory.wf, Bool.and_eq_true, decide_eq_true_eq, List.mem_cons, forall_eq_or_imp]
    constructor
    · rintro ⟨hcd, hm⟩
      exact ⟨⟨hcd, fun e he => lt_trans hcd (((ih d).mp hm).1 e he)⟩, hm⟩
    · rintro ⟨⟨hcd, -⟩, hm⟩
      exact ⟨hcd, hm⟩

theorem Memory.read_write_same (m : List Host.Cell) (a : Nat) (b : Byte) :
    Memory.read (Memory.write m a b) a = some b := by
  induction m with
  | nil => simp [Memory.write, Memory.read]
  | cons c m ih =>
    unfold Memory.write
    split
    · simp [Memory.read]
    · split
      · simp [Memory.read]
      · rename_i h1 h2
        simp [Memory.read, ih, show c.1 ≠ a from fun h => h2 h.symm]

theorem Memory.read_write_other (m : List Host.Cell) {a a' : Nat} (b : Byte) (h : a' ≠ a) :
    Memory.read (Memory.write m a b) a' = Memory.read m a' := by
  induction m with
  | nil => simp [Memory.write, Memory.read, Ne.symm h]
  | cons c m ih =>
    unfold Memory.write
    split
    · simp [Memory.read, Ne.symm h]
    · split
      · rename_i h1 h2
        simp [Memory.read, Ne.symm h, ← h2]
      · simp [Memory.read, ih]

theorem Memory.mem_write {m : List Host.Cell} {a : Nat} {b : Byte} {c : Host.Cell}
    (h : c ∈ Memory.write m a b) : c = (a, b) ∨ c ∈ m := by
  induction m with
  | nil => simpa [Memory.write] using h
  | cons d m ih =>
    unfold Memory.write at h
    split at h
    · simpa using h
    · split at h
      · simp only [List.mem_cons] at h ⊢
        tauto
      · simp only [List.mem_cons] at h ⊢
        rcases h with h | h
        · exact .inr (.inl h)
        · exact (ih h).imp_right .inr

theorem Memory.wf_write {m : List Host.Cell} (a : Nat) (b : Byte) (h : Memory.wf m = true) :
    Memory.wf (Memory.write m a b) = true := by
  induction m with
  | nil => simp [Memory.write, Memory.wf]
  | cons c m ih =>
    obtain ⟨hlt, hm⟩ := (Memory.wf_cons c m).mp h
    unfold Memory.write
    split
    · rename_i hac
      refine (Memory.wf_cons _ _).mpr ⟨fun d hd => ?_, h⟩
      rcases List.mem_cons.mp hd with rfl | hd
      · exact hac
      · exact lt_trans hac (hlt d hd)
    · split
      · rename_i hac
        exact (Memory.wf_cons _ _).mpr ⟨fun d hd => hac ▸ hlt d hd, hm⟩
      · rename_i h1 h2
        refine (Memory.wf_cons _ _).mpr ⟨fun d hd => ?_, ih hm⟩
        rcases Memory.mem_write hd with rfl | hd
        · show c.1 < a
          omega
        · exact hlt d hd

theorem Memory.wf_filter {m : List Host.Cell} (f : Host.Cell → Bool) (h : Memory.wf m = true) :
    Memory.wf (m.filter f) = true := by
  induction m with
  | nil => simp [Memory.wf]
  | cons c m ih =>
    obtain ⟨hlt, hm⟩ := (Memory.wf_cons c m).mp h
    rw [List.filter_cons]
    split
    · exact (Memory.wf_cons _ _).mpr ⟨fun d hd => hlt d (List.mem_of_mem_filter hd), ih hm⟩
    · exact ih hm

theorem Memory.read_filter (m : List Host.Cell) (f : Nat → Bool) (a : Nat) :
    Memory.read (m.filter (fun c => f c.1)) a = if f a then Memory.read m a else none := by
  induction m with
  | nil => simp [Memory.read]
  | cons c m ih =>
    rw [List.filter_cons]
    by_cases hc : c.1 = a
    · subst hc
      by_cases hf : f c.1 <;> simp [hf, Memory.read, ih]
    · by_cases hf : f c.1 <;> simp [hf, Memory.read, hc, ih]

theorem Memory.read_erase (m : List Host.Cell) (a a' : Nat) :
    Memory.read (Memory.erase m a) a' = if a' = a then none else Memory.read m a' := by
  rw [Memory.erase, Memory.read_filter m (fun x => x != a)]
  by_cases h : a' = a <;> simp [h]

theorem Memory.wf_erase {m : List Host.Cell} (a : Nat) (h : Memory.wf m = true) :
    Memory.wf (Memory.erase m a) = true := Memory.wf_filter _ h

/-! Two canonical memories that read the same are the same. -/

theorem Memory.read_none_of_lt {m : List Host.Cell} {a : Nat} (h : ∀ c ∈ m, a < c.1) : Memory.read m a = none := by
  induction m with
  | nil => rfl
  | cons c m ih =>
    have hc := h c (by simp)
    simp only [Memory.read]
    rw [if_neg (by omega)]
    exact ih fun d hd => h d (by simp [hd])

theorem Memory.read_none_of_ne {m : List Host.Cell} {a : Nat} (h : ∀ c ∈ m, c.1 ≠ a) : Memory.read m a = none := by
  induction m with
  | nil => rfl
  | cons c m ih =>
    simp only [Memory.read]
    rw [if_neg (h c (by simp))]
    exact ih fun d hd => h d (by simp [hd])

theorem Memory.ext {m m' : List Host.Cell} (h : Memory.wf m = true) (h' : Memory.wf m' = true)
    (heq : ∀ a, Memory.read m a = Memory.read m' a) : m = m' := by
  induction m generalizing m' with
  | nil =>
    cases m' with
    | nil => rfl
    | cons d m' => simpa [Memory.read] using heq d.1
  | cons c m ih =>
    cases m' with
    | nil => simpa [Memory.read] using heq c.1
    | cons d m' =>
      obtain ⟨hlt, hm⟩ := (Memory.wf_cons c m).mp h
      obtain ⟨hlt', hm'⟩ := (Memory.wf_cons d m').mp h'
      have hcd : c.1 = d.1 := by
        rcases lt_trichotomy c.1 d.1 with hl | hl | hl
        · have := heq c.1
          rw [Memory.read_none_of_lt (m := d :: m') (by
            intro e he
            rcases List.mem_cons.mp he with rfl | he
            · exact hl
            · exact lt_trans hl (hlt' e he))] at this
          simp [Memory.read] at this
        · exact hl
        · have := heq d.1
          rw [Memory.read_none_of_lt (m := c :: m) (by
            intro e he
            rcases List.mem_cons.mp he with rfl | he
            · exact hl
            · exact lt_trans hl (hlt e he))] at this
          simp [Memory.read] at this
      have hb : c.2 = d.2 := by
        have := heq c.1
        simpa [Memory.read, hcd] using this
      have hc : c = d := Prod.ext hcd hb
      subst hc
      congr 1
      refine ih hm hm' fun a => ?_
      by_cases ha : c.1 = a
      · rw [Memory.read_none_of_lt (by subst ha; exact hlt), Memory.read_none_of_lt (by subst ha; exact hlt')]
      · simpa [Memory.read, ha] using heq a

/-! Lists of bytes. -/

theorem Memory.wf_writeBytes {m : List Host.Cell} (a : Nat) (bs : List Byte) (h : Memory.wf m = true) :
    Memory.wf (Memory.writeBytes m a bs) = true := by
  induction bs generalizing m a with
  | nil => exact h
  | cons b bs ih => exact ih (a + 1) (Memory.wf_write a b h)

theorem Memory.read_writeBytes (m : List Host.Cell) (a : Nat) (bs : List Byte) (a' : Nat) :
    Memory.read (Memory.writeBytes m a bs) a' =
      if a ≤ a' ∧ a' < a + bs.length then bs[a' - a]? else Memory.read m a' := by
  induction bs generalizing m a with
  | nil =>
    rw [if_neg (by simp)]
    rfl
  | cons b bs ih =>
    simp only [Memory.writeBytes, ih, List.length_cons]
    rcases lt_trichotomy a' a with h | h | h
    · rw [if_neg (by omega), if_neg (by omega), Memory.read_write_other _ _ (by omega)]
    · subst h
      rw [if_neg (by omega), if_pos (by omega), Memory.read_write_same]
      simp
    · by_cases h2 : a' < a + 1 + bs.length
      · rw [if_pos (by omega), if_pos (by omega), show a' - a = (a' - (a + 1)) + 1 by omega]
        simp
      · rw [if_neg (by omega), if_neg (by omega), Memory.read_write_other _ _ (by omega)]

theorem Memory.readBytes_congr {m m' : List Host.Cell} {a n : Nat}
    (h : ∀ i < n, Memory.read m (a + i) = Memory.read m' (a + i)) :
    Memory.readBytes m a n = Memory.readBytes m' a n := by
  induction n generalizing a with
  | zero => rfl
  | succ n ih =>
    have h0 := h 0 (by omega)
    have h1 := ih (a := a + 1) fun i hi => by
      have := h (i + 1) (by omega)
      rwa [show a + (i + 1) = a + 1 + i by omega] at this
    simp only [Memory.readBytes, h1]
    rw [show Memory.read m a = Memory.read m' a from h0]

theorem Memory.readBytes_of_read {m : List Host.Cell} {a : Nat} {bs : List Byte}
    (h : ∀ i (hi : i < bs.length), Memory.read m (a + i) = some bs[i]) :
    Memory.readBytes m a bs.length = some bs := by
  induction bs generalizing a with
  | nil => rfl
  | cons b bs ih =>
    have h0 := h 0 (by simp)
    have h1 := ih (a := a + 1) fun i hi => by
      have := h (i + 1) (by simpa using hi)
      rw [show a + (i + 1) = a + 1 + i by omega] at this
      simpa using this
    simp only [List.length_cons, Memory.readBytes, h1]
    rw [show Memory.read m a = some b from h0]

/-! Words. -/

@[simp] theorem bytesOfWord_length (v : Word) : (bytesOfWord v).length = 8 := by simp [bytesOfWord]

theorem wordOfBytes_bytesOfWord (v : Word) : wordOfBytes (bytesOfWord v) = v := by
  apply BitVec.eq_of_toNat_eq
  simp only [wordOfBytes, bytesOfWord, List.range, List.range.loop, List.map_cons, List.map_nil, List.foldr_cons,
    List.foldr_nil, BitVec.extractLsb'_toNat, BitVec.toNat_ofNat, Nat.shiftRight_eq_div_pow]
  have := v.isLt
  omega

/-- A word just written reads back. -/
@[simp] theorem Memory.readWord_writeWord_same (m : List Host.Cell) (a : Nat) (v : Word) :
    Memory.readWord (Memory.writeWord m a v) a = some v := by
  have h : Memory.readBytes (Memory.writeWord m a v) a (bytesOfWord v).length = some (bytesOfWord v) := by
    refine Memory.readBytes_of_read fun i hi => ?_
    rw [Memory.writeWord, Memory.read_writeBytes, if_pos (by omega)]
    simp
  rw [bytesOfWord_length] at h
  simp [Memory.readWord, h, wordOfBytes_bytesOfWord]

/-- A byte outside the eight written is unchanged. -/
theorem Memory.read_writeWord_other (m : List Host.Cell) {a a' : Nat} (v : Word) (h : a' < a ∨ a + 8 ≤ a') :
    Memory.read (Memory.writeWord m a v) a' = Memory.read m a' := by
  rw [Memory.writeWord, Memory.read_writeBytes, if_neg]
  rw [bytesOfWord_length]
  omega

/-- A word that does not overlap the one written is unchanged. -/
theorem Memory.readWord_writeWord_other (m : List Host.Cell) {a a' : Nat} (v : Word) (h : a' + 8 ≤ a ∨ a + 8 ≤ a') :
    Memory.readWord (Memory.writeWord m a v) a' = Memory.readWord m a' := by
  rw [Memory.readWord, Memory.readWord,
    Memory.readBytes_congr (m' := m) fun i hi => Memory.read_writeWord_other m v (by omega)]

theorem Memory.wf_writeWord {m : List Host.Cell} (a : Nat) (v : Word) (h : Memory.wf m = true) :
    Memory.wf (Memory.writeWord m a v) = true := Memory.wf_writeBytes _ _ h

theorem Memory.mem_writeBytes {m : List Host.Cell} {a : Nat} {bs : List Byte} {c : Host.Cell}
    (h : c ∈ Memory.writeBytes m a bs) : (a ≤ c.1 ∧ c.1 < a + bs.length) ∨ c ∈ m := by
  induction bs generalizing m a with
  | nil => exact .inr h
  | cons b bs ih =>
    rcases ih h with h | h
    · left
      simp only [List.length_cons]
      omega
    · rcases Memory.mem_write h with rfl | h
      · left
        simp
      · exact .inr h

/-- A word write lists nothing but its eight bytes anew. -/
theorem Memory.mem_writeWord {m : List Host.Cell} {a : Nat} {v : Word} {c : Host.Cell}
    (h : c ∈ Memory.writeWord m a v) : (a ≤ c.1 ∧ c.1 < a + 8) ∨ c ∈ m := by
  simpa using Memory.mem_writeBytes h

theorem Memory.wf_eraseWord {m : List Host.Cell} (a : Nat) (h : Memory.wf m = true) :
    Memory.wf (Memory.eraseWord m a) = true := Memory.wf_filter _ h

theorem Memory.read_eraseWord (m : List Host.Cell) (a a' : Nat) :
    Memory.read (Memory.eraseWord m a) a' = if a ≤ a' ∧ a' < a + 8 then none else Memory.read m a' := by
  rw [Memory.eraseWord, Memory.read_filter m (fun x => !(decide (a ≤ x) && decide (x < a + 8)))]
  by_cases h : a ≤ a' ∧ a' < a + 8
  · simp [h]
  · rw [if_neg h, if_pos]
    simp only [Bool.not_eq_true', Bool.and_eq_false_iff, decide_eq_false_iff_not]
    omega

theorem Memory.mem_eraseWord {m : List Host.Cell} {a : Nat} {c : Host.Cell} (h : c ∈ Memory.eraseWord m a) : c ∈ m :=
  List.mem_of_mem_filter h

/-- An erased word is unspecified. -/
theorem Memory.readWord_eraseWord_same (m : List Host.Cell) (a : Nat) : Memory.readWord (Memory.eraseWord m a) a = none := by
  simp [Memory.readWord, Memory.readBytes, Memory.read_eraseWord]

/-- A word that does not overlap the one erased is unchanged. -/
theorem Memory.readWord_eraseWord_other (m : List Host.Cell) {a a' : Nat} (h : a' + 8 ≤ a ∨ a + 8 ≤ a') :
    Memory.readWord (Memory.eraseWord m a) a' = Memory.readWord m a' := by
  rw [Memory.readWord, Memory.readWord, Memory.readBytes_congr (m' := m) fun i hi => by
    rw [Memory.read_eraseWord, if_neg (by omega)]]

/-! Sets of addresses. -/

@[simp] theorem Addrs.mem_insert {l : List Nat} {a b : Nat} : b ∈ Addrs.insert l a ↔ b = a ∨ b ∈ l := by
  induction l with
  | nil => simp [Addrs.insert]
  | cons c l ih =>
    unfold Addrs.insert
    split
    · simp
    · split
      · rename_i h
        simp [h]
      · simp only [List.mem_cons, ih]
        tauto

/-- Adding an address keeps the list strictly rising. -/
theorem Addrs.rising_insert {l : List Nat} (a : Nat) (h : l.Pairwise (· < ·)) : (Addrs.insert l a).Pairwise (· < ·) := by
  induction l with
  | nil => simp [Addrs.insert]
  | cons c l ih =>
    have ⟨h1, h2⟩ := List.pairwise_cons.1 h
    unfold Addrs.insert
    split
    next hac =>
      refine List.pairwise_cons.2 ⟨fun d hd => ?_, h⟩
      obtain rfl | hd := List.mem_cons.1 hd
      · exact hac
      · exact lt_trans hac (h1 d hd)
    next hac =>
      split
      · exact h
      · refine List.pairwise_cons.2 ⟨fun d hd => ?_, ih h2⟩
        obtain rfl | hd := Addrs.mem_insert.1 hd
        · omega
        · exact h1 d hd

@[simp] theorem Addrs.mem_remove {l : List Nat} {a b : Nat} : b ∈ Addrs.remove l a ↔ b ∈ l ∧ b ≠ a := by simp [Addrs.remove]

/-- Taking an address out keeps the list strictly rising. -/
theorem Addrs.rising_remove {l : List Nat} (a : Nat) (h : l.Pairwise (· < ·)) : (Addrs.remove l a).Pairwise (· < ·) := h.filter _

end Sys2Proof.Machine
end

