-- ==== Sys2Proof/Laws/State.lean ====
section
/-! SUPPORT. One small lemma per field for each shared state update, so that no later proof unfolds a record update. -/

namespace Sys2Proof.Machine

open Sys2Proof

/-! complete: DONE <- 1, BUSY <- 0. -/

@[simp] theorem State.complete_params (s : State) : s.complete.params = s.params := rfl
@[simp] theorem State.complete_doneIe (s : State) : s.complete.doneIe = s.doneIe := rfl
@[simp] theorem State.complete_errIe (s : State) : s.complete.errIe = s.errIe := rfl
@[simp] theorem State.complete_busy (s : State) : s.complete.busy = false := rfl
@[simp] theorem State.complete_done (s : State) : s.complete.done = true := rfl
@[simp] theorem State.complete_err (s : State) : s.complete.err = s.err := rfl
@[simp] theorem State.complete_eovf (s : State) : s.complete.eovf = s.eovf := rfl
@[simp] theorem State.complete_cmd (s : State) : s.complete.cmd = s.cmd := rfl
@[simp] theorem State.complete_errCode (s : State) : s.complete.errCode = s.errCode := rfl
@[simp] theorem State.complete_errInfo (s : State) : s.complete.errInfo = s.errInfo := rfl
@[simp] theorem State.complete_xin (s : State) : s.complete.xin = s.xin := rfl
@[simp] theorem State.complete_acc (s : State) : s.complete.acc = s.acc := rfl
@[simp] theorem State.complete_rbdata (s : State) : s.complete.rbdata = s.rbdata := rfl
@[simp] theorem State.complete_ntaps (s : State) : s.complete.ntaps = s.ntaps := rfl
@[simp] theorem State.complete_h (s : State) : s.complete.h = s.h := rfl
@[simp] theorem State.complete_fir (s : State) : s.complete.fir = s.fir := rfl
@[simp] theorem State.complete_secs (s : State) : s.complete.secs = s.secs := rfl
@[simp] theorem State.complete_dmem (s : State) : s.complete.dmem = s.dmem := rfl
@[simp] theorem State.complete_lost (s : State) : s.complete.lost = s.lost := rfl
@[simp] theorem State.complete_rstN (s : State) : s.complete.rstN = s.rstN := rfl
@[simp] theorem State.complete_agenda (s : State) : s.complete.agenda = s.agenda := rfl
@[simp] theorem State.complete_resp (s : State) : s.complete.resp = s.resp := rfl
@[simp] theorem State.complete_draws (s : State) : s.complete.draws = s.draws := rfl
/-! record: ERR, ERR_CODE, ERR_INFO for the first error, EOVF for a later one. -/

theorem State.record_eq (s : State) (c : ErrCode) (i : Word) :
    s.record c i = { s with
      err := true
      eovf := s.eovf || s.err
      errCode := if s.err then s.errCode else c.code
      errInfo := if s.err then s.errInfo else i } := by
  cases s with
  | mk _ _ _ _ _ err => cases err <;> simp [State.record]

@[simp] theorem State.record_params (s : State) (c : ErrCode) (i : Word) : (s.record c i).params = s.params := by rw [State.record_eq]
@[simp] theorem State.record_doneIe (s : State) (c : ErrCode) (i : Word) : (s.record c i).doneIe = s.doneIe := by rw [State.record_eq]
@[simp] theorem State.record_errIe (s : State) (c : ErrCode) (i : Word) : (s.record c i).errIe = s.errIe := by rw [State.record_eq]
@[simp] theorem State.record_busy (s : State) (c : ErrCode) (i : Word) : (s.record c i).busy = s.busy := by rw [State.record_eq]
@[simp] theorem State.record_done (s : State) (c : ErrCode) (i : Word) : (s.record c i).done = s.done := by rw [State.record_eq]
@[simp] theorem State.record_cmd (s : State) (c : ErrCode) (i : Word) : (s.record c i).cmd = s.cmd := by rw [State.record_eq]
@[simp] theorem State.record_xin (s : State) (c : ErrCode) (i : Word) : (s.record c i).xin = s.xin := by rw [State.record_eq]
@[simp] theorem State.record_acc (s : State) (c : ErrCode) (i : Word) : (s.record c i).acc = s.acc := by rw [State.record_eq]
@[simp] theorem State.record_rbdata (s : State) (c : ErrCode) (i : Word) : (s.record c i).rbdata = s.rbdata := by rw [State.record_eq]
@[simp] theorem State.record_ntaps (s : State) (c : ErrCode) (i : Word) : (s.record c i).ntaps = s.ntaps := by rw [State.record_eq]
@[simp] theorem State.record_h (s : State) (c : ErrCode) (i : Word) : (s.record c i).h = s.h := by rw [State.record_eq]
@[simp] theorem State.record_fir (s : State) (c : ErrCode) (i : Word) : (s.record c i).fir = s.fir := by rw [State.record_eq]
@[simp] theorem State.record_secs (s : State) (c : ErrCode) (i : Word) : (s.record c i).secs = s.secs := by rw [State.record_eq]
@[simp] theorem State.record_dmem (s : State) (c : ErrCode) (i : Word) : (s.record c i).dmem = s.dmem := by rw [State.record_eq]
@[simp] theorem State.record_lost (s : State) (c : ErrCode) (i : Word) : (s.record c i).lost = s.lost := by rw [State.record_eq]
@[simp] theorem State.record_rstN (s : State) (c : ErrCode) (i : Word) : (s.record c i).rstN = s.rstN := by rw [State.record_eq]
@[simp] theorem State.record_agenda (s : State) (c : ErrCode) (i : Word) : (s.record c i).agenda = s.agenda := by rw [State.record_eq]
@[simp] theorem State.record_resp (s : State) (c : ErrCode) (i : Word) : (s.record c i).resp = s.resp := by rw [State.record_eq]
@[simp] theorem State.record_draws (s : State) (c : ErrCode) (i : Word) : (s.record c i).draws = s.draws := by rw [State.record_eq]
@[simp] theorem State.record_err (s : State) (c : ErrCode) (i : Word) : (s.record c i).err = true := by rw [State.record_eq]
@[simp] theorem State.record_eovf (s : State) (c : ErrCode) (i : Word) : (s.record c i).eovf = (s.eovf || s.err) := by rw [State.record_eq]
@[simp] theorem State.record_errCode (s : State) (c : ErrCode) (i : Word) : (s.record c i).errCode = if s.err then s.errCode else c.code := by rw [State.record_eq]
@[simp] theorem State.record_errInfo (s : State) (c : ErrCode) (i : Word) : (s.record c i).errInfo = if s.err then s.errInfo else i := by rw [State.record_eq]
/-! raiseErr: record with CMD, BUSY <- 0. -/

@[simp] theorem State.raiseErr_params (s : State) (c : ErrCode) : (s.raiseErr c).params = s.params := by simp [State.raiseErr]
@[simp] theorem State.raiseErr_doneIe (s : State) (c : ErrCode) : (s.raiseErr c).doneIe = s.doneIe := by simp [State.raiseErr]
@[simp] theorem State.raiseErr_errIe (s : State) (c : ErrCode) : (s.raiseErr c).errIe = s.errIe := by simp [State.raiseErr]
@[simp] theorem State.raiseErr_busy (s : State) (c : ErrCode) : (s.raiseErr c).busy = false := by simp [State.raiseErr]
@[simp] theorem State.raiseErr_done (s : State) (c : ErrCode) : (s.raiseErr c).done = s.done := by simp [State.raiseErr]
@[simp] theorem State.raiseErr_err (s : State) (c : ErrCode) : (s.raiseErr c).err = true := by simp [State.raiseErr]
@[simp] theorem State.raiseErr_eovf (s : State) (c : ErrCode) : (s.raiseErr c).eovf = (s.eovf || s.err) := by simp [State.raiseErr]
@[simp] theorem State.raiseErr_cmd (s : State) (c : ErrCode) : (s.raiseErr c).cmd = s.cmd := by simp [State.raiseErr]
@[simp] theorem State.raiseErr_errCode (s : State) (c : ErrCode) : (s.raiseErr c).errCode = if s.err then s.errCode else c.code := by simp [State.raiseErr]
@[simp] theorem State.raiseErr_errInfo (s : State) (c : ErrCode) : (s.raiseErr c).errInfo = if s.err then s.errInfo else s.cmd := by simp [State.raiseErr]
@[simp] theorem State.raiseErr_xin (s : State) (c : ErrCode) : (s.raiseErr c).xin = s.xin := by simp [State.raiseErr]
@[simp] theorem State.raiseErr_acc (s : State) (c : ErrCode) : (s.raiseErr c).acc = s.acc := by simp [State.raiseErr]
@[simp] theorem State.raiseErr_rbdata (s : State) (c : ErrCode) : (s.raiseErr c).rbdata = s.rbdata := by simp [State.raiseErr]
@[simp] theorem State.raiseErr_ntaps (s : State) (c : ErrCode) : (s.raiseErr c).ntaps = s.ntaps := by simp [State.raiseErr]
@[simp] theorem State.raiseErr_h (s : State) (c : ErrCode) : (s.raiseErr c).h = s.h := by simp [State.raiseErr]
@[simp] theorem State.raiseErr_fir (s : State) (c : ErrCode) : (s.raiseErr c).fir = s.fir := by simp [State.raiseErr]
@[simp] theorem State.raiseErr_secs (s : State) (c : ErrCode) : (s.raiseErr c).secs = s.secs := by simp [State.raiseErr]
@[simp] theorem State.raiseErr_dmem (s : State) (c : ErrCode) : (s.raiseErr c).dmem = s.dmem := by simp [State.raiseErr]
@[simp] theorem State.raiseErr_lost (s : State) (c : ErrCode) : (s.raiseErr c).lost = s.lost := by simp [State.raiseErr]
@[simp] theorem State.raiseErr_rstN (s : State) (c : ErrCode) : (s.raiseErr c).rstN = s.rstN := by simp [State.raiseErr]
@[simp] theorem State.raiseErr_agenda (s : State) (c : ErrCode) : (s.raiseErr c).agenda = s.agenda := by simp [State.raiseErr]
@[simp] theorem State.raiseErr_resp (s : State) (c : ErrCode) : (s.raiseErr c).resp = s.resp := by simp [State.raiseErr]
@[simp] theorem State.raiseErr_draws (s : State) (c : ErrCode) : (s.raiseErr c).draws = s.draws := by simp [State.raiseErr]
/-! draw: one more free value drawn. -/

@[simp] theorem State.draw_fst (s : State) : s.draw.1 = Config.freeWord s.draws := rfl
@[simp] theorem State.draw_params (s : State) : s.draw.2.params = s.params := rfl
@[simp] theorem State.draw_doneIe (s : State) : s.draw.2.doneIe = s.doneIe := rfl
@[simp] theorem State.draw_errIe (s : State) : s.draw.2.errIe = s.errIe := rfl
@[simp] theorem State.draw_busy (s : State) : s.draw.2.busy = s.busy := rfl
@[simp] theorem State.draw_done (s : State) : s.draw.2.done = s.done := rfl
@[simp] theorem State.draw_err (s : State) : s.draw.2.err = s.err := rfl
@[simp] theorem State.draw_eovf (s : State) : s.draw.2.eovf = s.eovf := rfl
@[simp] theorem State.draw_cmd (s : State) : s.draw.2.cmd = s.cmd := rfl
@[simp] theorem State.draw_errCode (s : State) : s.draw.2.errCode = s.errCode := rfl
@[simp] theorem State.draw_errInfo (s : State) : s.draw.2.errInfo = s.errInfo := rfl
@[simp] theorem State.draw_xin (s : State) : s.draw.2.xin = s.xin := rfl
@[simp] theorem State.draw_acc (s : State) : s.draw.2.acc = s.acc := rfl
@[simp] theorem State.draw_rbdata (s : State) : s.draw.2.rbdata = s.rbdata := rfl
@[simp] theorem State.draw_ntaps (s : State) : s.draw.2.ntaps = s.ntaps := rfl
@[simp] theorem State.draw_h (s : State) : s.draw.2.h = s.h := rfl
@[simp] theorem State.draw_fir (s : State) : s.draw.2.fir = s.fir := rfl
@[simp] theorem State.draw_secs (s : State) : s.draw.2.secs = s.secs := rfl
@[simp] theorem State.draw_dmem (s : State) : s.draw.2.dmem = s.dmem := rfl
@[simp] theorem State.draw_lost (s : State) : s.draw.2.lost = s.lost := rfl
@[simp] theorem State.draw_rstN (s : State) : s.draw.2.rstN = s.rstN := rfl
@[simp] theorem State.draw_agenda (s : State) : s.draw.2.agenda = s.agenda := rfl
@[simp] theorem State.draw_resp (s : State) : s.draw.2.resp = s.resp := rfl
@[simp] theorem State.draw_draws (s : State) : s.draw.2.draws = s.draws + 1 := rfl
/-! writeDmem and dwrite: DMEM only. -/

@[simp] theorem State.writeDmem_params (s : State) (a : Nat) (v : Word) : (s.writeDmem a v).params = s.params := rfl
@[simp] theorem State.writeDmem_doneIe (s : State) (a : Nat) (v : Word) : (s.writeDmem a v).doneIe = s.doneIe := rfl
@[simp] theorem State.writeDmem_errIe (s : State) (a : Nat) (v : Word) : (s.writeDmem a v).errIe = s.errIe := rfl
@[simp] theorem State.writeDmem_busy (s : State) (a : Nat) (v : Word) : (s.writeDmem a v).busy = s.busy := rfl
@[simp] theorem State.writeDmem_done (s : State) (a : Nat) (v : Word) : (s.writeDmem a v).done = s.done := rfl
@[simp] theorem State.writeDmem_err (s : State) (a : Nat) (v : Word) : (s.writeDmem a v).err = s.err := rfl
@[simp] theorem State.writeDmem_eovf (s : State) (a : Nat) (v : Word) : (s.writeDmem a v).eovf = s.eovf := rfl
@[simp] theorem State.writeDmem_cmd (s : State) (a : Nat) (v : Word) : (s.writeDmem a v).cmd = s.cmd := rfl
@[simp] theorem State.writeDmem_errCode (s : State) (a : Nat) (v : Word) : (s.writeDmem a v).errCode = s.errCode := rfl
@[simp] theorem State.writeDmem_errInfo (s : State) (a : Nat) (v : Word) : (s.writeDmem a v).errInfo = s.errInfo := rfl
@[simp] theorem State.writeDmem_xin (s : State) (a : Nat) (v : Word) : (s.writeDmem a v).xin = s.xin := rfl
@[simp] theorem State.writeDmem_acc (s : State) (a : Nat) (v : Word) : (s.writeDmem a v).acc = s.acc := rfl
@[simp] theorem State.writeDmem_rbdata (s : State) (a : Nat) (v : Word) : (s.writeDmem a v).rbdata = s.rbdata := rfl
@[simp] theorem State.writeDmem_ntaps (s : State) (a : Nat) (v : Word) : (s.writeDmem a v).ntaps = s.ntaps := rfl
@[simp] theorem State.writeDmem_h (s : State) (a : Nat) (v : Word) : (s.writeDmem a v).h = s.h := rfl
@[simp] theorem State.writeDmem_fir (s : State) (a : Nat) (v : Word) : (s.writeDmem a v).fir = s.fir := rfl
@[simp] theorem State.writeDmem_secs (s : State) (a : Nat) (v : Word) : (s.writeDmem a v).secs = s.secs := rfl
@[simp] theorem State.writeDmem_dmem (s : State) (a : Nat) (v : Word) :
    (s.writeDmem a v).dmem = if a ∈ s.lost then s.dmem else Memory.writeWord s.dmem a v := rfl
@[simp] theorem State.writeDmem_lost (s : State) (a : Nat) (v : Word) : (s.writeDmem a v).lost = s.lost := rfl
@[simp] theorem State.writeDmem_rstN (s : State) (a : Nat) (v : Word) : (s.writeDmem a v).rstN = s.rstN := rfl
@[simp] theorem State.writeDmem_agenda (s : State) (a : Nat) (v : Word) : (s.writeDmem a v).agenda = s.agenda := rfl
@[simp] theorem State.writeDmem_resp (s : State) (a : Nat) (v : Word) : (s.writeDmem a v).resp = s.resp := rfl
@[simp] theorem State.writeDmem_draws (s : State) (a : Nat) (v : Word) : (s.writeDmem a v).draws = s.draws := rfl
@[simp] theorem State.dwrite_params (s : State) (e : Nat) (z : Cplx) : (s.dwrite e z).params = s.params := by simp only [State.dwrite, State.writeDmem_params]
@[simp] theorem State.dwrite_doneIe (s : State) (e : Nat) (z : Cplx) : (s.dwrite e z).doneIe = s.doneIe := by simp only [State.dwrite, State.writeDmem_doneIe]
@[simp] theorem State.dwrite_errIe (s : State) (e : Nat) (z : Cplx) : (s.dwrite e z).errIe = s.errIe := by simp only [State.dwrite, State.writeDmem_errIe]
@[simp] theorem State.dwrite_busy (s : State) (e : Nat) (z : Cplx) : (s.dwrite e z).busy = s.busy := by simp only [State.dwrite, State.writeDmem_busy]
@[simp] theorem State.dwrite_done (s : State) (e : Nat) (z : Cplx) : (s.dwrite e z).done = s.done := by simp only [State.dwrite, State.writeDmem_done]
@[simp] theorem State.dwrite_err (s : State) (e : Nat) (z : Cplx) : (s.dwrite e z).err = s.err := by simp only [State.dwrite, State.writeDmem_err]
@[simp] theorem State.dwrite_eovf (s : State) (e : Nat) (z : Cplx) : (s.dwrite e z).eovf = s.eovf := by simp only [State.dwrite, State.writeDmem_eovf]
@[simp] theorem State.dwrite_cmd (s : State) (e : Nat) (z : Cplx) : (s.dwrite e z).cmd = s.cmd := by simp only [State.dwrite, State.writeDmem_cmd]
@[simp] theorem State.dwrite_errCode (s : State) (e : Nat) (z : Cplx) : (s.dwrite e z).errCode = s.errCode := by simp only [State.dwrite, State.writeDmem_errCode]
@[simp] theorem State.dwrite_errInfo (s : State) (e : Nat) (z : Cplx) : (s.dwrite e z).errInfo = s.errInfo := by simp only [State.dwrite, State.writeDmem_errInfo]
@[simp] theorem State.dwrite_xin (s : State) (e : Nat) (z : Cplx) : (s.dwrite e z).xin = s.xin := by simp only [State.dwrite, State.writeDmem_xin]
@[simp] theorem State.dwrite_acc (s : State) (e : Nat) (z : Cplx) : (s.dwrite e z).acc = s.acc := by simp only [State.dwrite, State.writeDmem_acc]
@[simp] theorem State.dwrite_rbdata (s : State) (e : Nat) (z : Cplx) : (s.dwrite e z).rbdata = s.rbdata := by simp only [State.dwrite, State.writeDmem_rbdata]
@[simp] theorem State.dwrite_ntaps (s : State) (e : Nat) (z : Cplx) : (s.dwrite e z).ntaps = s.ntaps := by simp only [State.dwrite, State.writeDmem_ntaps]
@[simp] theorem State.dwrite_h (s : State) (e : Nat) (z : Cplx) : (s.dwrite e z).h = s.h := by simp only [State.dwrite, State.writeDmem_h]
@[simp] theorem State.dwrite_fir (s : State) (e : Nat) (z : Cplx) : (s.dwrite e z).fir = s.fir := by simp only [State.dwrite, State.writeDmem_fir]
@[simp] theorem State.dwrite_secs (s : State) (e : Nat) (z : Cplx) : (s.dwrite e z).secs = s.secs := by simp only [State.dwrite, State.writeDmem_secs]
theorem State.dwrite_dmem (s : State) (e : Nat) (z : Cplx) : (s.dwrite e z).dmem = ((s.writeDmem (dmemAddr e false) z.re).writeDmem (dmemAddr e true) z.im).dmem := rfl
@[simp] theorem State.dwrite_lost (s : State) (e : Nat) (z : Cplx) : (s.dwrite e z).lost = s.lost := by simp only [State.dwrite, State.writeDmem_lost]
@[simp] theorem State.dwrite_rstN (s : State) (e : Nat) (z : Cplx) : (s.dwrite e z).rstN = s.rstN := by simp only [State.dwrite, State.writeDmem_rstN]
@[simp] theorem State.dwrite_agenda (s : State) (e : Nat) (z : Cplx) : (s.dwrite e z).agenda = s.agenda := by simp only [State.dwrite, State.writeDmem_agenda]
@[simp] theorem State.dwrite_resp (s : State) (e : Nat) (z : Cplx) : (s.dwrite e z).resp = s.resp := by simp only [State.dwrite, State.writeDmem_resp]
@[simp] theorem State.dwrite_draws (s : State) (e : Nat) (z : Cplx) : (s.dwrite e z).draws = s.draws := by simp only [State.dwrite, State.writeDmem_draws]
/-! hostDmem: DMEM, and the word is lost no more. -/

@[simp] theorem State.hostDmem_params (s : State) (a : Nat) (v : Word) : (s.hostDmem a v).params = s.params := rfl
@[simp] theorem State.hostDmem_doneIe (s : State) (a : Nat) (v : Word) : (s.hostDmem a v).doneIe = s.doneIe := rfl
@[simp] theorem State.hostDmem_errIe (s : State) (a : Nat) (v : Word) : (s.hostDmem a v).errIe = s.errIe := rfl
@[simp] theorem State.hostDmem_busy (s : State) (a : Nat) (v : Word) : (s.hostDmem a v).busy = s.busy := rfl
@[simp] theorem State.hostDmem_done (s : State) (a : Nat) (v : Word) : (s.hostDmem a v).done = s.done := rfl
@[simp] theorem State.hostDmem_err (s : State) (a : Nat) (v : Word) : (s.hostDmem a v).err = s.err := rfl
@[simp] theorem State.hostDmem_eovf (s : State) (a : Nat) (v : Word) : (s.hostDmem a v).eovf = s.eovf := rfl
@[simp] theorem State.hostDmem_cmd (s : State) (a : Nat) (v : Word) : (s.hostDmem a v).cmd = s.cmd := rfl
@[simp] theorem State.hostDmem_errCode (s : State) (a : Nat) (v : Word) : (s.hostDmem a v).errCode = s.errCode := rfl
@[simp] theorem State.hostDmem_errInfo (s : State) (a : Nat) (v : Word) : (s.hostDmem a v).errInfo = s.errInfo := rfl
@[simp] theorem State.hostDmem_xin (s : State) (a : Nat) (v : Word) : (s.hostDmem a v).xin = s.xin := rfl
@[simp] theorem State.hostDmem_acc (s : State) (a : Nat) (v : Word) : (s.hostDmem a v).acc = s.acc := rfl
@[simp] theorem State.hostDmem_rbdata (s : State) (a : Nat) (v : Word) : (s.hostDmem a v).rbdata = s.rbdata := rfl
@[simp] theorem State.hostDmem_ntaps (s : State) (a : Nat) (v : Word) : (s.hostDmem a v).ntaps = s.ntaps := rfl
@[simp] theorem State.hostDmem_h (s : State) (a : Nat) (v : Word) : (s.hostDmem a v).h = s.h := rfl
@[simp] theorem State.hostDmem_fir (s : State) (a : Nat) (v : Word) : (s.hostDmem a v).fir = s.fir := rfl
@[simp] theorem State.hostDmem_secs (s : State) (a : Nat) (v : Word) : (s.hostDmem a v).secs = s.secs := rfl
@[simp] theorem State.hostDmem_dmem (s : State) (a : Nat) (v : Word) : (s.hostDmem a v).dmem = Memory.writeWord s.dmem a v := rfl
@[simp] theorem State.hostDmem_lost (s : State) (a : Nat) (v : Word) : (s.hostDmem a v).lost = Addrs.remove s.lost a := rfl
@[simp] theorem State.hostDmem_rstN (s : State) (a : Nat) (v : Word) : (s.hostDmem a v).rstN = s.rstN := rfl
@[simp] theorem State.hostDmem_agenda (s : State) (a : Nat) (v : Word) : (s.hostDmem a v).agenda = s.agenda := rfl
@[simp] theorem State.hostDmem_resp (s : State) (a : Nat) (v : Word) : (s.hostDmem a v).resp = s.resp := rfl
@[simp] theorem State.hostDmem_draws (s : State) (a : Nat) (v : Word) : (s.hostDmem a v).draws = s.draws := rfl
/-! doReset: the values of 70_reset_and_hazards.md R151; DMEM less the abandoned words, which are lost; the model's own fields stay. -/

@[simp] theorem State.doReset_params (s : State) : s.doReset.params = s.params := rfl
@[simp] theorem State.doReset_doneIe (s : State) : s.doReset.doneIe = false := rfl
@[simp] theorem State.doReset_errIe (s : State) : s.doReset.errIe = false := rfl
@[simp] theorem State.doReset_busy (s : State) : s.doReset.busy = false := rfl
@[simp] theorem State.doReset_done (s : State) : s.doReset.done = false := rfl
@[simp] theorem State.doReset_err (s : State) : s.doReset.err = false := rfl
@[simp] theorem State.doReset_eovf (s : State) : s.doReset.eovf = false := rfl
@[simp] theorem State.doReset_cmd (s : State) : s.doReset.cmd = 0 := rfl
@[simp] theorem State.doReset_errCode (s : State) : s.doReset.errCode = 0 := rfl
@[simp] theorem State.doReset_errInfo (s : State) : s.doReset.errInfo = 0 := rfl
@[simp] theorem State.doReset_xin (s : State) : s.doReset.xin = 0 := rfl
@[simp] theorem State.doReset_acc (s : State) : s.doReset.acc = 0 := rfl
@[simp] theorem State.doReset_rbdata (s : State) : s.doReset.rbdata = 0 := rfl
@[simp] theorem State.doReset_ntaps (s : State) : s.doReset.ntaps = 0 := rfl
@[simp] theorem State.doReset_h (s : State) : s.doReset.h = List.replicate s.params.firCap 0 := rfl
@[simp] theorem State.doReset_fir (s : State) : s.doReset.fir = RingBuf.cleared s.params.firCap := rfl
@[simp] theorem State.doReset_secs (s : State) : s.doReset.secs = List.replicate s.params.nsec Section.cleared := rfl
@[simp] theorem State.doReset_dmem (s : State) : s.doReset.dmem = s.abandoned.foldl eraseEntry s.dmem := rfl
@[simp] theorem State.doReset_lost (s : State) : s.doReset.lost = s.abandoned.foldr loseEntry s.lost := rfl
@[simp] theorem State.doReset_rstN (s : State) : s.doReset.rstN = s.rstN := rfl
@[simp] theorem State.doReset_agenda (s : State) : s.doReset.agenda = s.agenda := rfl
@[simp] theorem State.doReset_resp (s : State) : s.doReset.resp = s.resp := rfl
@[simp] theorem State.doReset_draws (s : State) : s.doReset.draws = s.draws := rfl
/-! Bus responses: resp only. -/

@[simp] theorem State.answer_params (s : State) (v : Word) : (s.answer v).params = s.params := rfl
@[simp] theorem State.answer_doneIe (s : State) (v : Word) : (s.answer v).doneIe = s.doneIe := rfl
@[simp] theorem State.answer_errIe (s : State) (v : Word) : (s.answer v).errIe = s.errIe := rfl
@[simp] theorem State.answer_busy (s : State) (v : Word) : (s.answer v).busy = s.busy := rfl
@[simp] theorem State.answer_done (s : State) (v : Word) : (s.answer v).done = s.done := rfl
@[simp] theorem State.answer_err (s : State) (v : Word) : (s.answer v).err = s.err := rfl
@[simp] theorem State.answer_eovf (s : State) (v : Word) : (s.answer v).eovf = s.eovf := rfl
@[simp] theorem State.answer_cmd (s : State) (v : Word) : (s.answer v).cmd = s.cmd := rfl
@[simp] theorem State.answer_errCode (s : State) (v : Word) : (s.answer v).errCode = s.errCode := rfl
@[simp] theorem State.answer_errInfo (s : State) (v : Word) : (s.answer v).errInfo = s.errInfo := rfl
@[simp] theorem State.answer_xin (s : State) (v : Word) : (s.answer v).xin = s.xin := rfl
@[simp] theorem State.answer_acc (s : State) (v : Word) : (s.answer v).acc = s.acc := rfl
@[simp] theorem State.answer_rbdata (s : State) (v : Word) : (s.answer v).rbdata = s.rbdata := rfl
@[simp] theorem State.answer_ntaps (s : State) (v : Word) : (s.answer v).ntaps = s.ntaps := rfl
@[simp] theorem State.answer_h (s : State) (v : Word) : (s.answer v).h = s.h := rfl
@[simp] theorem State.answer_fir (s : State) (v : Word) : (s.answer v).fir = s.fir := rfl
@[simp] theorem State.answer_secs (s : State) (v : Word) : (s.answer v).secs = s.secs := rfl
@[simp] theorem State.answer_dmem (s : State) (v : Word) : (s.answer v).dmem = s.dmem := rfl
@[simp] theorem State.answer_lost (s : State) (v : Word) : (s.answer v).lost = s.lost := rfl
@[simp] theorem State.answer_rstN (s : State) (v : Word) : (s.answer v).rstN = s.rstN := rfl
@[simp] theorem State.answer_agenda (s : State) (v : Word) : (s.answer v).agenda = s.agenda := rfl
@[simp] theorem State.answer_resp (s : State) (v : Word) : (s.answer v).resp = some ⟨false, some v⟩ := rfl
@[simp] theorem State.answer_draws (s : State) (v : Word) : (s.answer v).draws = s.draws := rfl
@[simp] theorem State.ack_params (s : State) : (s.ack).params = s.params := rfl
@[simp] theorem State.ack_doneIe (s : State) : (s.ack).doneIe = s.doneIe := rfl
@[simp] theorem State.ack_errIe (s : State) : (s.ack).errIe = s.errIe := rfl
@[simp] theorem State.ack_busy (s : State) : (s.ack).busy = s.busy := rfl
@[simp] theorem State.ack_done (s : State) : (s.ack).done = s.done := rfl
@[simp] theorem State.ack_err (s : State) : (s.ack).err = s.err := rfl
@[simp] theorem State.ack_eovf (s : State) : (s.ack).eovf = s.eovf := rfl
@[simp] theorem State.ack_cmd (s : State) : (s.ack).cmd = s.cmd := rfl
@[simp] theorem State.ack_errCode (s : State) : (s.ack).errCode = s.errCode := rfl
@[simp] theorem State.ack_errInfo (s : State) : (s.ack).errInfo = s.errInfo := rfl
@[simp] theorem State.ack_xin (s : State) : (s.ack).xin = s.xin := rfl
@[simp] theorem State.ack_acc (s : State) : (s.ack).acc = s.acc := rfl
@[simp] theorem State.ack_rbdata (s : State) : (s.ack).rbdata = s.rbdata := rfl
@[simp] theorem State.ack_ntaps (s : State) : (s.ack).ntaps = s.ntaps := rfl
@[simp] theorem State.ack_h (s : State) : (s.ack).h = s.h := rfl
@[simp] theorem State.ack_fir (s : State) : (s.ack).fir = s.fir := rfl
@[simp] theorem State.ack_secs (s : State) : (s.ack).secs = s.secs := rfl
@[simp] theorem State.ack_dmem (s : State) : (s.ack).dmem = s.dmem := rfl
@[simp] theorem State.ack_lost (s : State) : (s.ack).lost = s.lost := rfl
@[simp] theorem State.ack_rstN (s : State) : (s.ack).rstN = s.rstN := rfl
@[simp] theorem State.ack_agenda (s : State) : (s.ack).agenda = s.agenda := rfl
@[simp] theorem State.ack_resp (s : State) : (s.ack).resp = some ⟨false, none⟩ := rfl
@[simp] theorem State.ack_draws (s : State) : (s.ack).draws = s.draws := rfl
/-! clearFlags: STATUS flags and the error record. -/

@[simp] theorem State.clearFlags_params (s : State) (v : Word) : (s.clearFlags v).params = s.params := rfl
@[simp] theorem State.clearFlags_doneIe (s : State) (v : Word) : (s.clearFlags v).doneIe = s.doneIe := rfl
@[simp] theorem State.clearFlags_errIe (s : State) (v : Word) : (s.clearFlags v).errIe = s.errIe := rfl
@[simp] theorem State.clearFlags_busy (s : State) (v : Word) : (s.clearFlags v).busy = s.busy := rfl
@[simp] theorem State.clearFlags_done (s : State) (v : Word) : (s.clearFlags v).done = (s.done && !v.getLsbD 1) := rfl
@[simp] theorem State.clearFlags_err (s : State) (v : Word) : (s.clearFlags v).err = (s.err && !v.getLsbD 2) := rfl
@[simp] theorem State.clearFlags_eovf (s : State) (v : Word) : (s.clearFlags v).eovf = (s.eovf && !v.getLsbD 3) := rfl
@[simp] theorem State.clearFlags_cmd (s : State) (v : Word) : (s.clearFlags v).cmd = s.cmd := rfl
@[simp] theorem State.clearFlags_errCode (s : State) (v : Word) : (s.clearFlags v).errCode = if v.getLsbD 2 then 0 else s.errCode := rfl
@[simp] theorem State.clearFlags_errInfo (s : State) (v : Word) : (s.clearFlags v).errInfo = if v.getLsbD 2 then 0 else s.errInfo := rfl
@[simp] theorem State.clearFlags_xin (s : State) (v : Word) : (s.clearFlags v).xin = s.xin := rfl
@[simp] theorem State.clearFlags_acc (s : State) (v : Word) : (s.clearFlags v).acc = s.acc := rfl
@[simp] theorem State.clearFlags_rbdata (s : State) (v : Word) : (s.clearFlags v).rbdata = s.rbdata := rfl
@[simp] theorem State.clearFlags_ntaps (s : State) (v : Word) : (s.clearFlags v).ntaps = s.ntaps := rfl
@[simp] theorem State.clearFlags_h (s : State) (v : Word) : (s.clearFlags v).h = s.h := rfl
@[simp] theorem State.clearFlags_fir (s : State) (v : Word) : (s.clearFlags v).fir = s.fir := rfl
@[simp] theorem State.clearFlags_secs (s : State) (v : Word) : (s.clearFlags v).secs = s.secs := rfl
@[simp] theorem State.clearFlags_dmem (s : State) (v : Word) : (s.clearFlags v).dmem = s.dmem := rfl
@[simp] theorem State.clearFlags_lost (s : State) (v : Word) : (s.clearFlags v).lost = s.lost := rfl
@[simp] theorem State.clearFlags_rstN (s : State) (v : Word) : (s.clearFlags v).rstN = s.rstN := rfl
@[simp] theorem State.clearFlags_agenda (s : State) (v : Word) : (s.clearFlags v).agenda = s.agenda := rfl
@[simp] theorem State.clearFlags_resp (s : State) (v : Word) : (s.clearFlags v).resp = s.resp := rfl
@[simp] theorem State.clearFlags_draws (s : State) (v : Word) : (s.clearFlags v).draws = s.draws := rfl

end Sys2Proof.Machine
end

