-- ==== Sys2Proof/Laws/Ops.lean ====
section
/-! SUPPORT. What each shared operation can do: running a command, and the engine's access to DMEM. -/

namespace Sys2Proof.Machine

open Sys2Proof

/-- Everything running a command can do: raise its first error, or take its effect and complete. -/
theorem runCommand_cases {c : Option ErrCode} {f : State → State} {s t : State} (h : runCommand c f s = .next t) :
    (∃ e, c = some e ∧ t = s.raiseErr e) ∨ (c = none ∧ t = (f s).complete) := by
  unfold runCommand at h
  split at h
  · exact .inl ⟨_, rfl, by simpa using h.symm⟩
  · exact .inr ⟨rfl, by simpa using h.symm⟩

/-- A command always gives a next state. -/
theorem runCommand_next (c : Option ErrCode) (f : State → State) (s : State) : ∃ t, runCommand c f s = .next t := by
  unfold runCommand
  split <;> exact ⟨_, rfl⟩

@[simp] theorem runCommand_none (f : State → State) (s : State) : runCommand none f s = .next (f s).complete := rfl

@[simp] theorem runCommand_some (e : ErrCode) (f : State → State) (s : State) :
    runCommand (some e) f s = .next (s.raiseErr e) := rfl

/-! The first error of a list of checks. -/

@[simp] theorem firstErr_nil : firstErr [] = none := rfl

@[simp] theorem firstErr_none (cs : List (Option ErrCode)) : firstErr (none :: cs) = firstErr cs := rfl

@[simp] theorem firstErr_some (e : ErrCode) (cs : List (Option ErrCode)) : firstErr (some e :: cs) = some e := rfl

@[simp] theorem errIf_true (e : ErrCode) : errIf true e = some e := rfl

@[simp] theorem errIf_false (e : ErrCode) : errIf false e = none := rfl

theorem firstErr_eq_none {cs : List (Option ErrCode)} : firstErr cs = none ↔ ∀ c ∈ cs, c = none := by
  simp [firstErr]

@[simp] theorem errIf_eq_none {b : Bool} {e : ErrCode} : errIf b e = none ↔ b = false := by
  cases b <;> simp [errIf]

/-! Only DMEM and the count of draws differ. -/

/-- `t` is `s` but for DMEM and the count of draws. -/
def OnlyDmem (s t : State) : Prop := t = { s with dmem := t.dmem, draws := t.draws }

theorem OnlyDmem.refl (s : State) : OnlyDmem s s := rfl

theorem OnlyDmem.trans {s t u : State} (h : OnlyDmem s t) (h' : OnlyDmem t u) : OnlyDmem s u := by
  unfold OnlyDmem at *
  rw [h', h]

theorem OnlyDmem.params {s t : State} (h : OnlyDmem s t) : t.params = s.params := by rw [h]

theorem OnlyDmem.lost {s t : State} (h : OnlyDmem s t) : t.lost = s.lost := by rw [h]

theorem OnlyDmem.foldl {α : Type} {f : State → α → State} (hf : ∀ s a, OnlyDmem s (f s a)) (l : List α) (s : State) :
    OnlyDmem s (l.foldl f s) := by
  induction l generalizing s with
  | nil => exact OnlyDmem.refl s
  | cons a l ih => exact (hf s a).trans (ih _)

theorem OnlyDmem.readDmem (s : State) (a : Nat) : OnlyDmem s (s.readDmem a).2 := by
  unfold State.readDmem
  split <;> rfl

/-- A DMEM read leaves DMEM as it is. -/
@[simp] theorem State.readDmem_dmem (s : State) (a : Nat) : (s.readDmem a).2.dmem = s.dmem := by
  unfold State.readDmem
  split <;> rfl

/-- A specified DMEM word reads as it is, and draws nothing. -/
theorem State.readDmem_of_some {s : State} {a : Nat} {v : Word} (h : Memory.readWord s.dmem a = some v) :
    s.readDmem a = (v, s) := by
  unfold State.readDmem
  rw [h]

/-- An unspecified DMEM word draws. -/
theorem State.readDmem_of_none {s : State} {a : Nat} (h : Memory.readWord s.dmem a = none) : s.readDmem a = s.draw := by
  unfold State.readDmem
  rw [h]

theorem OnlyDmem.dread (s : State) (e : Nat) : OnlyDmem s (s.dread e).2 :=
  (OnlyDmem.readDmem s _).trans (OnlyDmem.readDmem _ _)

@[simp] theorem State.dread_dmem (s : State) (e : Nat) : (s.dread e).2.dmem = s.dmem := by
  simp [State.dread]

theorem OnlyDmem.writeDmem (s : State) (a : Nat) (v : Word) : OnlyDmem s (s.writeDmem a v) := rfl

theorem OnlyDmem.dwrite (s : State) (e : Nat) (z : Cplx) : OnlyDmem s (s.dwrite e z) :=
  (OnlyDmem.writeDmem s _ _).trans (OnlyDmem.writeDmem _ _ _)

theorem OnlyDmem.readRegion (s : State) (base n : Nat) : OnlyDmem s (s.readRegion base n).2 := by
  induction n generalizing s base with
  | zero => exact OnlyDmem.refl s
  | succ n ih => exact (OnlyDmem.dread s base).trans (ih _ _)

@[simp] theorem State.readRegion_dmem (s : State) (base n : Nat) : (s.readRegion base n).2.dmem = s.dmem := by
  induction n generalizing s base with
  | zero => rfl
  | succ n ih => simp [State.readRegion, ih]

@[simp] theorem State.readRegion_length (s : State) (base n : Nat) : (s.readRegion base n).1.length = n := by
  induction n generalizing s base with
  | zero => rfl
  | succ n ih => simp [State.readRegion, ih]

theorem OnlyDmem.writeEntries (s : State) (ws : List (Nat × Cplx)) : OnlyDmem s (s.writeEntries ws) := by
  unfold State.writeEntries
  refine OnlyDmem.foldl ?_ _ s
  intro s w
  exact OnlyDmem.dwrite s w.1 w.2

theorem OnlyDmem.writeRegion (s : State) (base : Nat) (zs : List Cplx) : OnlyDmem s (s.writeRegion base zs) :=
  OnlyDmem.writeEntries s _

theorem OnlyDmem.fft (s : State) (inv : Bool) (base n : Nat) : OnlyDmem s (s.fft inv base n) :=
  (OnlyDmem.readRegion s base n).trans (OnlyDmem.writeRegion _ _ _)

theorem OnlyDmem.permute (s : State) (base n : Nat) : OnlyDmem s (s.permute base n) :=
  (OnlyDmem.readRegion s base n).trans (OnlyDmem.writeEntries _ _)

theorem OnlyDmem.bflyAt (s : State) (inv : Bool) (e o t : Nat) : OnlyDmem s (s.bflyAt inv e o t) :=
  (((OnlyDmem.dread s e).trans (OnlyDmem.dread _ o)).trans (OnlyDmem.dwrite _ _ _)).trans (OnlyDmem.dwrite _ _ _)

theorem OnlyDmem.stage (s : State) (inv : Bool) (base n st : Nat) : OnlyDmem s (s.stage inv base n st) := by
  unfold State.stage
  refine OnlyDmem.foldl ?_ _ s
  intro s b
  exact OnlyDmem.bflyAt s inv b.1 b.2.1 b.2.2

theorem OnlyDmem.scaleAt (s : State) (n e : Nat) : OnlyDmem s (s.scaleAt n e) :=
  (OnlyDmem.dread s e).trans (OnlyDmem.dwrite _ _ _)

theorem OnlyDmem.scale (s : State) (base n : Nat) : OnlyDmem s (s.scale base n) := by
  unfold State.scale
  refine OnlyDmem.foldl ?_ _ s
  intro s i
  exact OnlyDmem.scaleAt s n (base + i)

theorem OnlyDmem.vcmulAt (s : State) (d e : Nat) : OnlyDmem s (s.vcmulAt d e) :=
  ((OnlyDmem.dread s d).trans (OnlyDmem.dread _ e)).trans (OnlyDmem.dwrite _ _ _)

theorem OnlyDmem.vcmul (s : State) (dst src count : Nat) : OnlyDmem s (s.vcmul dst src count) := by
  unfold State.vcmul
  refine OnlyDmem.foldl ?_ _ s
  intro s i
  exact OnlyDmem.vcmulAt s (dst + i) (src + i)

/-! DMEM after a write of entries. -/

/-- What a command's store leaves at a word it does not overlap: what was there. -/
theorem State.readWord_writeDmem_other (s : State) {a a' : Nat} (v : Word) (h : a' + 8 ≤ a ∨ a + 8 ≤ a') :
    Memory.readWord (s.writeDmem a v).dmem a' = Memory.readWord s.dmem a' := by
  rw [State.writeDmem_dmem]
  split
  · rfl
  · exact Memory.readWord_writeWord_other _ _ h

/-- What a command's store leaves at its own word: the value, or what was there if the word is lost (R153). -/
theorem State.readWord_writeDmem_same (s : State) (a : Nat) (v : Word) :
    Memory.readWord (s.writeDmem a v).dmem a = if a ∈ s.lost then Memory.readWord s.dmem a else some v := by
  rw [State.writeDmem_dmem]
  split
  · rfl
  · exact Memory.readWord_writeWord_same _ _ _

/-- A byte outside the word stored reads as before. -/
theorem State.read_writeDmem_other (s : State) {a a' : Nat} (v : Word) (h : a' < a ∨ a + 8 ≤ a') :
    Memory.read (s.writeDmem a v).dmem a' = Memory.read s.dmem a' := by
  rw [State.writeDmem_dmem]
  split
  · rfl
  · exact Memory.read_writeWord_other _ _ h

/-- A command's store to a lost word does nothing (R153). -/
theorem State.writeDmem_of_lost {s : State} {a : Nat} (v : Word) (h : a ∈ s.lost) : s.writeDmem a v = s := by
  unfold State.writeDmem
  rw [if_pos h]

/-- A command's store to any other word stores it. -/
theorem State.writeDmem_of_not_lost {s : State} {a : Nat} (v : Word) (h : a ∉ s.lost) :
    s.writeDmem a v = { s with dmem := Memory.writeWord s.dmem a v } := by
  unfold State.writeDmem
  rw [if_neg h]

/-- A byte of no entry written reads as before. -/
theorem State.read_dwrite_other (s : State) {e a : Nat} (z : Cplx) (h : a < 0x10000 + 16 * e ∨ 0x10000 + 16 * e + 16 ≤ a) :
    Memory.read (s.dwrite e z).dmem a = Memory.read s.dmem a := by
  rw [State.dwrite_dmem, State.read_writeDmem_other _ _ (by simp [dmemAddr]; omega),
    State.read_writeDmem_other _ _ (by simp [dmemAddr]; omega)]

/-- What a write of an entry leaves in it: each word stored, a lost one as it was. -/
theorem State.stored_dwrite (s : State) (e : Nat) (z : Cplx) : Stored s (s.dwrite e z) e z := by
  intro im
  cases im
  · rw [State.dwrite_dmem, State.readWord_writeDmem_other _ _ (by simp [dmemAddr]), State.readWord_writeDmem_same]
    rfl
  · rw [State.dwrite_dmem, State.readWord_writeDmem_same, State.readWord_writeDmem_other _ _ (by simp [dmemAddr]),
      State.writeDmem_lost]
    rfl

/-- A word of another entry reads as before. -/
theorem State.readWord_dwrite_other (s : State) {e e' : Nat} (z : Cplx) (im : Bool) (h : e' ≠ e) :
    Memory.readWord (s.dwrite e z).dmem (dmemAddr e' im) = Memory.readWord s.dmem (dmemAddr e' im) := by
  rw [State.dwrite_dmem, State.readWord_writeDmem_other _ _ (by cases im <;> simp [dmemAddr] <;> omega),
    State.readWord_writeDmem_other _ _ (by cases im <;> simp [dmemAddr] <;> omega)]

theorem State.wf_writeDmem {s : State} (a : Nat) (v : Word) (h : Memory.wf s.dmem = true) :
    Memory.wf (s.writeDmem a v).dmem = true := by
  rw [State.writeDmem_dmem]
  split
  · exact h
  · exact Memory.wf_writeWord _ _ h

theorem State.wf_dwrite {s : State} (e : Nat) (z : Cplx) (h : Memory.wf s.dmem = true) :
    Memory.wf (s.dwrite e z).dmem = true := State.wf_writeDmem _ _ (State.wf_writeDmem _ _ h)

theorem State.wf_writeEntries {s : State} (ws : List (Nat × Cplx)) (h : Memory.wf s.dmem = true) :
    Memory.wf (s.writeEntries ws).dmem = true := by
  induction ws generalizing s with
  | nil => exact h
  | cons w ws ih => exact ih (State.wf_dwrite w.1 w.2 h)

/-- A byte of no entry written reads as before, after any list of writes. -/
theorem State.read_writeEntries_other {s : State} {ws : List (Nat × Cplx)} {a : Nat}
    (h : ∀ w ∈ ws, a < 0x10000 + 16 * w.1 ∨ 0x10000 + 16 * w.1 + 16 ≤ a) :
    Memory.read (s.writeEntries ws).dmem a = Memory.read s.dmem a := by
  induction ws generalizing s with
  | nil => rfl
  | cons w ws ih =>
    show Memory.read ((s.dwrite w.1 w.2).writeEntries ws).dmem a = _
    rw [ih fun w' hw' => h w' (by simp [hw']), State.read_dwrite_other _ _ (h w (by simp))]

end Sys2Proof.Machine
end

