-- ==== Sys2Proof/Laws/Exec.lean ====
section
/-! SUPPORT. Every command is one run of its checks and its effect; when the checks pass; what each effect can change. -/

namespace Sys2Proof.Machine

open Sys2Proof

/-- The checks of a command. -/
def checkOf (p : Params) (taps : Nat) (i : Instr) : Option ErrCode :=
  match i with
  | .nop => none
  | .fft _ base n => regionCheck p base n
  | .bitrev base n => regionCheck p base n
  | .stage _ base n st => stageCheck p base n st
  | .scale base n => regionCheck p base n
  | .bfly _ e o t => bflyCheck p e o t
  | .vcmul dst src count => vcmulCheck p dst src count
  | .fir _ => firCheck p taps
  | .iir _ sec => iirCheck p sec
  | .sos first count => sosCheck p first count
  | .rbwr id => ringCheck p id
  | .rbrd id => ringCheck p id
  | .rbclr id => ringCheck p id

/-- The effect of a command. -/
def effectOf (i : Instr) (s : State) : State :=
  match i with
  | .nop => s
  | .fft inv base n => s.fft inv base n
  | .bitrev base n => s.permute base n
  | .stage inv base n st => s.stage inv base n st
  | .scale base n => s.scale base n
  | .bfly inv e o t => s.bflyAt inv e o t
  | .vcmul dst src count => s.vcmul dst src count
  | .fir clr => s.fir1 clr
  | .iir clr sec => s.iir1 clr sec
  | .sos first count => s.sos1 first count
  | .rbwr id => s.ringWrite id
  | .rbrd id => s.ringRead id
  | .rbclr id => s.ringClear id

/-- Every command runs its checks, and its effect if they pass. -/
theorem exec_eq (i : Instr) (s : State) : exec i s = runCommand (checkOf s.params s.ntaps.toNat i) (effectOf i) s := by
  cases i <;> rfl

/-- Everything a command can do: raise its error, or take its effect and complete. -/
theorem exec_cases {i : Instr} {s t : State} (h : exec i s = .next t) :
    (∃ e, checkOf s.params s.ntaps.toNat i = some e ∧ t = s.raiseErr e) ∨
      (checkOf s.params s.ntaps.toNat i = none ∧ t = (effectOf i s).complete) :=
  runCommand_cases (exec_eq i s ▸ h)

/-- What no command's effect changes: everything but its results (10_state.md R37). -/
structure KeepsConfig (s t : State) : Prop where
  params : t.params = s.params
  doneIe : t.doneIe = s.doneIe
  errIe : t.errIe = s.errIe
  done : t.done = s.done
  err : t.err = s.err
  eovf : t.eovf = s.eovf
  cmd : t.cmd = s.cmd
  errCode : t.errCode = s.errCode
  errInfo : t.errInfo = s.errInfo
  xin : t.xin = s.xin
  ntaps : t.ntaps = s.ntaps
  h : t.h = s.h
  lost : t.lost = s.lost
  rstN : t.rstN = s.rstN
  agenda : t.agenda = s.agenda
  resp : t.resp = s.resp

theorem OnlyDmem.keepsConfig {s t : State} (h : OnlyDmem s t) : KeepsConfig s t := by
  rw [h]
  constructor <;> rfl

theorem State.keepsConfig_setRing (s : State) (n : RingName) (r : RingBuf) : KeepsConfig s (s.setRing n r) := by
  cases n <;> constructor <;> rfl

theorem effectOf_keepsConfig (i : Instr) (s : State) : KeepsConfig s (effectOf i s) := by
  cases i with
  | nop => exact (OnlyDmem.refl s).keepsConfig
  | fft inv base n => exact (OnlyDmem.fft s inv base n).keepsConfig
  | bitrev base n => exact (OnlyDmem.permute s base n).keepsConfig
  | stage inv base n st => exact (OnlyDmem.stage s inv base n st).keepsConfig
  | scale base n => exact (OnlyDmem.scale s base n).keepsConfig
  | bfly inv e o t => exact (OnlyDmem.bflyAt s inv e o t).keepsConfig
  | vcmul dst src count => exact (OnlyDmem.vcmul s dst src count).keepsConfig
  | fir clr => constructor <;> rfl
  | iir clr sec => constructor <;> rfl
  | sos first count => constructor <;> rfl
  | rbwr id => exact s.keepsConfig_setRing _ _
  | rbrd id =>
    have h := s.keepsConfig_setRing (ringOf id) (s.ring (ringOf id)).read.2
    exact ⟨h.params, h.doneIe, h.errIe, h.done, h.err, h.eovf, h.cmd, h.errCode, h.errInfo, h.xin, h.ntaps, h.h, h.lost, h.rstN, h.agenda,
      h.resp⟩
  | rbclr id => exact s.keepsConfig_setRing _ _

/-! When the checks pass. -/

theorem isPow2_iff {n : Nat} : isPow2 n = true ↔ PowerOfTwo n := by
  simp only [isPow2, beq_iff_eq, PowerOfTwo]
  constructor
  · exact fun h => ⟨_, h.symm⟩
  · rintro ⟨k, rfl⟩
    rw [Nat.log2_two_pow]

@[simp] theorem isPow2_two_pow (k : Nat) : isPow2 (2 ^ k) = true := isPow2_iff.2 ⟨k, rfl⟩

theorem lenCheck_eq_none {p : Params} {n : Nat} : lenCheck p n = none ↔ PowerOfTwo n ∧ n ≤ p.nmax := by
  unfold lenCheck
  rw [← isPow2_iff]
  by_cases h : isPow2 n = true
  · simp only [h, Bool.not_true, Bool.false_eq_true, if_false, true_and, ← not_lt]
    split <;> simp_all
  · simp [h]

theorem regionCheck_eq_none {p : Params} {base n : Nat} :
    regionCheck p base n = none ↔ (PowerOfTwo n ∧ n ≤ p.nmax) ∧ base + n ≤ p.dmemEntries := by
  simp [regionCheck, firstErr_eq_none, lenCheck_eq_none, addrCheck]

theorem stageCheck_eq_none {p : Params} {base n st : Nat} :
    stageCheck p base n st = none ↔
      (PowerOfTwo n ∧ n ≤ p.nmax) ∧ (1 ≤ st ∧ st ≤ n.log2) ∧ base + n ≤ p.dmemEntries := by
  simp [stageCheck, firstErr_eq_none, lenCheck_eq_none, addrCheck]
  omega

theorem bflyCheck_eq_none {p : Params} {e o t : Nat} :
    bflyCheck p e o t = none ↔ (t < p.nmax / 2 ∧ e ≠ o) ∧ e < p.dmemEntries ∧ o < p.dmemEntries := by
  simp [bflyCheck, firstErr_eq_none]

theorem vcmulCheck_eq_none {p : Params} {dst src count : Nat} :
    vcmulCheck p dst src count = none ↔ dst + count ≤ p.dmemEntries ∧ src + count ≤ p.dmemEntries := by
  simp [vcmulCheck, firstErr_eq_none, addrCheck]

theorem firCheck_eq_none {p : Params} {taps : Nat} : firCheck p taps = none ↔ 1 ≤ taps ∧ taps ≤ p.firCap := by
  simp [firCheck]
  omega

theorem iirCheck_eq_none {p : Params} {sec : Nat} : iirCheck p sec = none ↔ sec < p.nsec := by
  simp [iirCheck]

theorem sosCheck_eq_none {p : Params} {first count : Nat} :
    sosCheck p first count = none ↔ 1 ≤ count ∧ first + count ≤ p.nsec := by
  simp [sosCheck, firstErr_eq_none]
  omega

theorem ringCheck_eq_none {p : Params} {id : Nat} : ringCheck p id = none ↔ id ≤ 2 * p.nsec := by
  simp [ringCheck]

/-! The value a filter accumulates from, and the sections a ring operation leaves. -/

@[simp] theorem State.setRing_secs_length (s : State) (n : RingName) (r : RingBuf) :
    (s.setRing n r).secs.length = s.secs.length := by
  cases n <;> simp [State.setRing]

theorem cascade_length (ks : List Nat) (v : Word) (secs : List Section) :
    (cascade ks v secs).2.length = secs.length := by
  induction ks generalizing v secs with
  | nil => rfl
  | cons k ks ih => simp [cascade, ih]

/-- A section read back from a list in which section k was replaced. -/
theorem getD_set (l : List Section) (k j : Nat) (c : Section) :
    (l.set k c).getD j Section.cleared = if j = k ∧ k < l.length then c else l.getD j Section.cleared := by
  by_cases h : j = k
  · subst h
    by_cases h' : j < l.length
    · simp [h']
    · simp [h', List.getD]
  · rw [if_neg (by tauto)]
    simp [List.getD, Ne.symm h]

end Sys2Proof.Machine
end

