-- ==== Sys2Proof/Laws/Dmem.lean ====
section
/-! SUPPORT. DMEM by entries: an entry after a write, after a list of writes, and after reads; the address range of what is stored. -/

namespace Sys2Proof.Machine

open Sys2Proof

/-- An entry depends on DMEM only. -/
theorem State.entry?_congr {s t : State} (h : t.dmem = s.dmem) (e : Nat) : t.entry? e = s.entry? e := by
  unfold State.entry?
  rw [h]

/-- Stored depends on DMEM and the lost words only. -/
theorem Stored.congr {s t u v : State} (h1 : u.dmem = s.dmem) (h2 : u.lost = s.lost) (h3 : v.dmem = t.dmem) {e : Nat} {z : Cplx}
    (h : Stored s t e z) : Stored u v e z := by
  intro im
  rw [h1, h2, h3]
  exact h im

/-- An entry none of whose words is lost holds just what was stored. -/
theorem Stored.entry? {s t : State} {e : Nat} {z : Cplx} (h : Stored s t e z) (hl : ∀ im, dmemAddr e im ∉ s.lost) :
    t.entry? e = some z := by
  unfold State.entry?
  rw [h false, h true, if_neg (hl _), if_neg (hl _)]
  rfl

/-- A specified entry has no lost word. -/
theorem State.not_lost_of_entry? {s : State} (hs : s.LostOk) {e : Nat} {z : Cplx} (h : s.entry? e = some z) (im : Bool) :
    dmemAddr e im ∉ s.lost := by
  intro hl
  have hn : Memory.readWord s.dmem (dmemAddr e im) = none := by
    have hr : Memory.read s.dmem (dmemAddr e im) = none := Memory.read_none_of_ne fun c hc => by
      have := (hs.2 _ hl).2 c hc
      omega
    simp [Memory.readWord, Memory.readBytes, hr]
  unfold State.entry? at h
  cases im
  · rw [hn] at h
    simp at h
  · rw [hn] at h
    revert h
    split <;> simp_all

/-- Another entry. -/
theorem State.entry?_dwrite_other (s : State) {e e' : Nat} (z : Cplx) (h : e' ≠ e) : (s.dwrite e z).entry? e' = s.entry? e' := by
  unfold State.entry?
  rw [State.readWord_dwrite_other _ _ _ h, State.readWord_dwrite_other _ _ _ h]

/-- A read of an entry leaves every entry. -/
@[simp] theorem State.entry?_dread (s : State) (e e' : Nat) : (s.dread e).2.entry? e' = s.entry? e' :=
  State.entry?_congr (State.dread_dmem s e) e'

@[simp] theorem State.entry?_readRegion (s : State) (base n e : Nat) : (s.readRegion base n).2.entry? e = s.entry? e :=
  State.entry?_congr (State.readRegion_dmem s base n) e

@[simp] theorem State.entry?_complete (s : State) (e : Nat) : s.complete.entry? e = s.entry? e := rfl

/-- Reading a specified entry gives its value and draws nothing. -/
theorem State.dread_of_entry? {s : State} {e : Nat} {z : Cplx} (h : s.entry? e = some z) : s.dread e = (z, s) := by
  unfold State.entry? at h
  split at h
  next a b ha hb =>
    obtain rfl := Option.some.inj h
    unfold State.dread
    rw [State.readDmem_of_some ha]
    dsimp only
    rw [State.readDmem_of_some hb]
  next => simp at h

/-- An entry no write names keeps its value. -/
theorem State.entry?_writeEntries_other {s : State} {ws : List (Nat × Cplx)} {e : Nat} (h : ∀ w ∈ ws, w.1 ≠ e) :
    (s.writeEntries ws).entry? e = s.entry? e := by
  induction ws generalizing s with
  | nil => rfl
  | cons w ws ih =>
    show ((s.dwrite w.1 w.2).writeEntries ws).entry? e = _
    rw [ih fun w' hw' => h w' (by simp [hw']), State.entry?_dwrite_other _ _ (Ne.symm (h w (by simp)))]

/-- A word of an entry no write names is as it was. -/
theorem State.readWord_writeEntries_other {s : State} {ws : List (Nat × Cplx)} {e : Nat} (im : Bool) (h : ∀ w ∈ ws, w.1 ≠ e) :
    Memory.readWord (s.writeEntries ws).dmem (dmemAddr e im) = Memory.readWord s.dmem (dmemAddr e im) := by
  induction ws generalizing s with
  | nil => rfl
  | cons w ws ih =>
    show Memory.readWord ((s.dwrite w.1 w.2).writeEntries ws).dmem _ = _
    rw [ih fun w' hw' => h w' (by simp [hw']), State.readWord_dwrite_other _ _ _ (Ne.symm (h w (by simp)))]

/-- An entry written exactly once holds what was stored. -/
theorem State.stored_writeEntries {s : State} {ws : List (Nat × Cplx)} (hd : (ws.map Prod.fst).Nodup) {w : Nat × Cplx}
    (hw : w ∈ ws) : Stored s (s.writeEntries ws) w.1 w.2 := by
  induction ws generalizing s with
  | nil => simp at hw
  | cons v ws ih =>
    rw [List.map_cons, List.nodup_cons] at hd
    intro im
    show Memory.readWord ((s.dwrite v.1 v.2).writeEntries ws).dmem _ = _
    obtain rfl | hw := List.mem_cons.1 hw
    · rw [State.readWord_writeEntries_other, State.stored_dwrite]
      intro w' hw' he
      exact hd.1 (he ▸ List.mem_map_of_mem hw')
    · have hne : w.1 ≠ v.1 := fun he => hd.1 (he ▸ List.mem_map_of_mem hw)
      rw [ih hd.2 hw im, State.dwrite_lost, State.readWord_dwrite_other _ _ _ hne]

/-- The entries of a region after it was written. -/
theorem State.stored_writeRegion {s : State} {base : Nat} {zs : List Cplx} {i : Nat} {z : Cplx} (h : zs[i]? = some z) :
    Stored s (s.writeRegion base zs) (base + i) z := by
  obtain ⟨hi, rfl⟩ := List.getElem?_eq_some_iff.1 h
  have hd : ((zs.mapIdx fun i z => (base + i, z)).map Prod.fst).Nodup := by
    rw [List.nodup_iff_injective_getElem]
    intro a b hab
    simp at hab
    omega
  have hm : (base + i, zs[i]) ∈ zs.mapIdx fun i z => (base + i, z) := by
    rw [List.mem_mapIdx]
    exact ⟨i, hi, rfl⟩
  exact State.stored_writeEntries (w := (base + i, zs[i])) hd hm

/-- What a command's store can list: bytes of its own word, which is then not lost. -/
theorem State.mem_writeDmem {s : State} {a : Nat} {v : Word} {c : Host.Cell} (h : c ∈ (s.writeDmem a v).dmem) :
    (a ≤ c.1 ∧ c.1 < a + 8) ∨ c ∈ s.dmem := by
  rw [State.writeDmem_dmem] at h
  split at h
  · exact .inr h
  · exact Memory.mem_writeWord h

/-- What a write of an entry can list. -/
theorem State.mem_dwrite {s : State} {e : Nat} {z : Cplx} {c : Host.Cell} (h : c ∈ (s.dwrite e z).dmem) :
    c ∈ s.dmem ∨ inEntry e c.1 := by
  rw [State.dwrite_dmem] at h
  obtain ⟨h1, h2⟩ | h := State.mem_writeDmem h
  · exact .inr (by simp only [dmemAddr, if_true] at h1 h2; constructor <;> omega)
  · obtain ⟨h1, h2⟩ | h := State.mem_writeDmem h
    · exact .inr (by simp only [dmemAddr, Bool.false_eq_true, if_false] at h1 h2; constructor <;> omega)
    · exact .inl h

/-- A write of an existing entry keeps DMEM well formed. -/
theorem State.dmemOk_dwrite {s : State} {e : Nat} (z : Cplx) (he : e < s.params.dmemEntries) (h : s.DmemOk) :
    (s.dwrite e z).DmemOk := by
  refine ⟨State.wf_dwrite e z h.1, ?_⟩
  intro c hc
  rw [State.dwrite_params]
  obtain hc | ⟨h1, h2⟩ := State.mem_dwrite hc
  · exact h.2 c hc
  · omega

/-- A command's store of a DMEM word keeps the lost words unspecified. -/
theorem State.lostOk_writeDmem {s : State} {a : Nat} (v : Word) (ha : a % 8 = 0) (h : s.LostOk) : (s.writeDmem a v).LostOk := by
  by_cases hl : a ∈ s.lost
  · rw [State.writeDmem_of_lost v hl]
    exact h
  · rw [State.writeDmem_of_not_lost v hl]
    refine ⟨h.1, fun b hb => ⟨(h.2 b hb).1, fun c hc => ?_⟩⟩
    have hba : b ≠ a := fun he => hl (he ▸ hb)
    have hb8 := (h.2 b hb).1.1
    obtain ⟨h1, h2⟩ | hc := Memory.mem_writeWord hc
    · omega
    · exact (h.2 b hb).2 c hc

theorem dmemAddr_mod (e : Nat) (im : Bool) : dmemAddr e im % 8 = 0 := by cases im <;> simp [dmemAddr] <;> omega

theorem State.lostOk_dwrite {s : State} (e : Nat) (z : Cplx) (h : s.LostOk) : (s.dwrite e z).LostOk :=
  State.lostOk_writeDmem _ (dmemAddr_mod e true) (State.lostOk_writeDmem _ (dmemAddr_mod e false) h)

/-- The host's store of a DMEM word too; the word itself is lost no more (R153). -/
theorem State.lostOk_hostDmem {s : State} {a : Nat} (v : Word) (ha : a % 8 = 0) (h : s.LostOk) : (s.hostDmem a v).LostOk := by
  refine ⟨Addrs.rising_remove a h.1, fun b hb => ?_⟩
  obtain ⟨hb, hba⟩ := Addrs.mem_remove.1 hb
  refine ⟨(h.2 b hb).1, fun c hc => ?_⟩
  have hb8 := (h.2 b hb).1.1
  obtain ⟨h1, h2⟩ | hc := Memory.mem_writeWord hc
  · omega
  · exact (h.2 b hb).2 c hc

/-! Lengths in the transform. -/

@[simp] theorem evens_map_range (x : Nat → Cplx) (n : Nat) :
    evens ((List.range (2 * n)).map x) = (List.range n).map (fun i => x (2 * i)) := by
  induction n generalizing x with
  | zero => rfl
  | succ n ih =>
    rw [show 2 * (n + 1) = 2 * n + 1 + 1 by ring, List.range_succ_eq_map, List.range_succ_eq_map, List.range_succ_eq_map]
    simp only [List.map_cons, List.map_map, evens]
    rw [show x ∘ Nat.succ ∘ Nat.succ = fun i => x (i + 2) from rfl, ih]
    simp [Function.comp_def, mul_add]

@[simp] theorem odds_map_range (x : Nat → Cplx) (n : Nat) :
    odds ((List.range (2 * n)).map x) = (List.range n).map (fun i => x (2 * i + 1)) := by
  induction n generalizing x with
  | zero => rfl
  | succ n ih =>
    rw [show 2 * (n + 1) = 2 * n + 1 + 1 by ring, List.range_succ_eq_map, List.range_succ_eq_map, List.range_succ_eq_map]
    simp only [List.map_cons, List.map_map, odds]
    rw [show x ∘ Nat.succ ∘ Nat.succ = fun i => x (i + 2) from rfl, ih]
    simp [Function.comp_def, mul_add]

theorem evens_length : ∀ x : List Cplx, (evens x).length = (x.length + 1) / 2
  | [] => rfl
  | [_] => by simp [evens]
  | _ :: _ :: r => by
    simp only [evens, List.length_cons, evens_length r]
    omega

theorem odds_length : ∀ x : List Cplx, (odds x).length = x.length / 2
  | [] => rfl
  | [_] => by simp [odds]
  | _ :: _ :: r => by
    simp only [odds, List.length_cons, odds_length r]
    omega

theorem combine_length (p : Params) (inv : Bool) (n : Nat) (es os : List Cplx) :
    (combine p inv n es os).length = 2 * min es.length os.length := by
  simp [combine]
  omega

/-- The recursion keeps the length of a sequence of length 2^l (R89). -/
theorem recFft_length (p : Params) (inv : Bool) (l : Nat) (x : List Cplx) (h : x.length = 2 ^ l) :
    (recFft p inv l x).length = 2 ^ l := by
  induction l generalizing x with
  | zero => exact h
  | succ l ih =>
    have he : (evens x).length = 2 ^ l := by rw [evens_length, h, pow_succ]; omega
    have ho : (odds x).length = 2 ^ l := by rw [odds_length, h, pow_succ]; omega
    simp only [recFft, combine_length, ih _ he, ih _ ho, min_self, pow_succ]
    ring

/-- FFT_ref keeps the length. -/
theorem fftRef_length (p : Params) (inv : Bool) (x : List Cplx) {l : Nat} (h : x.length = 2 ^ l) :
    (fftRef p inv x).length = 2 ^ l := by
  have := recFft_length p inv l x h
  unfold fftRef
  rw [h, Nat.log2_two_pow]
  dsimp only
  split
  · rw [List.length_map, this]
  · exact this

end Sys2Proof.Machine
end

