-- ==== Sys2Proof/Laws/Float.lean ====
section
/-! SUPPORT. The binary64 word: its three fields determine it, what the special words unpack to, and that rounding a representable value is exact. -/

namespace Sys2Proof.Machine

open Sys2Proof

/-! The fields of a word. -/

theorem toNat_withSign (neg : Bool) {bits : Nat} (h : bits < 2 ^ 63) :
    (withSign neg bits).toNat = (if neg then 2 ^ 63 else 0) + bits := by
  unfold withSign
  rw [BitVec.toNat_append, BitVec.toNat_ofNat, Nat.mod_eq_of_lt h, ← Nat.shiftLeft_add_eq_or_of_lt h, BitVec.toNat_ofBool,
    Nat.shiftLeft_eq]
  cases neg <;> simp

theorem msb_withSign (neg : Bool) (bits : Nat) : (withSign neg bits).msb = neg := by
  unfold withSign
  rw [BitVec.msb_append]
  cases neg <;> rfl

theorem expOf_eq (w : Word) : expOf w = w.toNat / 2 ^ 52 % 2 ^ 11 := by
  simp [expOf, BitVec.extractLsb'_toNat, Nat.shiftRight_eq_div_pow]

theorem fracOf_eq (w : Word) : fracOf w = w.toNat % 2 ^ 52 := by
  simp [fracOf, BitVec.extractLsb'_toNat]

theorem expOf_lt (w : Word) : expOf w < 2048 := by
  rw [expOf_eq]
  exact Nat.mod_lt _ (by norm_num)

theorem fracOf_lt (w : Word) : fracOf w < 2 ^ 52 := by
  rw [fracOf_eq]
  exact Nat.mod_lt _ (by norm_num)

theorem expOf_withSign (neg : Bool) {bits : Nat} (h : bits < 2 ^ 63) : expOf (withSign neg bits) = bits / 2 ^ 52 := by
  rw [expOf_eq, toNat_withSign _ h]
  split <;> omega

theorem fracOf_withSign (neg : Bool) {bits : Nat} (h : bits < 2 ^ 63) : fracOf (withSign neg bits) = bits % 2 ^ 52 := by
  rw [fracOf_eq, toNat_withSign _ h]
  split <;> omega

/-- A word is its sign, exponent and fraction. -/
theorem withSign_fields (w : Word) : withSign w.msb (expOf w * 2 ^ 52 + fracOf w) = w := by
  have hb : expOf w * 2 ^ 52 + fracOf w < 2 ^ 63 := by
    have := expOf_lt w
    have := fracOf_lt w
    omega
  apply BitVec.eq_of_toNat_eq
  rw [toNat_withSign _ hb, expOf_eq, fracOf_eq]
  have hw := w.isLt
  have hm : w.msb = decide (2 ^ 63 ≤ w.toNat) := BitVec.msb_eq_decide w
  rw [hm]
  by_cases h : 2 ^ 63 ≤ w.toNat
  · simp only [h, decide_true, if_true]
    omega
  · simp only [h, decide_false, Bool.false_eq_true, if_false]
    omega

/-! What a word unpacks to. -/

theorem unpack_nan {w : Word} (he : expOf w = 2047) (hf : fracOf w ≠ 0) : unpack w = .nan := by
  simp [unpack, he, hf]

theorem unpack_inf {w : Word} (he : expOf w = 2047) (hf : fracOf w = 0) : unpack w = .inf w.msb := by
  simp [unpack, he, hf]

theorem unpack_subnormal {w : Word} (he : expOf w = 0) : unpack w = .fin w.msb (fracOf w) := by
  simp [unpack, he]

theorem unpack_normal {w : Word} (h0 : expOf w ≠ 0) (he : expOf w ≠ 2047) :
    unpack w = .fin w.msb ((2 ^ 52 + fracOf w) * 2 ^ (expOf w - 1)) := by
  simp [unpack, he, h0]

/-- A word is finite exactly when it unpacks to a sign and a magnitude. -/
theorem isFinite_iff {w : Word} : isFinite w = true ↔ ∃ n m, unpack w = .fin n m := by
  unfold isFinite
  by_cases he : expOf w = 2047
  · by_cases hf : fracOf w = 0
    · simp [he, unpack_inf he hf]
    · simp [he, unpack_nan he hf]
  · by_cases h0 : expOf w = 0
    · simp [h0, unpack_subnormal h0]
    · simp [he, unpack_normal h0 he]

theorem isNaN_iff {w : Word} : isNaN w = true ↔ unpack w = .nan := by simp [isNaN]

/-- The sign of a finite word. -/
theorem msb_of_unpack {w : Word} {n : Bool} {m : Nat} (h : unpack w = .fin n m) : w.msb = n := by
  unfold unpack at h
  split at h
  · split at h <;> simp at h
  · split at h <;> simp only [Num.fin.injEq] at h <;> exact h.1

@[simp] theorem unpack_canonicalNaN : unpack canonicalNaN = .nan := by decide +kernel

@[simp] theorem unpack_infWord (neg : Bool) : unpack (infWord neg) = .inf neg := by cases neg <;> decide +kernel

@[simp] theorem unpack_zeroWord (neg : Bool) : unpack (zeroWord neg) = .fin neg 0 := by cases neg <;> decide +kernel

theorem zeroWord_false : zeroWord false = 0 := by decide

theorem zeroWord_true : zeroWord true = 0x8000000000000000 := by decide

/-- The bits of a finite magnitude say which magnitude it is. -/
theorem unpack_withSign (neg : Bool) {bits : Nat} (h : bits < 2047 * 2 ^ 52) :
    unpack (withSign neg bits) =
      .fin neg (if bits < 2 ^ 52 then bits else (2 ^ 52 + bits % 2 ^ 52) * 2 ^ (bits / 2 ^ 52 - 1)) := by
  have hb : bits < 2 ^ 63 := by omega
  by_cases h0 : bits < 2 ^ 52
  · rw [unpack_subnormal (by rw [expOf_withSign _ hb]; omega), msb_withSign, fracOf_withSign _ hb, if_pos h0,
      Nat.mod_eq_of_lt h0]
  · rw [unpack_normal (by rw [expOf_withSign _ hb]; omega) (by rw [expOf_withSign _ hb]; omega), msb_withSign,
      fracOf_withSign _ hb, expOf_withSign _ hb, if_neg h0]

/-! Rounding. -/

/-- The rounded word is never a NaN and has the sign asked for. -/
theorem unpack_roundMag (neg : Bool) (num den : Nat) :
    (∃ m, unpack (roundMag neg num den) = .fin neg m) ∨ unpack (roundMag neg num den) = .inf neg := by
  unfold roundMag
  dsimp only
  split
  next h => exact .inl ⟨_, unpack_withSign neg h⟩
  next h => exact .inr (unpack_infWord neg)

theorem roundDiv_mul (q : Nat) {den : Nat} (h : 0 < den) : roundDiv (q * den) den = q := by
  unfold roundDiv
  simp [Nat.mul_div_cancel q h, Nat.mul_mod_left]
  omega

/-- A significand of 53 bits shifted by e, or any smaller integer, rounds to itself. -/
theorem roundMag_of_significand (neg : Bool) {q e c : Nat} (hc : 0 < c) (hq : q < 2 ^ 53) (he : e = 0 ∨ 2 ^ 52 ≤ q)
    (hbits : e * 2 ^ 52 + q < 2047 * 2 ^ 52) : roundMag neg (q * 2 ^ e * c) c = withSign neg (e * 2 ^ 52 + q) := by
  have hd : dropBits (q * 2 ^ e * c) c = e := by
    unfold dropBits
    rw [Nat.mul_div_cancel _ hc]
    obtain rfl | hq' := he
    · have : Nat.log2 (q * 2 ^ 0) < 53 := by
        rw [pow_zero, mul_one]
        by_cases h : q = 0
        · simp [h]
        · exact (Nat.log2_lt h).2 hq
      omega
    · have h1 : q * 2 ^ e ≠ 0 := by positivity
      have h2 : Nat.log2 (q * 2 ^ e) < 53 + e := (Nat.log2_lt h1).2 (by rw [pow_add]; gcongr)
      have h3 : 52 + e ≤ Nat.log2 (q * 2 ^ e) := (Nat.le_log2 h1).2 (by rw [pow_add]; gcongr)
      omega
  have hr : roundDiv (q * 2 ^ e * c) (c * 2 ^ e) = q := by
    rw [show q * 2 ^ e * c = q * (c * 2 ^ e) by ring]
    exact roundDiv_mul q (by positivity)
  unfold roundMag
  dsimp only
  rw [hd, hr, if_pos hbits]

/-- Rounding the value of a finite word gives the word back, in any scale (R66: a representable value is not changed). -/
theorem roundMag_exact {w : Word} {n : Bool} {m c : Nat} (hc : 0 < c) (h : unpack w = .fin n m) : roundMag n (m * c) c = w := by
  have hlt := fracOf_lt w
  have hx := expOf_lt w
  by_cases he : expOf w = 2047
  · by_cases hf : fracOf w = 0
    · simp [unpack_inf he hf] at h
    · simp [unpack_nan he hf] at h
  · by_cases h0 : expOf w = 0
    · rw [unpack_subnormal h0] at h
      obtain ⟨rfl, rfl⟩ := Num.fin.inj h
      have := roundMag_of_significand (e := 0) w.msb hc (q := fracOf w) (by omega) (.inl rfl) (by omega)
      rw [pow_zero, mul_one] at this
      rw [this]
      conv_rhs => rw [← withSign_fields w, h0]
    · rw [unpack_normal h0 he] at h
      obtain ⟨rfl, rfl⟩ := Num.fin.inj h
      have := roundMag_of_significand w.msb hc (q := 2 ^ 52 + fracOf w) (e := expOf w - 1) (by omega) (.inr (by omega)) (by omega)
      rw [this, show (expOf w - 1) * 2 ^ 52 + (2 ^ 52 + fracOf w) = expOf w * 2 ^ 52 + fracOf w by omega]
      exact withSign_fields w

/-- Adding finite values is adding their signed magnitudes and rounding once. -/
theorem fadd_fin {a b : Word} {n₁ n₂ : Bool} {m₁ m₂ : Nat} (ha : unpack a = .fin n₁ m₁) (hb : unpack b = .fin n₂ m₂) :
    fadd a b = addFin n₁ m₁ n₂ m₂ := by
  simp [fadd, ha, hb]

/-- Multiplying finite values. -/
theorem fmul_fin {a b : Word} {n₁ n₂ : Bool} {m₁ m₂ : Nat} (ha : unpack a = .fin n₁ m₁) (hb : unpack b = .fin n₂ m₂) :
    fmul a b = if m₁ * m₂ = 0 then zeroWord (n₁ ^^ n₂) else roundMag (n₁ ^^ n₂) (m₁ * m₂) oneMag := by
  simp [fmul, ha, hb]

/-- A finite word of magnitude 0 is a signed zero. -/
theorem eq_zeroWord {w : Word} {n : Bool} (h : unpack w = .fin n 0) : w = zeroWord n := by
  rw [← roundMag_exact (c := 1) one_pos h, ← roundMag_exact (c := 1) one_pos (unpack_zeroWord n)]

/-- fneg changes the sign only. -/
theorem unpack_fneg (w : Word) :
    unpack (fneg w) = match unpack w with
      | .nan => .nan
      | .inf n => .inf (!n)
      | .fin n m => .fin (!n) m := by
  have hs : (fneg w).msb = !w.msb := by
    rw [fneg, BitVec.msb_xor, show (0x8000000000000000 : Word).msb = true from rfl, Bool.xor_true]
  have he : expOf (fneg w) = expOf w := by
    unfold expOf fneg
    congr 1
    apply BitVec.eq_of_getLsbD_eq
    intro k hk
    simp only [BitVec.getLsbD_extractLsb', hk, decide_true, Bool.true_and, BitVec.getLsbD_xor]
    rw [show BitVec.getLsbD (0x8000000000000000 : Word) (52 + k) = false from by
      interval_cases k <;> rfl]
    simp
  have hf : fracOf (fneg w) = fracOf w := by
    unfold fracOf fneg
    congr 1
    apply BitVec.eq_of_getLsbD_eq
    intro k hk
    simp only [BitVec.getLsbD_extractLsb', hk, decide_true, Bool.true_and, BitVec.getLsbD_xor]
    rw [show BitVec.getLsbD (0x8000000000000000 : Word) (0 + k) = false from by
      interval_cases k <;> rfl]
    simp
  unfold unpack
  rw [hs, he, hf]
  by_cases h1 : expOf w = 2047
  · by_cases h2 : fracOf w = 0 <;> simp [h1, h2]
  · by_cases h3 : expOf w = 0 <;> simp [h1, h3]

end Sys2Proof.Machine
end

