-- ==== Sys2Proof/Laws/PerInstr.lean ====
section
/-! SUPPORT. The per-instruction family LegalEncoding: the word of every command, whatever its operands, is a legal word of its own opcode (30_encoding.md R57, R59). -/

namespace Sys2Proof.Laws.LegalEncoding

open Sys2Proof Sys2Proof.Machine

/-- The opcode of a command (R57). -/
def opcode (i : Instr) : BitVec 8 :=
  match i with
  | .nop => 0x00
  | .fft _ _ _ => 0x01
  | .bitrev _ _ => 0x02
  | .stage _ _ _ _ => 0x03
  | .scale _ _ => 0x04
  | .bfly _ _ _ _ => 0x05
  | .vcmul _ _ _ => 0x06
  | .fir _ => 0x08
  | .iir _ _ => 0x09
  | .sos _ _ => 0x0A
  | .rbwr _ => 0x0C
  | .rbrd _ => 0x0D
  | .rbclr _ => 0x0E

/-- The command's word carries its opcode and leaves every reserved bit and unused field 0. -/
def Statement (i : Instr) : Prop := opcOf (encode i) = opcode i ∧ LegalWord (encode i)

theorem nop : Statement .nop := by
  refine ⟨?_, ⟨false, false, false, false, false⟩, ?_⟩ <;> simp [encode, commandWord, opcode, fieldUse]

theorem fft (inv : Bool) (base n : Nat) : Statement (.fft inv base n) := by
  refine ⟨?_, ⟨true, false, true, true, false⟩, ?_⟩ <;> simp [encode, commandWord, opcode, fieldUse]

theorem bitrev (base n : Nat) : Statement (.bitrev base n) := by
  refine ⟨?_, ⟨false, false, true, true, false⟩, ?_⟩ <;> simp [encode, commandWord, opcode, fieldUse]

theorem stage (inv : Bool) (base n s : Nat) : Statement (.stage inv base n s) := by
  refine ⟨?_, ⟨true, false, true, true, true⟩, ?_⟩ <;> simp [encode, commandWord, opcode, fieldUse]

theorem scale (base n : Nat) : Statement (.scale base n) := by
  refine ⟨?_, ⟨false, false, true, true, false⟩, ?_⟩ <;> simp [encode, commandWord, opcode, fieldUse]

theorem bfly (inv : Bool) (p q t : Nat) : Statement (.bfly inv p q t) := by
  refine ⟨?_, ⟨true, false, true, true, true⟩, ?_⟩ <;> simp [encode, commandWord, opcode, fieldUse]

theorem vcmul (dst src count : Nat) : Statement (.vcmul dst src count) := by
  refine ⟨?_, ⟨false, false, true, true, true⟩, ?_⟩ <;> simp [encode, commandWord, opcode, fieldUse]

theorem fir (clr : Bool) : Statement (.fir clr) := by
  refine ⟨?_, ⟨false, true, false, false, false⟩, ?_⟩ <;> simp [encode, commandWord, opcode, fieldUse]

theorem iir (clr : Bool) (sec : Nat) : Statement (.iir clr sec) := by
  refine ⟨?_, ⟨false, true, true, false, false⟩, ?_⟩ <;> simp [encode, commandWord, opcode, fieldUse]

theorem sos (first count : Nat) : Statement (.sos first count) := by
  refine ⟨?_, ⟨false, false, true, true, false⟩, ?_⟩ <;> simp [encode, commandWord, opcode, fieldUse]

theorem rbwr (id : Nat) : Statement (.rbwr id) := by
  refine ⟨?_, ⟨false, false, true, false, false⟩, ?_⟩ <;> simp [encode, commandWord, opcode, fieldUse]

theorem rbrd (id : Nat) : Statement (.rbrd id) := by
  refine ⟨?_, ⟨false, false, true, false, false⟩, ?_⟩ <;> simp [encode, commandWord, opcode, fieldUse]

theorem rbclr (id : Nat) : Statement (.rbclr id) := by
  refine ⟨?_, ⟨false, false, true, false, false⟩, ?_⟩ <;> simp [encode, commandWord, opcode, fieldUse]

end Sys2Proof.Laws.LegalEncoding
end

