-- ==== Sys2Proof/Laws/Reset.lean ====
section
/-! SUPPORT. What a reset leaves of DMEM: the bytes erased, the words lost, and that the lost words stay well formed (70_reset_and_hazards.md R153). -/

namespace Sys2Proof.Machine

open Sys2Proof

/-- Erasing an entry makes its sixteen bytes unspecified and leaves the others. -/
theorem Memory.read_eraseEntry (m : List Host.Cell) (e a : Nat) :
    Memory.read (eraseEntry m e) a = if inEntry e a then none else Memory.read m a := by
  simp only [eraseEntry, Memory.read_eraseWord, dmemAddr, if_true, Bool.false_eq_true, if_false]
  split_ifs <;> first | rfl | omega

/-- Erasing entries. -/
theorem Memory.read_foldl_eraseEntry (es : List Nat) (m : List Host.Cell) (a : Nat) :
    Memory.read (es.foldl eraseEntry m) a = if ∃ e ∈ es, inEntry e a then none else Memory.read m a := by
  induction es generalizing m with
  | nil => simp
  | cons e es ih =>
    rw [List.foldl_cons, ih, Memory.read_eraseEntry]
    by_cases h1 : inEntry e a
    · rw [if_pos h1, ite_self, if_pos ⟨e, by simp, h1⟩]
    · simp [h1]

/-- The words lost with a list of entries are theirs and the earlier ones. -/
theorem Addrs.mem_foldr_loseEntry {es l : List Nat} {a : Nat} :
    a ∈ es.foldr loseEntry l ↔ a ∈ l ∨ ∃ e ∈ es, ∃ im, a = dmemAddr e im := by
  induction es with
  | nil => simp
  | cons e es ih =>
    simp only [List.foldr_cons, loseEntry, Addrs.mem_insert, ih, List.exists_mem_cons_iff, Bool.exists_bool]
    rw [← or_assoc, or_left_comm]

theorem Addrs.rising_foldr_loseEntry {es l : List Nat} (h : l.Pairwise (· < ·)) : (es.foldr loseEntry l).Pairwise (· < ·) := by
  induction es with
  | nil => exact h
  | cons e es ih => exact Addrs.rising_insert _ (Addrs.rising_insert _ ih)

theorem Memory.mem_foldl_eraseEntry {es : List Nat} {m : List Host.Cell} {c : Host.Cell} (h : c ∈ es.foldl eraseEntry m) :
    c ∈ m ∧ ∀ e ∈ es, ¬ inEntry e c.1 := by
  induction es generalizing m with
  | nil => exact ⟨h, by simp⟩
  | cons e es ih =>
    obtain ⟨h1, h2⟩ := ih h
    simp only [eraseEntry, Memory.eraseWord, List.mem_filter, dmemAddr, if_true, Bool.false_eq_true, if_false, Bool.not_eq_true',
      Bool.and_eq_false_iff, decide_eq_false_iff_not] at h1
    refine ⟨h1.1.1, fun e' he' => ?_⟩
    obtain rfl | he' := List.mem_cons.1 he'
    · omega
    · exact h2 e' he'

/-- A reset that abandons existing entries keeps the lost words unspecified DMEM words. -/
theorem State.lostOk_doReset {s : State} (ha : ∀ e ∈ s.abandoned, e < s.params.dmemEntries) (h : s.LostOk) : s.doReset.LostOk := by
  refine ⟨Addrs.rising_foldr_loseEntry h.1, fun a hl => ?_⟩
  obtain hl | ⟨e, he, im, rfl⟩ := Addrs.mem_foldr_loseEntry.1 hl
  · exact ⟨(h.2 a hl).1, fun c hc => (h.2 a hl).2 c (Memory.mem_foldl_eraseEntry hc).1⟩
  · have := ha e he
    refine ⟨?_, fun c hc => ?_⟩
    · cases im <;> simp [dmemAddr] <;> omega
    · have hn := (Memory.mem_foldl_eraseEntry hc).2 e he
      cases im <;> simp only [dmemAddr, if_true, Bool.false_eq_true, if_false] <;> omega

/-- A command's writes of entries keep the lost words unspecified. -/
theorem State.lostOk_writeEntries {s : State} (ws : List (Nat × Cplx)) (h : s.LostOk) : (s.writeEntries ws).LostOk := by
  induction ws generalizing s with
  | nil => exact h
  | cons w ws ih => exact ih (State.lostOk_dwrite _ _ h)

theorem State.lostOk_congr {s t : State} (hd : t.dmem = s.dmem) (hl : t.lost = s.lost) (hp : t.params = s.params) (h : s.LostOk) :
    t.LostOk := by
  unfold State.LostOk at *
  rw [hd, hl, hp]
  exact h

end Sys2Proof.Machine
end

