-- ==== Sys2Proof/Laws/Ring.lean ====
section
/-! SUPPORT. The ring primitive: sizes and cursors are kept, and which slot a tap reads; the rings by name. -/

namespace Sys2Proof.Machine

open Sys2Proof

@[simp] theorem RingBuf.write_length (r : RingBuf) (v : Word) : (r.write v).slots.length = r.slots.length := by
  simp [RingBuf.write]

@[simp] theorem RingBuf.write_wc (r : RingBuf) (v : Word) : (r.write v).wc = (r.wc + 1) % r.slots.length := rfl

@[simp] theorem RingBuf.write_rc (r : RingBuf) (v : Word) : (r.write v).rc = r.rc := rfl

@[simp] theorem RingBuf.write_slots (r : RingBuf) (v : Word) : (r.write v).slots = r.slots.set r.wc v := rfl

@[simp] theorem RingBuf.cleared_length (cap : Nat) : (RingBuf.cleared cap).slots.length = cap := by
  simp [RingBuf.cleared]

theorem RingBuf.ok_write {r : RingBuf} {cap : Nat} (v : Word) (h : r.Ok cap) : (r.write v).Ok cap := by
  obtain ⟨h1, h2, h3⟩ := h
  exact ⟨by simp [h1], by simpa [h1] using Nat.mod_lt _ (by omega), h3⟩

theorem RingBuf.ok_read {r : RingBuf} {cap : Nat} (h : r.Ok cap) : r.read.2.Ok cap := by
  obtain ⟨h1, h2, h3⟩ := h
  refine ⟨h1, h2, ?_⟩
  show (r.rc + 1) % r.slots.length < cap
  rw [h1]
  exact Nat.mod_lt _ (by omega)

theorem RingBuf.ok_cleared {cap : Nat} (h : 0 < cap) : (RingBuf.cleared cap).Ok cap := ⟨by simp, h, h⟩

theorem RingBuf.ok_clear {r : RingBuf} {cap : Nat} (h : r.Ok cap) : r.clear.Ok cap := by
  obtain ⟨h1, h2, h3⟩ := h
  show (RingBuf.cleared r.slots.length).Ok cap
  rw [h1]
  exact RingBuf.ok_cleared (by omega)

/-- The slot of a tap lies in the ring. -/
theorem RingBuf.tapSlot_lt {r : RingBuf} {i : Nat} (h : 0 < r.slots.length) : r.tapSlot i < r.slots.length := by
  unfold RingBuf.tapSlot RingBuf.cap
  have h1 := Int.emod_nonneg ((r.wc : ℤ) - 1 - i) (show (r.slots.length : ℤ) ≠ 0 by omega)
  have h2 := Int.emod_lt_of_pos ((r.wc : ℤ) - 1 - i) (show 0 < (r.slots.length : ℤ) by omega)
  omega

/-- The slot of tap i, for a valid cursor and a tap in range: behind the cursor, around the end if needed (R104). -/
theorem RingBuf.tapSlot_eq {r : RingBuf} {i : Nat} (h : r.wc < r.slots.length) (hi : i < r.slots.length) :
    r.tapSlot i = if i < r.wc then r.wc - 1 - i else r.wc + r.slots.length - 1 - i := by
  unfold RingBuf.tapSlot RingBuf.cap
  split
  next hw => rw [Int.emod_eq_of_lt (by omega) (by omega)]; omega
  next hw =>
    rw [show (r.wc : ℤ) - 1 - i = (r.wc + r.slots.length - 1 - i : ℤ) - r.slots.length by ring, Int.sub_emod_right,
      Int.emod_eq_of_lt (by omega) (by omega)]
    omega

/-- The most recent value is tap 0 (R104). -/
theorem RingBuf.tap_write_zero {r : RingBuf} (v : Word) (h : r.wc < r.slots.length) : (r.write v).tap 0 = v := by
  have hl : 0 < r.slots.length := by omega
  have hm : (r.wc + 1) % r.slots.length < r.slots.length := Nat.mod_lt _ hl
  have hs : (r.write v).tapSlot 0 = r.wc := by
    rw [RingBuf.tapSlot_eq (by simpa using hm) (by simpa using hl), RingBuf.write_wc, RingBuf.write_length]
    by_cases he : r.wc + 1 = r.slots.length
    · rw [he, Nat.mod_self]
      simp
      omega
    · rw [Nat.mod_eq_of_lt (by omega)]
      simp
  unfold RingBuf.tap
  rw [hs]
  simp [List.getD, h]

/-- A write makes every older tap one step older (R104). -/
theorem RingBuf.tap_write_succ {r : RingBuf} {i : Nat} (v : Word) (h : r.wc < r.slots.length) (hi : i + 1 < r.slots.length) :
    (r.write v).tap (i + 1) = r.tap i := by
  have hl : 0 < r.slots.length := by omega
  have hm : (r.wc + 1) % r.slots.length < r.slots.length := Nat.mod_lt _ hl
  have hs : (r.write v).tapSlot (i + 1) = r.tapSlot i := by
    rw [RingBuf.tapSlot_eq (by simpa using hm) (by simpa using hi), RingBuf.tapSlot_eq h (by omega), RingBuf.write_wc,
      RingBuf.write_length]
    by_cases he : r.wc + 1 = r.slots.length
    · rw [he, Nat.mod_self]
      split <;> split <;> omega
    · rw [Nat.mod_eq_of_lt (by omega)]
      split <;> split <;> omega
  have hn : r.tapSlot i ≠ r.wc := by
    rw [RingBuf.tapSlot_eq h (by omega)]
    split <;> omega
  unfold RingBuf.tap
  rw [hs]
  simp [List.getD, Ne.symm hn]

/-- A cleared ring taps +0.0 (R105). -/
theorem RingBuf.tap_cleared (cap i : Nat) : (RingBuf.cleared cap).tap i = 0 := by
  unfold RingBuf.tap
  simp [RingBuf.cleared, List.getD, List.getElem?_replicate]
  split <;> rfl

/-! The rings by id. -/

theorem ringOf_zero : ringOf 0 = .fir := rfl

theorem ringOf_odd (s : Nat) : ringOf (2 * s + 1) = .xh s := by
  unfold ringOf
  rw [if_neg (by omega), if_pos (by omega), show (2 * s + 1 - 1) / 2 = s by omega]

theorem ringOf_even (s : Nat) : ringOf (2 * s + 2) = .yh s := by
  unfold ringOf
  rw [if_neg (by omega), if_neg (by omega), show (2 * s + 2 - 2) / 2 = s by omega]

/-- Different ids name different rings (R107). -/
theorem ringOf_injective {a b : Nat} (h : ringOf a = ringOf b) : a = b := by
  have split_id : ∀ n, n = 0 ∨ (∃ s, n = 2 * s + 1) ∨ ∃ s, n = 2 * s + 2 := fun n => by
    obtain h | ⟨k, h | h⟩ : n = 0 ∨ ∃ k, n = 2 * k + 1 ∨ n = 2 * k + 2 := by
      by_cases h : n = 0
      · exact .inl h
      · exact .inr ⟨(n - 1) / 2, by omega⟩
    · exact .inl h
    · exact .inr (.inl ⟨k, h⟩)
    · exact .inr (.inr ⟨k, h⟩)
  obtain rfl | ⟨s, rfl⟩ | ⟨s, rfl⟩ := split_id a <;> obtain rfl | ⟨t, rfl⟩ | ⟨t, rfl⟩ := split_id b <;>
    simp_all [ringOf_zero, ringOf_odd, ringOf_even]

/-- A section read back after one section was replaced. -/
theorem State.sec_set (s : State) (k j : Nat) (c : Section) :
    ({ s with secs := s.secs.set k c } : State).sec j = if j = k ∧ k < s.secs.length then c else s.sec j := by
  unfold State.sec
  by_cases h : j = k
  · subst h
    by_cases h' : j < s.secs.length
    · simp [h', List.getD]
    · simp [h', List.getD]
  · rw [if_neg (by tauto)]
    simp [List.getD, Ne.symm h]

/-- A ring put back and read again. -/
theorem State.ring_setRing_same {s : State} {n : RingName} (r : RingBuf)
    (h : ∀ k, n = .xh k ∨ n = .yh k → k < s.secs.length) : (s.setRing n r).ring n = r := by
  cases n with
  | fir => rfl
  | xh k =>
    have := h k (.inl rfl)
    simp [State.setRing, State.ring, State.sec_set, this]
  | yh k =>
    have := h k (.inr rfl)
    simp [State.setRing, State.ring, State.sec_set, this]

/-- Another ring is untouched. -/
theorem State.ring_setRing_other {s : State} {n m : RingName} (r : RingBuf) (h : m ≠ n) :
    (s.setRing n r).ring m = s.ring m := by
  cases n <;> cases m <;> simp only [State.setRing, State.ring, State.sec_set, ne_eq, RingName.xh.injEq, RingName.yh.injEq,
    not_true_eq_false] at h ⊢
  all_goals first
    | rfl
    | (split
       · simp_all
       · rfl)

/-- Replacing a ring keeps every coefficient. -/
theorem State.coef_setRing (s : State) (n : RingName) (r : RingBuf) (k : Nat) (c : Coef) :
    ((s.setRing n r).sec k).coef c = (s.sec k).coef c := by
  cases n <;> simp only [State.setRing, State.sec_set]
  · rfl
  all_goals
    split
    next h => obtain ⟨rfl, -⟩ := h; cases c <;> rfl
    next => rfl

end Sys2Proof.Machine
end

