-- ==== Sys2Proof/Laws/Sizes.lean ====
section
/-! SUPPORT. Sizes and DMEM's range are kept: every ring operation, filter and DMEM command of a well-formed state leaves well-sized rings and a canonical DMEM. -/

namespace Sys2Proof.Machine

open Sys2Proof

theorem Section.ok_cleared : Section.cleared.Ok := ⟨RingBuf.ok_cleared (by norm_num), RingBuf.ok_cleared (by norm_num)⟩

/-- Every section a command names has well-sized rings, one beyond the last too. -/
theorem Section.ok_getD {l : List Section} (h : ∀ c ∈ l, c.Ok) (k : Nat) : (l.getD k Section.cleared).Ok := by
  by_cases hk : k < l.length
  · rw [List.getD_eq_getElem _ _ hk]
    exact h _ (List.getElem_mem hk)
  · rw [List.getD_eq_default _ _ (by omega)]
    exact Section.ok_cleared

theorem Section.ok_set {l : List Section} (h : ∀ c ∈ l, c.Ok) {c : Section} (hc : c.Ok) (k : Nat) : ∀ d ∈ l.set k c, d.Ok := by
  intro d hd
  obtain hd | rfl := List.mem_or_eq_of_mem_set hd
  · exact h _ hd
  · exact hc

theorem Section.ok_biquad {c : Section} (h : c.Ok) (x acc : Word) : (biquad c x acc).2.Ok :=
  ⟨RingBuf.ok_write _ h.1, RingBuf.ok_write _ h.2⟩

theorem Section.ok_cascade (ks : List Nat) (v : Word) {l : List Section} (h : ∀ c ∈ l, c.Ok) : ∀ c ∈ (cascade ks v l).2, c.Ok := by
  induction ks generalizing v l with
  | nil => exact h
  | cons k ks ih => exact ih _ (Section.ok_set h (Section.ok_biquad (Section.ok_getD h k) v posZero) k)

/-- Putting back a ring of the same size keeps the sizes. -/
theorem State.sized_setRing {s : State} {n : RingName} {r : RingBuf} (h : s.Sized) (hr : ∀ cap, (s.ring n).Ok cap → r.Ok cap) :
    (s.setRing n r).Sized := by
  obtain ⟨h1, h2, h3, h4⟩ := h
  cases n with
  | fir => exact ⟨h1, hr _ h2, h3, h4⟩
  | xh k =>
    have hc : Section.Ok { s.sec k with xh := r } := ⟨hr _ (Section.ok_getD h4 k).1, (Section.ok_getD h4 k).2⟩
    exact ⟨h1, h2, by simpa [State.setRing] using h3, Section.ok_set h4 hc k⟩
  | yh k =>
    have hc : Section.Ok { s.sec k with yh := r } := ⟨(Section.ok_getD h4 k).1, hr _ (Section.ok_getD h4 k).2⟩
    exact ⟨h1, h2, by simpa [State.setRing] using h3, Section.ok_set h4 hc k⟩

theorem OnlyDmem.sized {s t : State} (h : OnlyDmem s t) (hs : s.Sized) : t.Sized := by
  rw [h]
  exact hs

/-- Every command's effect keeps the sizes (43_ring_buffer.md R101). -/
theorem State.sized_effectOf (i : Instr) {s : State} (h : s.Sized) : (effectOf i s).Sized := by
  have ⟨h1, h2, h3, h4⟩ := h
  cases i with
  | nop => exact h
  | fft inv base n => exact (OnlyDmem.fft s inv base n).sized h
  | bitrev base n => exact (OnlyDmem.permute s base n).sized h
  | stage inv base n st => exact (OnlyDmem.stage s inv base n st).sized h
  | scale base n => exact (OnlyDmem.scale s base n).sized h
  | bfly inv e o t => exact (OnlyDmem.bflyAt s inv e o t).sized h
  | vcmul dst src count => exact (OnlyDmem.vcmul s dst src count).sized h
  | fir clr => exact ⟨h1, RingBuf.ok_write _ h2, h3, h4⟩
  | iir clr k =>
    exact ⟨h1, h2, by simpa [effectOf, State.iir1] using h3, Section.ok_set h4 (Section.ok_biquad (Section.ok_getD h4 k) _ _) k⟩
  | sos first count => exact ⟨h1, h2, by simpa [effectOf, State.sos1, cascade_length] using h3, Section.ok_cascade _ _ h4⟩
  | rbwr id => exact State.sized_setRing h fun _ hr => RingBuf.ok_write _ hr
  | rbrd id =>
    have hr := State.sized_setRing (n := ringOf id) (r := (s.ring (ringOf id)).read.2) h fun _ hr => RingBuf.ok_read hr
    exact hr
  | rbclr id => exact State.sized_setRing h fun _ hr => RingBuf.ok_clear hr

/-! DMEM's form. -/

theorem State.dmemOk_congr {s t : State} (hd : t.dmem = s.dmem) (hp : t.params = s.params) (h : s.DmemOk) : t.DmemOk := by
  unfold State.DmemOk at *
  rw [hd, hp]
  exact h

theorem State.dmemOk_dread {s : State} (e : Nat) (h : s.DmemOk) : (s.dread e).2.DmemOk :=
  State.dmemOk_congr (State.dread_dmem s e) (OnlyDmem.dread s e).params h

theorem State.dmemOk_readRegion {s : State} (base n : Nat) (h : s.DmemOk) : (s.readRegion base n).2.DmemOk :=
  State.dmemOk_congr (State.readRegion_dmem s base n) (OnlyDmem.readRegion s base n).params h

theorem State.dmemOk_writeEntries {s : State} {ws : List (Nat × Cplx)} (hw : ∀ w ∈ ws, w.1 < s.params.dmemEntries) (h : s.DmemOk) :
    (s.writeEntries ws).DmemOk := by
  induction ws generalizing s with
  | nil => exact h
  | cons w ws ih =>
    refine ih (fun w' hw' => ?_) (State.dmemOk_dwrite _ (hw _ (by simp)) h)
    rw [State.dwrite_params]
    exact hw _ (by simp [hw'])

/-- A butterfly on two existing entries. -/
theorem State.dmemOk_bflyAt {s : State} {e o : Nat} (inv : Bool) (t : Nat) (he : e < s.params.dmemEntries)
    (ho : o < s.params.dmemEntries) (h : s.DmemOk) : (s.bflyAt inv e o t).DmemOk := by
  have hp : ((s.dread e).2.dread o).2.params = s.params := by rw [(OnlyDmem.dread _ _).params, (OnlyDmem.dread _ _).params]
  refine State.dmemOk_dwrite _ ?_ (State.dmemOk_dwrite _ ?_ (State.dmemOk_dread _ (State.dmemOk_dread _ h)))
  · rw [State.dwrite_params, hp]
    exact ho
  · rw [hp]
    exact he

/-- A loop whose every turn keeps DMEM well formed. -/
theorem State.dmemOk_foldl {α : Type} {f : State → α → State} (hf : ∀ s a, OnlyDmem s (f s a)) {l : List α} {p : Params}
    (hd : ∀ s a, a ∈ l → s.params = p → s.DmemOk → (f s a).DmemOk) {s : State} (hp : s.params = p) (h : s.DmemOk) :
    (l.foldl f s).DmemOk := by
  induction l generalizing s with
  | nil => exact h
  | cons a l ih =>
    exact ih (fun s b hb => hd s b (by simp [hb])) (by rw [(hf s a).params, hp]) (hd s a (by simp) hp h)

/-- A bit-reversed index stays in range (41_fft.md R85). -/
theorem bitrev_lt (l i : Nat) : bitrev l i < 2 ^ l := by
  induction l generalizing i with
  | zero => simp [bitrev]
  | succ l ih =>
    have h1 := ih (i / 2)
    have h2 : i % 2 * 2 ^ l ≤ 1 * 2 ^ l := Nat.mul_le_mul_right _ (by omega)
    simp only [bitrev, pow_succ]
    omega

end Sys2Proof.Machine
end

