-- ==== Sys2Proof/Laws/Step.lean ====
section
/-! SUPPORT. What one step can do: the turn it takes and the operation that turn runs. -/

namespace Sys2Proof.Machine

open Sys2Proof

/-- What the engine's turn can do: nothing while idle, a command, or ILLEGAL_CMD. -/
theorem engineTurn_cases {s t : State} (h : engineTurn s = .next t) :
    (s.busy = false ∧ t = s) ∨ (s.busy = true ∧ ∃ i, decode s.cmd = .command i ∧ exec i s = .next t) ∨
      (s.busy = true ∧ (∃ y, decode s.cmd = .illegal y) ∧ t = s.raiseErr .illegalCmd) := by
  unfold engineTurn engineStep at h
  split at h
  next hb =>
    split at h
    next i hi => exact .inr (.inl ⟨hb, i, hi, h⟩)
    next y hy => exact .inr (.inr ⟨hb, ⟨y, hy⟩, by simpa using h.symm⟩)
  next hb => exact .inl ⟨by simpa using hb, by simpa using h.symm⟩

/-- What one agent's turn can do. -/
theorem takeTurn_cases {u : Turn} {s t : State} (h : takeTurn u s = .next t) :
    (∃ r, u = .host r ∧ t = s.hostAccess r) ∨ (u = .engine ∧ engineTurn s = .next t) ∨
      (∃ level, u = .rstEdge level ∧ t = s.clockEdge level) := by
  cases u with
  | host r => exact .inl ⟨r, rfl, by simpa [takeTurn] using h.symm⟩
  | engine => exact .inr (.inl ⟨rfl, h⟩)
  | rstEdge level => exact .inr (.inr ⟨level, rfl, by simpa [takeTurn] using h.symm⟩)

/-- Everything a step can do: out of reset the first coming turn, or the engine's if none is lined up; in reset a clock edge, or
waiting. -/
theorem step_cases {s t : State} (h : step s = .next t) :
    (s.rstN = true ∧ ∃ u us, s.agenda = u :: us ∧ takeTurn u { s with agenda := us, resp := none } = .next t) ∨
      (s.rstN = true ∧ s.agenda = [] ∧ engineTurn { s with resp := none } = .next t) ∨
      (s.rstN = false ∧ ∃ level us, takeEdge s.agenda = some (level, us) ∧
        t = State.clockEdge { s with agenda := us, resp := none } level) ∨
      (s.rstN = false ∧ takeEdge s.agenda = none ∧ t = { s with resp := none }) := by
  unfold step turn at h
  split at h
  next hr =>
    unfold nextTurn at h
    split at h
    next u us hu => exact .inl ⟨hr, u, us, hu, h⟩
    next hu => exact .inr (.inl ⟨hr, hu, h⟩)
  next hr =>
    have hr' : s.rstN = false := by simpa using hr
    unfold heldInReset at h
    split at h
    next level us hu => exact .inr (.inr (.inl ⟨hr', level, us, hu, by simpa using h.symm⟩))
    next hu => exact .inr (.inr (.inr ⟨hr', hu, by simpa using h.symm⟩))

/-- Everything a host write can do (47_control.md R128). -/
theorem hostWrite_cases (s : State) (a : Addr) (v : Word) :
    (s.hostWrite a v = { s with resp := some ⟨true, none⟩ } ∧ ∀ l, locate s.params a.toNat = some l → l.readOnly = true) ∨
      ∃ l, locate s.params a.toNat = some l ∧ l.readOnly = false ∧ s.hostWrite a v = (s.writeLoc a l v).ack := by
  unfold State.hostWrite
  split
  next hl => exact .inl ⟨rfl, fun l' hl' => by rw [hl] at hl'; cases hl'⟩
  next l hl =>
    split
    next hr => exact .inl ⟨rfl, fun l' hl' => by rw [hl] at hl'; obtain rfl := Option.some.inj hl'; exact hr⟩
    next hr => exact .inr ⟨l, hl, by simpa using hr, rfl⟩

/-- Everything a write to a writable location can do: issue, set the enables or reset, clear flags, or store unless BUSY. -/
theorem writeLoc_cases (s : State) (a : Addr) (l : Loc) (v : Word) :
    (l = .cmd ∧ s.writeLoc a l v = s.issue v) ∨ (l = .ctrl ∧ s.writeLoc a l v = s.writeCtrl v) ∨
      (l = .status ∧ s.writeLoc a l v = s.clearFlags v) ∨
      (l ≠ .cmd ∧ l ≠ .ctrl ∧ l ≠ .status ∧
        s.writeLoc a l v = if s.busy then s.record .busyWrite (a.setWidth 64) else s.storeLoc l v) := by
  cases l <;> simp [State.writeLoc]

/-- A reset leaves the reset state but for DMEM, its lost words and the model's own fields (70_reset_and_hazards.md R151). -/
theorem State.doReset_eq (s : State) :
    s.doReset = { State.resetFor s.params with
      dmem := s.abandoned.foldl eraseEntry s.dmem
      lost := s.abandoned.foldr loseEntry s.lost
      rstN := s.rstN
      agenda := s.agenda
      resp := s.resp
      draws := s.draws } := rfl

/-- With nothing pending a reset abandons nothing (R153). -/
theorem State.abandoned_of_idle {s : State} (h : s.busy = false) : s.abandoned = [] := by
  simp [State.abandoned, h]

end Sys2Proof.Machine
end

