-- ==== Sys2Proof/Tests/Slice0.lean ====
section
/-! SUPPORT. Small tests. Every expected value is from spec/: the worked encodings of 30_encoding.md R64, the vectors of 95_test_vectors.md (id in the comment), or an example of the rule named. -/

namespace Sys2Proof.Tests

open Sys2Proof Sys2Proof.Machine

set_option Elab.async false

/-! WellFormed: an ill-formed command for each operand it checks. -/

theorem test_wf_fft_base : ¬ (Instr.fft false 65536 4).WellFormed := by decide
theorem test_wf_fft_n : ¬ (Instr.fft true 0 65536).WellFormed := by decide
theorem test_wf_bitrev_base : ¬ (Instr.bitrev 65536 8).WellFormed := by decide
theorem test_wf_bitrev_n : ¬ (Instr.bitrev 0 70000).WellFormed := by decide
theorem test_wf_stage_base : ¬ (Instr.stage false 65536 8 1).WellFormed := by decide
theorem test_wf_stage_n : ¬ (Instr.stage false 0 65536 1).WellFormed := by decide
theorem test_wf_stage_s : ¬ (Instr.stage true 0 8 65536).WellFormed := by decide
theorem test_wf_scale_base : ¬ (Instr.scale 65536 4).WellFormed := by decide
theorem test_wf_scale_n : ¬ (Instr.scale 0 65536).WellFormed := by decide
theorem test_wf_bfly_p : ¬ (Instr.bfly false 65536 1 0).WellFormed := by decide
theorem test_wf_bfly_q : ¬ (Instr.bfly false 0 65536 0).WellFormed := by decide
theorem test_wf_bfly_t : ¬ (Instr.bfly true 0 1 65536).WellFormed := by decide
theorem test_wf_vcmul_dst : ¬ (Instr.vcmul 65536 0 1).WellFormed := by decide
theorem test_wf_vcmul_src : ¬ (Instr.vcmul 0 65536 1).WellFormed := by decide
theorem test_wf_vcmul_count : ¬ (Instr.vcmul 0 0 65536).WellFormed := by decide
theorem test_wf_iir_sec : ¬ (Instr.iir true 65536).WellFormed := by decide
theorem test_wf_sos_first : ¬ (Instr.sos 65536 1).WellFormed := by decide
theorem test_wf_sos_count : ¬ (Instr.sos 0 65536).WellFormed := by decide
theorem test_wf_rbwr : ¬ (Instr.rbwr 65536).WellFormed := by decide
theorem test_wf_rbrd : ¬ (Instr.rbrd 65536).WellFormed := by decide
theorem test_wf_rbclr : ¬ (Instr.rbclr 65536).WellFormed := by decide
theorem test_wf_largest : (Instr.stage true 65535 65535 65535).WellFormed := by decide

/-! Decoding: the worked encodings of R64, one or more for each constructor. -/

theorem test_decode_nop : decode 0x0000000000000000 = .command .nop := by decide
theorem test_decode_fft : decode 0x0000000800100001 = .command (.fft false 16 8) := by decide
theorem test_decode_fft_inverse : decode 0x0000000400000101 = .command (.fft true 0 4) := by decide
theorem test_decode_bitrev : decode 0x0000000800000002 = .command (.bitrev 0 8) := by decide
theorem test_decode_stage : decode 0x0003000800000003 = .command (.stage false 0 8 3) := by decide
theorem test_decode_stage_inverse : decode 0x0001000800000103 = .command (.stage true 0 8 1) := by decide
theorem test_decode_scale : decode 0x0000000400000004 = .command (.scale 0 4) := by decide
theorem test_decode_bfly_inverse : decode 0x0100000600020105 = .command (.bfly true 2 6 256) := by decide
theorem test_decode_vcmul : decode 0x0004000400000006 = .command (.vcmul 0 4 4) := by decide
theorem test_decode_fir : decode 0x0000000000000008 = .command (.fir false) := by decide
theorem test_decode_fir_clear : decode 0x0000000000000208 = .command (.fir true) := by decide
theorem test_decode_iir_clear : decode 0x0000000000030209 = .command (.iir true 3) := by decide
theorem test_decode_sos : decode 0x000000020000000A = .command (.sos 0 2) := by decide
theorem test_decode_rbwr : decode 0x000000000001000C = .command (.rbwr 1) := by decide
theorem test_decode_rbrd : decode 0x000000000000000D = .command (.rbrd 0) := by decide
theorem test_decode_rbclr : decode 0x000000000004000E = .command (.rbclr 4) := by decide

/-- L2.11: FFT with FC = 1; R59 -/
theorem test_decode_unused_field : decode 0x0001000600000001 = .illegal .unusedField := by decide
/-- L2.11: FIR with INV = 1 -/
theorem test_decode_fir_inv : decode 0x0000000000000108 = .illegal .unusedField := by decide
/-- L2.11: reserved bit 10 -/
theorem test_decode_reserved_bit : decode 0x0000000400000401 = .illegal .reservedBits := by decide
/-- L2.11: opcode 0x07; R60 -/
theorem test_decode_reserved_opcode : decode 0x0000000000000007 = .illegal .reservedOpcode := by decide
/-- R58: no two rows match the same word, since their opcodes differ under both masks -/
theorem test_rows_disjoint :
    opRows.Pairwise (fun r q => r.pat &&& q.mask &&& r.mask ≠ q.pat &&& r.mask &&& q.mask) := by decide
/-- L2.11, the host's numbering: FFT 0, 3 -/
theorem test_decodeTableWord : decodeTableWord 64 0x0000000300000001 = some (.fft false 0 3) := by decide

theorem test_encode_bfly : encode (.bfly true 2 6 256) = 0x0100000600020105 := by decide
theorem test_encode_iir : encode (.iir true 3) = 0x0000000000030209 := by decide

/-! Arithmetic (L2.1) and the ROM (L2.2). -/

/-- A1: 0.1 + 0.2 -/
theorem test_fadd_rounds : fadd 0x3FB999999999999A 0x3FC999999999999A = 0x3FD3333333333334 := by decide +kernel
/-- A2 -/
theorem test_fsub_zeros : fsub 0x8000000000000000 0 = 0x8000000000000000 ∧ fsub 0 0 = 0 := by decide +kernel
/-- A3 -/
theorem test_fmul_rounds : fmul 0x3FE6A09E667F3BCD 0x3FE6A09E667F3BCD = 0x3FE0000000000001 := by decide +kernel
/-- A4 -/
theorem test_invalid_operations :
    fmul 0x8000000000000000 0x7FF0000000000000 = canonicalNaN ∧
    fadd 0x7FF0000000000000 0xFFF0000000000000 = canonicalNaN := by decide +kernel
/-- A5: a signalling NaN operand -/
theorem test_fadd_nan : fadd 0x7FF0000000000001 0x3FF0000000000000 = 0x7FF8000000000000 := by decide +kernel
/-- A6: the least subnormal divided by 4 -/
theorem test_fdiv_underflows : fdiv 1 0x4010000000000000 = 0 := by decide +kernel
/-- R66: a product too large rounds to infinity -/
theorem test_fmul_overflows : fmul 0x7FEFFFFFFFFFFFFF 0xC000000000000000 = 0xFFF0000000000000 := by decide +kernel
/-- A8 -/
theorem test_cmul_signed_zero :
    cmul ⟨0x8000000000000000, 0⟩ ⟨0x3FF0000000000000, 0⟩ = ⟨0x8000000000000000, 0⟩ := by decide +kernel
/-- A9 -/
theorem test_cdivn : cdivn ⟨0x4010000000000000, 0xC000000000000000⟩ 4 = ⟨0x3FF0000000000000, 0xBFE0000000000000⟩ := by
  decide +kernel
/-- T2 -/
theorem test_rom_64 : romEntry Params.default 64 = ⟨0x3FED906BCF328D46, 0x3FD87DE2A6AEA963⟩ := by decide +kernel
/-- T4 -/
theorem test_rom_256 : romEntry Params.default 256 = ⟨0, 0x3FF0000000000000⟩ := by decide +kernel
/-- T5, T6 -/
theorem test_rom_384_511 :
    romEntry Params.default 384 = ⟨0xBFE6A09E667F3BCD, 0x3FE6A09E667F3BCD⟩ ∧
    romEntry Params.default 511 = ⟨0xBFEFFFD8858E8A92, 0x3F7921F0FE670071⟩ := by decide +kernel
/-- R85 example -/
theorem test_bitrev3 : (List.range 8).map (bitrev 3) = [0, 4, 2, 6, 1, 5, 3, 7] := by decide

/-! One step on a small state. -/

/-- The state after reset with the given DMEM entries written by the host, and the command word pending. -/
def ready (entries : List (Nat × Cplx)) (w : Nat) : State := (State.reset.writeEntries entries).withFetchWord 64 w

/-- What a view of the next state gives, none if the step stops. -/
def after {α : Type} (s : State) (view : State → α) : Option α :=
  match step s with
  | .next t => some (view t)
  | .fault _ => none
  | .refused _ => none

/-- The DMEM words of the first n entries. -/
def entries (n : Nat) (s : State) : List Cplx := (s.readRegion 0 n).1

/-- Real entries 0, 1, ..., each (i, +0.0), of the values given. -/
def reals (ws : List Word) : List (Nat × Cplx) := ws.mapIdx (fun i w => (i, ⟨w, 0⟩))

/-- 0.0 to 7.0 -/
def small : List Word := [0, 0x3FF0000000000000, 0x4000000000000000, 0x4008000000000000, 0x4010000000000000,
  0x4014000000000000, 0x4018000000000000, 0x401C000000000000]

/-- P6: NOP sets DONE and clears BUSY -/
theorem test_nop : after (ready [] 0) (fun t => (t.statusWord, t.cmd)) = some (2, 0) := by decide +kernel

/-- F5 -/
theorem test_fft_8 : after (ready (reals small) 0x0000000800000001) (entries 8) = some
    [⟨0x403C000000000000, 0⟩, ⟨0xC010000000000000, 0x4023504F333F9DE6⟩, ⟨0xC010000000000000, 0x4010000000000000⟩,
     ⟨0xC010000000000000, 0x3FFA827999FCEF34⟩, ⟨0xC010000000000000, 0⟩, ⟨0xC010000000000000, 0xBFFA827999FCEF34⟩,
     ⟨0xC010000000000000, 0xC010000000000000⟩, ⟨0xC010000000000000, 0xC023504F333F9DE6⟩] := by decide +kernel

/-- F4 -/
theorem test_fft_inverse_2 : after (ready [(0, ⟨0x3FF0000000000000, 0x4000000000000000⟩), (1, ⟨0x4008000000000000, 0x4010000000000000⟩)]
    0x0000000200000101) (entries 2) = some [⟨0x4000000000000000, 0x4008000000000000⟩, ⟨0xBFF0000000000000, 0xBFF0000000000000⟩] := by
  decide +kernel

/-- B1 -/
theorem test_bitrev_8 : after (ready (reals small) 0x0000000800000002) (fun t => (entries 8 t).map Cplx.re) = some
    [0, 0x4010000000000000, 0x4000000000000000, 0x4018000000000000, 0x3FF0000000000000, 0x4014000000000000, 0x4008000000000000,
     0x401C000000000000] := by decide +kernel

/-- ST2: the second stage, on the end of ST1 -/
theorem test_stage_2 : after (ready (reals [0x4000000000000000, 0xC000000000000000, 0x4010000000000000, 0xC000000000000000])
    0x0002000400000003) (entries 4) = some [⟨0x4018000000000000, 0⟩, ⟨0xC000000000000000, 0x4000000000000000⟩,
      ⟨0xC000000000000000, 0⟩, ⟨0xC000000000000000, 0xC000000000000000⟩] := by decide +kernel

/-- L2.11: STAGE 0, 6, 9 raises INVALID_LENGTH before FIELD_RANGE -/
theorem test_stage_precedence : after (ready [] 0x0009000600000003) (fun t => (t.errCode, t.errInfo, t.statusWord))
    = some (2, 0x0009000600000003, 4) := by decide +kernel

/-- SC1 -/
theorem test_scale_4 : after (ready [(0, ⟨0x4010000000000000, 0xC000000000000000⟩), (1, ⟨0x8000000000000000, 0x3FF0000000000000⟩),
    (2, ⟨0x7FF0000000000001, 0x4008000000000000⟩), (3, ⟨1, 0x4020000000000000⟩)] 0x0000000400000004) (entries 4) = some
    [⟨0x3FF0000000000000, 0xBFE0000000000000⟩, ⟨0x8000000000000000, 0x3FD0000000000000⟩,
     ⟨0x7FF8000000000000, 0x3FE8000000000000⟩, ⟨0, 0x4000000000000000⟩] := by decide +kernel

/-- L2.11: SCALE 4000, 128 -/
theorem test_scale_range : after (ready [] 0x000000800FA00004) (fun t => t.errCode) = some 6 := by decide +kernel

/-- BF5 -/
theorem test_bfly_128 : after (ready [(0, ⟨0x3FF0000000000000, 0x4000000000000000⟩), (1, ⟨0x4008000000000000, 0x4010000000000000⟩)]
    0x0080000100000005) (entries 2) = some [⟨0x4017CC8A99AF5454, 0x4005A827999FCEF3⟩, ⟨0xC00F9915335EA8A8, 0x3FF4AFB0CCC0621A⟩] := by
  decide +kernel

/-- BF4 -/
theorem test_bfly_inverse_256 : after (ready [(0, ⟨0x3FF0000000000000, 0x4000000000000000⟩), (1, ⟨0x4008000000000000, 0x4010000000000000⟩)]
    0x0100000100000105) (entries 2) = some [⟨0xC008000000000000, 0x4014000000000000⟩, ⟨0x4014000000000000, 0xBFF0000000000000⟩] := by
  decide +kernel

/-- V2: overlapping regions chain -/
theorem test_vcmul_chains : after (ready ((List.range 4).map (fun e => (e, ⟨0, 0x3FF0000000000000⟩))) 0x0003000000010006) (entries 4)
    = some [⟨0, 0x3FF0000000000000⟩, ⟨0xBFF0000000000000, 0⟩, ⟨0x8000000000000000, 0xBFF0000000000000⟩,
      ⟨0x3FF0000000000000, 0x8000000000000000⟩] := by decide +kernel

/-- V5: ADDR_RANGE even though count = 0 -/
theorem test_vcmul_empty_range : after (ready [] 0x0000000010010006) (fun t => t.errCode) = some 6 := by decide +kernel

/-- FIR1, its second sample: history 1, then XIN = 2, H = 0.5, 0.25, 0.25, ACC = 1.25 -/
theorem test_fir_clear : after
    ({ State.reset with ntaps := 3, h := [0x3FE0000000000000, 0x3FD0000000000000, 0x3FD0000000000000] ++ List.replicate 61 0, fir := State.reset.fir.write 0x3FF0000000000000, xin := 0x4000000000000000 }.withFetchWord 64 0x208)
    (fun t => (t.acc, firCurWord t.fir)) = some (0x3FF4000000000000, 2) := by decide +kernel

/-- FIR4 -/
theorem test_fir_accumulates : after
    ({ State.reset with ntaps := 1, h := 0x4000000000000000 :: List.replicate 63 0, acc := 0x3FF0000000000000, xin := 0x4008000000000000 }.withFetchWord 64 0x8) (fun t => t.acc) = some 0x401C000000000000 := by decide +kernel

/-- IIR2: the carried ACC enters the feedback history -/
theorem test_iir_accumulates : after
    ({ State.reset with secs := { Section.cleared with b0 := 0x3FF0000000000000, a0 := 0x3FE0000000000000 } :: List.replicate 7 Section.cleared, acc := 0x3FF0000000000000, xin := 0x3FF0000000000000 }.withFetchWord 64 0x9)
    (fun t => (t.acc, (t.sec 0).yh)) = some (0x4000000000000000, ⟨[0x4000000000000000, 0], 1, 0⟩) := by decide +kernel

/-- IIR4 -/
theorem test_iir_range : after (ready [] 0x0000000000080009) (fun t => t.errCode) = some 5 := by decide +kernel

/-- SOS1, its first sample: ACC = 1, and section 1 receives the gain-scaled 2 -/
theorem test_sos_gains : after
    ({ State.reset with secs := { Section.cleared with b0 := 0x3FF0000000000000, a0 := 0x3FE0000000000000, g := 0x4000000000000000 } ::
          { Section.cleared with b0 := 0x3FF0000000000000, b1 := 0x3FF0000000000000, g := 0x3FE0000000000000 } ::
          List.replicate 6 Section.cleared, xin := 0x3FF0000000000000 }.withFetchWord 64 0x000000020000000A)
    (fun t => (t.acc, (t.sec 0).yh.slots, (t.sec 1).xh.slots)) =
      some (0x3FF0000000000000, [0x3FF0000000000000, 0], [0x4000000000000000, 0, 0]) := by decide +kernel

/-- SOS4: DIM_MISMATCH before FIELD_RANGE -/
theorem test_sos_precedence : after (ready [] 0x000000000009000A) (fun t => t.errCode) = some 4 := by decide +kernel

/-- R109 example -/
theorem test_rbwr : after ({ State.reset with xin := 0x4004000000000000 }.withFetchWord 64 0x000000000001000C)
    (fun t => (t.sec 0).xh) = some ⟨[0x4004000000000000, 0, 0], 1, 0⟩ := by decide +kernel

/-- RB7 -/
theorem test_rbwr_range : after (ready [] 0x000000000011000C) (fun t => t.errCode) = some 5 := by decide +kernel

/-- RB5: zero fill -/
theorem test_rbrd_empty : after (ready [] 0x000000000000000D) (fun t => (t.rbdata, firCurWord t.fir, t.err))
    = some (0, 0x0000000000010000, false) := by decide +kernel

/-- RB3: the oldest remaining value, a rotation -/
theorem test_rbrd_rotates : after
    ({ State.reset with secs := { Section.cleared with xh := ⟨[4, 2, 3], 1, 1⟩ } :: List.replicate 7 Section.cleared }.withFetchWord 64
      0x000000000001000D) (fun t => (t.rbdata, (t.sec 0).xh.rc)) = some (2, 2) := by decide +kernel

/-- RB4 -/
theorem test_rbclr : after
    ({ State.reset with rbdata := 2, secs := { Section.cleared with xh := ⟨[4, 2, 3], 1, 2⟩ } :: List.replicate 7 Section.cleared }.withFetchWord 64
      0x000000000001000E) (fun t => (t.rbdata, (t.sec 0).xh)) = some (2, ⟨[0, 0, 0], 0, 0⟩) := by decide +kernel

/-! The host's accesses, errors and reset. -/

/-- A state whose next turn is a host access. -/
def hosted (s : State) (r : Request) : State := { s with agenda := [.host r] }

/-- BUS1, BUS2 -/
theorem test_read_id : after (hosted State.reset (.read 0x000)) (fun t => t.resp) = some (some ⟨false, some 0x4453505500010000⟩) := by
  decide +kernel
theorem test_read_param : after (hosted State.reset (.read 0x008)) (fun t => t.resp) = some (some ⟨false, some 0x0000000800400C0A⟩) := by
  decide +kernel
/-- BUS3, BUS4 -/
theorem test_read_misaligned : after (hosted State.reset (.read 0x004)) (fun t => t.resp) = some (some ⟨true, some 0⟩) := by decide +kernel
theorem test_read_hole : after (hosted State.reset (.read 0x060)) (fun t => t.resp) = some (some ⟨true, some 0⟩) := by decide +kernel
/-- BUS7, BUS8, BUS9, BUS13 -/
theorem test_unmapped_and_read_only :
    after (hosted State.reset (.read 0x0A000)) (fun t => t.resp) = some (some ⟨true, some 0⟩) ∧
    after (hosted State.reset (.write 0x03060 0)) (fun t => t.resp) = some (some ⟨true, none⟩) ∧
    after (hosted State.reset (.write 0x03030 0)) (fun t => t.resp) = some (some ⟨true, none⟩) ∧
    after (hosted State.reset (.write 0x20000 0)) (fun t => t.resp) = some (some ⟨true, none⟩) := by decide +kernel
/-- BUS6 -/
theorem test_read_rom : after (hosted State.reset (.read 0x08000)) (fun t => t.resp) = some (some ⟨false, some 0x3FF0000000000000⟩) := by
  decide +kernel
/-- BUS10, BUS11 -/
theorem test_write_fir_cfg : after (hosted State.reset (.write 0x050 0xFFFFFFFFFFFF0003)) (fun t => (t.readLoc .firCfg).1) = some 3 := by
  decide +kernel
theorem test_write_ctrl : after (hosted State.reset (.write 0x010 0xFFFFFFFFFFFFFFFB)) (fun t => t.ctrlWord) = some 3 := by decide +kernel
/-- BUS12 -/
theorem test_dmem_keeps_bits : after (hosted State.reset (.write 0x10000 0x7FF0000000000001)) (fun t => (t.readLoc (.dmem 0 false)).1)
    = some 0x7FF0000000000001 := by decide +kernel
/-- H1: the dropped word is NOP, so ERR_INFO = 0 -/
theorem test_cmd_overrun : after (hosted { State.reset with busy := true, cmd := 0x0000000400000001 } (.write 0x020 0))
    (fun t => (t.errCode, t.errInfo, t.cmd, t.busy)) = some (7, 0, 0x0000000400000001, true) := by decide +kernel
/-- H3 -/
theorem test_busy_write : after (hosted { State.reset with busy := true, cmd := 1 } (.write 0x038 0x3FF0000000000000))
    (fun t => (t.errCode, t.errInfo, t.xin)) = some (8, 0x38, 0) := by decide +kernel
/-- H5, its second command: EOVF, the first code stays -/
theorem test_error_overflow : after ({ State.reset with err := true, errCode := 2, errInfo := 0x0000000300000001 }.withFetchWord 64
    0x000000000011000C) (fun t => (t.statusWord, t.errCode)) = some (0xC, 2) := by decide +kernel
/-- H6 -/
theorem test_clear_errors : after (hosted { State.reset with err := true, eovf := true, errCode := 2, errInfo := 7 } (.write 0x018 0xC))
    (fun t => (t.statusWord, t.errCode, t.errInfo)) = some (0, 0, 0) := by decide +kernel
/-- H7 -/
theorem test_irq : after ({ State.reset with doneIe := true }.withFetchWord 64 0) (fun t => t.irq) = some true := by decide +kernel
/-- H8: entries 0-3 become unspecified, entry 4 is kept -/
theorem test_soft_reset_abandons : after
    (hosted { State.reset.writeEntries (reals (small.take 5)) with busy := true, cmd := 0x0000000400000001 } (.write 0x010 0x4))
    (fun t => ((List.range 5).map (fun e => Memory.readWord t.dmem (dmemAddr e false)), t.busy)) =
      some ([none, none, none, none, some 0x4010000000000000], false) := by decide +kernel
/-- R153: the words of the abandoned entries are lost, those of the entry before stay lost -/
theorem test_soft_reset_loses : after
    (hosted { State.reset with busy := true, cmd := 0x0000000300010005, lost := [0x10000] } (.write 0x010 0x4)) (fun t => t.lost) =
      some [0x10000, 0x10010, 0x10018, 0x10030, 0x10038] := by decide +kernel
/-- R153: BITREV on entries 0-3 moves the specified entry 2 to entry 1, whose real word is lost and stays unspecified -/
theorem test_bitrev_into_lost_word : after
    ({ State.reset.writeEntries [(2, ⟨0x4000000000000000, 0x4008000000000000⟩)] with lost := [0x10010] }.withFetchWord 64 0x0000000400000002)
    (fun t => (Memory.readWord t.dmem 0x10010, Memory.readWord t.dmem 0x10018, t.lost)) =
      some (none, some 0x4008000000000000, [0x10010]) := by decide +kernel
/-- R153: the host's write ends the loss of its word and of no other -/
theorem test_write_ends_loss : after (hosted { State.reset with lost := [0x10010, 0x10018] } (.write 0x10010 7))
    (fun t => (Memory.readWord t.dmem 0x10010, t.lost)) = some (some 7, [0x10018]) := by decide +kernel
/-- R150: while rst_n = 0 the host's access waits -/
theorem test_held_in_reset : after { State.reset with rstN := false, agenda := [.host (.read 0), .rstEdge true] }
    (fun t => (t.rstN, t.agenda, t.resp)) = some (true, [.host (.read 0)], none) := by decide +kernel

/-- The state after reset is well formed. -/
theorem test_reset_wf : State.reset.Wf := by decide +kernel

end Sys2Proof.Tests
end

