-- ==== Sys2Proof/Tests/Witnesses.lean ====
section
/-! SUPPORT. For every statement of Certificates/Slice0/Obligations.lean that has hypotheses, concrete values that meet them together; for a statement of several clauses one for each. -/

namespace Sys2Proof.Tests

open Sys2Proof Sys2Proof.Machine

set_option Elab.async false

/-! Encoding and the step. -/

theorem witness_DecodeOfEncode : (Instr.bfly true 65535 65535 65535).WellFormed ∧ Instr.nop.WellFormed := by decide

theorem witness_EncodeOfDecode : decode 0x0100000600020105 = .command (.bfly true 2 6 256) := by decide

/-- A NOP pending, with the given turns coming. -/
def pending (ts : List Turn) : State := { State.reset with busy := true, agenda := ts }

theorem witness_StepExecutesPendingCommand :
    (pending [.engine]).rstN = true ∧ (pending [.engine]).busy = true ∧ decode (pending [.engine]).cmd = .command .nop ∧
    (pending [.engine]).agenda = .engine :: [] ∧ (pending []).agenda = [] := by decide

theorem not_legal_7 : ¬ LegalWord 7 := by
  rintro ⟨u, hu, -⟩
  exact absurd hu (by decide +revert)

theorem witness_IllegalWordRaisesIllegalCmd :
    ¬ LegalWord { pending [.engine] with cmd := 7 }.cmd ∧ { pending [.engine] with cmd := 7 }.busy = true ∧
    { pending [.engine] with cmd := 7 }.rstN = true ∧ { pending [.engine] with cmd := 7 }.agenda = .engine :: [] :=
  ⟨not_legal_7, rfl, rfl, rfl⟩

theorem witness_StepKeepsWellFormed : State.reset.Wf ∧ step State.reset = .next State.reset := ⟨test_reset_wf, rfl⟩

/-- The default parameters, and the least and the largest legal ones. -/
theorem witness_ResetIsWellFormed :
    Params.default.Legal ∧ Params.Legal ⟨1, 1, 1, 1, none⟩ ∧ Params.Legal ⟨11, 16, 512, 32, none⟩ := by decide

theorem witness_ResetValues : Params.default.Legal ∧ 63 < Params.default.firCap ∧ 7 < Params.default.nsec := by decide

theorem witness_PendingCommandEnds : (pending [.host (.read 0)]).rstN = true ∧ (pending [.host (.read 0)]).busy = true := by decide

/-! Errors, completion, frames. -/

theorem not_pow2_6 : ¬ PowerOfTwo 6 := by
  rintro ⟨k, hk⟩
  match k with
  | 0 => simp at hk
  | 1 => simp at hk
  | 2 => simp at hk
  | k + 3 =>
    have : 2 ^ (k + 3) = 2 ^ k * 8 := by rw [pow_add]; rfl
    have := Nat.one_le_two_pow (n := k)
    omega

/-- STAGE 0, 6, 9 has causes of two codes; 2 is the lowest. -/
theorem witness_LowestCauseIsRaised :
    State.reset.HasCause (.stage false 0 6 9) .invalidLength ∧ State.reset.HasCause (.stage false 0 6 9) .fieldRange ∧
    ∀ d, State.reset.HasCause (.stage false 0 6 9) d → ErrCode.invalidLength.code.toNat ≤ d.code.toNat := by
  refine ⟨.inl (.inl ⟨rfl, not_pow2_6⟩), .inr (.inl ⟨rfl, .inr (by decide)⟩), ?_⟩
  intro d hd
  cases d
  case illegalCmd =>
    obtain (⟨h, -⟩ | ⟨h, -⟩) | ⟨h, -⟩ | ⟨h, -⟩ := hd <;> cases h
  all_goals decide

/-- A command of the last ring id, and VCMUL of no element at the end of DMEM. -/
theorem witness_CommandWithoutCauseCompletes :
    (∀ c, ¬ State.reset.HasCause (.rbwr 16) c) ∧ ∀ c, ¬ State.reset.HasCause (.vcmul 4096 4096 0) c := by
  constructor
  · rintro c ⟨-, h⟩
    exact absurd h (by decide)
  · rintro c (⟨-, h⟩ | ⟨-, h⟩) <;> exact absurd h (by decide)

theorem witness_CommandsWriteOnlyTheirState :
    (∃ t, exec (.rbrd 1) State.reset = .next t) ∧ (∃ t, exec (.fir true) State.reset = .next t) ∧
    ∃ t, exec (.bfly false 0 1 0) State.reset = .next t := ⟨⟨_, rfl⟩, ⟨_, rfl⟩, ⟨_, rfl⟩⟩

/-- The state after reset with the imaginary word of entry 1 lost to an abandoned command. -/
def losing : State := { State.reset with lost := [0x10018] }

/-- The byte just after the entries BFLY 0, 1, 0 writes, and the byte just before those of BFLY 1, 2, 0; the first and the last byte of a
lost word in entry 1. -/
theorem witness_DmemFrame :
    (∃ t, exec (.bfly false 0 1 0) losing = .next t) ∧
    (dmemAddr 1 true ∈ losing.lost ∧ dmemAddr 1 true ≤ 0x10018 ∧ 0x1001F < dmemAddr 1 true + 8) ∧
    (∀ e, Touches (.bfly false 0 1 0) e → ¬ inEntry e 0x10020) ∧ ∀ e, Touches (.bfly false 1 2 0) e → ¬ inEntry e 0x1000F := by
  refine ⟨⟨_, rfl⟩, by decide, ?_, ?_⟩ <;> rintro e (rfl | rfl) <;> decide

theorem witness_CommandsChangeOnlyVolatileLocations :
    (∃ t, exec (.rbwr 0) State.reset = .next t) ∧ Loc.isVolatile .xin = false ∧ Loc.isVolatile (.h 63) = false ∧
    Loc.xin ≠ .status ∧ Loc.xin ≠ .errCode ∧ Loc.xin ≠ .errInfo := ⟨⟨_, rfl⟩, by decide⟩

theorem witness_CommandsReadNoFlag : ∃ t, exec .nop State.reset = .next t := ⟨_, rfl⟩

/-! The FFT unit. -/

/-- The largest region at the end of DMEM, and the smallest. -/
theorem witness_FftWritesTheTransform :
    (10 ≤ State.reset.params.log2Nmax ∧ 3072 + 2 ^ 10 ≤ State.reset.params.dmemEntries) ∧
    (0 ≤ State.reset.params.log2Nmax ∧ 4095 + 2 ^ 0 ≤ State.reset.params.dmemEntries) := by decide

/-- The state with the eight entries 0.0 to 7.0. -/
def eight : State := State.reset.writeEntries (reals small)

/-- A specified region of three entries, an unspecified entry, and a lost word. -/
theorem witness_EntriesReadTheirValuesOrDraw :
    (∀ i < 3, eight.entry? (5 + i) = some ⟨small.getD (5 + i) 0, 0⟩) ∧
    Memory.readWord eight.dmem (dmemAddr 8 false) = none ∧ Memory.readWord eight.dmem (dmemAddr 8 true) = none ∧
    losing.LostOk ∧ 0x10018 ∈ losing.lost := by decide +kernel

/-- The last index of a transform of length 4: both halves have the entry. -/
theorem witness_TransformIsTheRecursion :
    1 < 2 ^ 1 ∧ (recFft Params.default false 1 [⟨0, 0⟩, ⟨0, 0⟩])[1]?.isSome = true := by decide +kernel

theorem witness_BitReversalIndex : 7 < 2 ^ 3 ∧ 0 < 2 ^ 0 := by decide

theorem witness_BitrevPermutes : 10 ≤ State.reset.params.log2Nmax ∧ 3072 + 2 ^ 10 ≤ State.reset.params.dmemEntries := by decide

/-- The last butterfly of the last stage on eight entries. -/
theorem witness_StageAppliesButterflies :
    3 ≤ eight.params.log2Nmax ∧ 0 + 2 ^ 3 ≤ eight.params.dmemEntries ∧ 1 ≤ 3 ∧ 0 < 2 ^ (3 - 3) ∧ 3 < 2 ^ (3 - 1) ∧
    eight.entry? (0 + 0 * 2 ^ 3 + 3) = some ⟨0x4008000000000000, 0⟩ ∧
    eight.entry? (0 + 0 * 2 ^ 3 + 3 + 2 ^ (3 - 1)) = some ⟨0x401C000000000000, 0⟩ := by decide +kernel

theorem witness_ScaleDividesEachEntry :
    eight.params.Legal ∧ 3 ≤ eight.params.log2Nmax ∧ 0 + 2 ^ 3 ≤ eight.params.dmemEntries ∧ 7 < 2 ^ 3 ∧
    eight.entry? (0 + 7) = some ⟨0x401C000000000000, 0⟩ := by decide +kernel

theorem witness_BflyComputesOneButterfly :
    4095 < State.reset.params.dmemEntries ∧ 0 < State.reset.params.dmemEntries ∧ 4095 ≠ 0 ∧ 511 < State.reset.params.nmax / 2 := by
  decide

/-- A region none of whose words is lost, with a lost word just below it. -/
theorem witness_ScheduleEqualsTransform :
    10 ≤ losing.params.log2Nmax ∧ 2 + 2 ^ 10 ≤ losing.params.dmemEntries ∧ ∀ i < 2 ^ 10, ∀ im, dmemAddr (2 + i) im ∉ losing.lost := by
  refine ⟨by decide, by decide, ?_⟩
  intro i _ im h
  have h1 : dmemAddr (2 + i) im = 0x10018 := List.mem_singleton.1 h
  cases im <;> simp [dmemAddr] at h1 <;> omega

/-- With the smallest ROM, one entry (1.0, +0.0). -/
theorem witness_ImpulseIsConstant :
    (∀ j < (⟨1, 1, 1, 1, none⟩ : Params).nmax / 2, isFinite (romEntry ⟨1, 1, 1, 1, none⟩ j).re = true ∧
      isFinite (romEntry ⟨1, 1, 1, 1, none⟩ j).im = true) ∧ 1 ≤ (⟨1, 1, 1, 1, none⟩ : Params).log2Nmax := by decide +kernel

theorem witness_TwiddleAddressAndDirection :
    1 ≤ 10 ∧ 10 ≤ Params.default.log2Nmax ∧ 511 < 2 ^ 10 / 2 ∧ Params.default.twRom = none := by decide

theorem witness_RomListedValues :
    Params.default.Legal ∧ Params.default.twRom = none ∧ 3 ≤ Params.default.log2Nmax ∧ Params.default.log2Nmax = 10 := by decide

/-- The last entry; another finite number. -/
theorem witness_RomIsCorrectlyRounded :
    Params.default.Legal ∧ Params.default.twRom = none ∧ 511 < Params.default.nmax / 2 ∧
    unpack 0x3FF0000000000000 = .fin false (2 ^ 1074) ∧ unpack 0 = .fin false 0 := by decide +kernel

/-- V2's regions, dst = 1 and src = 0: each product but the first uses the one before. -/
theorem witness_VcmulMultipliesAscending :
    let s := State.reset.writeEntries ((List.range 4).map (fun e => (e, ⟨0, 0x3FF0000000000000⟩)))
    let j : Cplx := ⟨0, 0x3FF0000000000000⟩
    let y : Nat → Cplx := fun i => [⟨0xBFF0000000000000, 0⟩, ⟨0x8000000000000000, 0xBFF0000000000000⟩].getD i j
    s.LostOk ∧ 1 + 2 ≤ s.params.dmemEntries ∧ 0 + 2 ≤ s.params.dmemEntries ∧ (∀ i < 2, s.entry? (1 + i) = some j) ∧
    (∀ i < 2, s.entry? (0 + i) = some j) ∧
    ∀ i < 2, y i = cmul j (if 1 ≤ 0 + i ∧ 0 + i < 1 + i then y (0 + i - 1) else j) := by decide +kernel

/-! Rings and filters. -/

theorem witness_RbwrWritesTheRing :
    State.reset.secs.length = State.reset.params.nsec ∧ 0 ≤ 2 * State.reset.params.nsec ∧ 16 ≤ 2 * State.reset.params.nsec ∧
    (15 : Nat) ≠ 16 := by decide

theorem witness_RbrdReadsTheRing :
    State.reset.secs.length = State.reset.params.nsec ∧ 1 ≤ 2 * State.reset.params.nsec ∧ (0 : Nat) ≠ 1 := by decide

theorem witness_RbclrClearsTheRing :
    State.reset.secs.length = State.reset.params.nsec ∧ 2 ≤ 2 * State.reset.params.nsec ∧ (1 : Nat) ≠ 2 := by decide

/-- Cursors at the last slot. -/
theorem witness_RingIsFifo :
    (⟨[7, 8, 9], 2, 2⟩ : RingBuf).slots.length = [4, 5, 6].length ∧ (⟨[7, 8, 9], 2, 2⟩ : RingBuf).wc = 2 ∧
    (⟨[7, 8, 9], 2, 2⟩ : RingBuf).rc = 2 ∧ 2 < (⟨[7, 8, 9], 2, 2⟩ : RingBuf).slots.length := by decide

/-- The oldest tap of a full ring, and of one with two writes. -/
theorem witness_TapIsRecentHistory :
    ((⟨[7, 8, 9], 2, 0⟩ : RingBuf).wc < 3 ∧ 2 < (⟨[7, 8, 9], 2, 0⟩ : RingBuf).slots.length ∧ 2 < [1, 2, 3, 4].length) ∧
    (2 < 3 ∧ [1, 2].length ≤ 2) := by decide

theorem witness_FirAccumulatesTaps :
    let s : State := { State.reset with ntaps := 64 }
    let y : Nat → Word := fun _ => 0
    1 ≤ s.ntaps.toNat ∧ s.ntaps.toNat ≤ s.params.firCap ∧ y 0 = (if true then 0 else s.acc) ∧ y 0 = (if false then 0 else s.acc) ∧
    ∀ i < s.ntaps.toNat, y (i + 1) = fadd (y i) (fmul (s.h.getD i 0) ((s.fir.write s.xin).tap i)) := by decide +kernel

/-- H = 1.0, 0, 0 and the given sample and older tap. -/
def passing (x old : Word) : State :=
  { State.reset with ntaps := 3, h := 0x3FF0000000000000 :: List.replicate 63 0, xin := x, fir := State.reset.fir.write old }

/-- A finite history with XIN = 3.5, -0.0 and a NaN; an infinite older tap. -/
theorem witness_FirPassThrough :
    (passing 0x400C000000000000 0).Sized ∧ 1 ≤ (passing 0 0).ntaps.toNat ∧ (passing 0 0).ntaps.toNat ≤ (passing 0 0).params.firCap ∧
    (passing 0 0).h.getD 0 0 = 0x3FF0000000000000 ∧ (∀ i, 1 ≤ i → i < (passing 0 0).ntaps.toNat → (passing 0 0).h.getD i 0 = 0) ∧
    (∀ i, 1 ≤ i → i < 3 → isFinite (((passing 0 0).fir.write (passing 0 0).xin).tap i) = true) ∧
    isNaN 0x400C000000000000 = false ∧ isNaN 0x7FF0000000000001 = true ∧
    unpack (((passing 0 0x7FF0000000000000).fir.write 0).tap 1) = .inf false := by
  refine ⟨by decide +kernel, by decide, by decide, by decide, ?_, ?_, by decide +kernel, by decide +kernel, by decide +kernel⟩
  · intro i h1 h2
    have h3 : i < 3 := h2
    obtain rfl | rfl : i = 1 ∨ i = 2 := by omega
    all_goals decide
  · intro i h1 h2
    obtain rfl | rfl : i = 1 ∨ i = 2 := by omega
    all_goals decide +kernel

theorem witness_IirRunsOneBiquad : 7 < State.reset.params.nsec ∧ 0 < State.reset.params.nsec := by decide

/-- A section with B0 = 0.5 and FIR coefficients 0.5, 0, 0. -/
def halves : State :=
  { State.reset with ntaps := 3, h := 0x3FE0000000000000 :: List.replicate 63 0, secs := { Section.cleared with b0 := 0x3FE0000000000000 } :: List.replicate 7 Section.cleared }

/-- The hypotheses, on two samples. -/
theorem witness_IirWithoutFeedbackIsFir :
    let s := halves
    s.Sized ∧ 0 < s.params.nsec ∧ 3 ≤ s.params.firCap ∧ (s.sec 0).a0 = 0 ∧ (s.sec 0).a1 = 0 ∧ (s.sec 0).xh = RingBuf.cleared 3 ∧
    (s.sec 0).yh = RingBuf.cleared 2 ∧ s.fir = RingBuf.cleared s.params.firCap ∧ s.ntaps = 3 ∧ s.h.getD 0 0 = (s.sec 0).b0 ∧
    s.h.getD 1 0 = (s.sec 0).b1 ∧ s.h.getD 2 0 = (s.sec 0).b2 ∧
    ∀ y ∈ (stream (.iir true 0) [0x3FF0000000000000, 0x4000000000000000] s).dropLast, isFinite y = true := by
  refine ⟨by decide +kernel, by decide, by decide, rfl, rfl, rfl, rfl, rfl, rfl, rfl, rfl, rfl, ?_⟩
  have h : (stream (.iir true 0) [0x3FF0000000000000, 0x4000000000000000] halves).dropLast = [0x3FE0000000000000] := by decide +kernel
  rw [h]
  intro y hy
  obtain rfl := List.mem_singleton.1 hy
  decide +kernel

/-- All eight sections after reset, on +0.0. -/
theorem witness_SosCascadesSections :
    let v : Nat → Word := fun _ => 0
    State.reset.secs.length = State.reset.params.nsec ∧ 1 ≤ 8 ∧ 0 + 8 ≤ State.reset.params.nsec ∧ v 0 = State.reset.xin ∧
    ∀ j < 8, v (j + 1) = fmul (biquad (State.reset.sec (0 + j)) (v j) 0).1 (State.reset.sec (0 + j)).g := by decide +kernel

theorem witness_SosEqualsHostSequence :
    State.reset.secs.length = State.reset.params.nsec ∧ 1 ≤ 1 ∧ 7 + 1 ≤ State.reset.params.nsec := by decide

/-- The identity section with the given sample. -/
def identity (x : Word) : State :=
  { State.reset with xin := x, secs := { Section.cleared with b0 := 0x3FF0000000000000, g := 0x3FF0000000000000 } :: List.replicate 7 Section.cleared }

theorem witness_SosIdentitySection :
    (identity 0x3FB999999999999A).Sized ∧ 0 < (identity 0).params.nsec ∧ ((identity 0).sec 0).b0 = 0x3FF0000000000000 ∧
    ((identity 0).sec 0).b1 = 0 ∧ ((identity 0).sec 0).b2 = 0 ∧ ((identity 0).sec 0).a0 = 0 ∧ ((identity 0).sec 0).a1 = 0 ∧
    ((identity 0).sec 0).g = 0x3FF0000000000000 ∧ (∀ v ∈ ((identity 0).sec 0).xh.slots, isFinite v = true) ∧
    (∀ v ∈ ((identity 0).sec 0).yh.slots, isFinite v = true) ∧ isNaN (identity 0x3FB999999999999A).xin = false ∧
    isNaN (identity 0xFFF8000000000000).xin = true := by
  refine ⟨by decide +kernel, by decide, rfl, rfl, rfl, rfl, rfl, rfl, ?_, ?_, by decide +kernel, by decide +kernel⟩
  · intro v hv
    obtain rfl : v = 0 := List.eq_of_mem_replicate (n := 3) hv
    decide +kernel
  · intro v hv
    obtain rfl : v = 0 := List.eq_of_mem_replicate (n := 2) hv
    decide +kernel

/-! Arithmetic. -/

/-- An infinity and the least subnormal are no NaN. -/
theorem witness_ArithmeticIdentities :
    isNaN 0xFFF0000000000000 = false ∧ isNaN 1 = false ∧ (1 : Word) ≠ 0x8000000000000000 := by decide +kernel

/-- 1.0 by 2^11; a zero; a NaN. -/
theorem witness_DivisionByPowerOfTwoIsExact :
    11 ≤ 11 ∧ expOf 0x3FF0000000000000 ≠ 2047 ∧ 11 < expOf 0x3FF0000000000000 ∧ isNaN 0x7FF0000000000001 = true := by decide +kernel

theorem witness_NaNsAreCanonical :
    isNaN 0x7FF0000000000001 = true ∧ isNaN 0xFFF8000000000001 = true ∧ unpack 0x7FF0000000000000 = .inf false ∧
    unpack 0xFFF0000000000000 = .inf (!false) ∧ unpack 0x8000000000000000 = .fin true 0 ∧ unpack 0 = .fin false 0 ∧
    isNaN (fdiv 0 0) = true ∧ isNaN (fmul 0 0x7FF0000000000000) = true := by decide +kernel

/-- A tie between the two least magnitudes, and the two sides of the overflow threshold; operands whose exact sum is zero and is not, zero
and nonzero ones for the product and the quotient, and the two infinities. -/
theorem witness_RoundingIsNearestEven :
    0 < 2 ∧ unpack (roundMag false 1 2) = .fin false 0 ∧ unpack 1 = .fin false 1 ∧
    unpack (roundMag true ((2 ^ 54 - 1) * 2 ^ 2044) 1) = .inf true ∧
    unpack (roundMag true ((2 ^ 54 - 1) * 2 ^ 2044 - 1) 1) = .fin true ((2 ^ 53 - 1) * 2 ^ 2045) ∧
    unpack 0x8000000000000000 = .fin true 0 ∧ unpack 0 = .fin false 0 ∧ unpack 0x8000000000000001 = .fin true 1 ∧
    unpack 0x7FF0000000000000 = .inf false ∧ unpack 0xFFF0000000000000 = .inf true := by decide +kernel

/-! The host's accesses and reset. -/

theorem witness_AddressMap : Params.default.Legal ∧ locate Params.default 0x03058 = some (.secCur 0) ∧
    locate Params.default 0x1FFF8 = some (.dmem 4095 true) ∧ locate Params.default 0x20000 = none := by decide

theorem witness_CmdWriteIssues :
    (hosted State.reset (.write 0x020 1)).rstN = true ∧ (hosted State.reset (.write 0x020 1)).agenda = [.host (.write 0x020 1)] ∧
    (hosted State.reset (.write 0x020 1)).busy = false ∧ (pending []).busy = true := by decide

/-- An unmapped address; ACC while BUSY = 1; STATUS while BUSY = 1, and ACC while BUSY = 0; in a well-formed block. -/
theorem witness_HostReadRule :
    (hosted State.reset (.read 0x060)).agenda = [.host (.read 0x060)] ∧ locate Params.default 0x060 = none ∧
    locate Params.default 0x040 = some .acc ∧ Loc.isVolatile .acc = true ∧ (pending [.host (.read 0x040)]).busy = true ∧
    locate Params.default 0x018 = some .status ∧ Loc.isVolatile .status = false ∧ State.reset.busy = false ∧
    (hosted State.reset (.read 0x060)).params.Legal ∧ (hosted State.reset (.read 0x060)).Sized := by decide

/-- A read-only location and an unmapped address. -/
theorem witness_RefusedWriteChangesNothing :
    (hosted State.reset (.write 0x028 0)).agenda = [.host (.write 0x028 0)] ∧
    (∀ l, locate Params.default 0x028 = some l → l.readOnly = true) ∧
    ∀ l, locate Params.default 0x060 = some l → l.readOnly = true := by
  refine ⟨rfl, ?_, ?_⟩
  · intro l h
    obtain rfl : Loc.errCode = l := Option.some.inj h
    rfl
  · intro l h
    cases h

theorem witness_DataWriteRule :
    (hosted State.reset (.write 0x1FFF8 5)).rstN = true ∧
    (hosted State.reset (.write 0x1FFF8 5)).agenda = [.host (.write 0x1FFF8 5)] ∧
    locate Params.default 0x1FFF8 = some (.dmem 4095 true) ∧ Loc.readOnly (.dmem 4095 true) = false ∧
    Loc.dmem 4095 true ≠ .cmd ∧ Loc.dmem 4095 true ≠ .ctrl ∧ Loc.dmem 4095 true ≠ .status ∧
    (hosted State.reset (.write 0x1FFF8 5)).busy = false ∧ (pending [.host (.write 0x1FFF8 5)]).busy = true := by decide

theorem witness_StoredWordReadsBack :
    State.reset.Sized ∧ Loc.Implemented Params.default (.coef 7 .g) ∧ Loc.readOnly (.coef 7 .g) = false ∧ Loc.coef 7 .g ≠ .cmd ∧
    Loc.coef 7 .g ≠ .ctrl ∧ Loc.coef 7 .g ≠ .status ∧ Loc.Implemented Params.default (.coef 7 .a1) ∧ Loc.coef 7 .a1 ≠ .coef 7 .g :=
  ⟨test_reset_wf.2.1, show 7 < 8 by decide, rfl, by decide, by decide, by decide, show 7 < 8 by decide, by decide⟩

theorem witness_StatusWriteClears :
    (pending [.host (.write 0x018 0xE)]).rstN = true ∧ (pending [.host (.write 0x018 0xE)]).agenda = [.host (.write 0x018 0xE)] := by
  decide

theorem witness_CtrlWriteSetsEnables :
    (pending [.host (.write 0x010 3)]).rstN = true ∧ (pending [.host (.write 0x010 3)]).agenda = [.host (.write 0x010 3)] ∧
    BitVec.getLsbD (3 : Word) 2 = false := by decide

/-- With a BFLY pending that passes its checks, and idle. -/
theorem witness_SoftResetRestoresAndAbandons :
    let s : State := { State.reset with busy := true, cmd := 0x0000000100000005, agenda := [.host (.write 0x010 4)] }
    s.rstN = true ∧ s.agenda = [.host (.write 0x010 4)] ∧ BitVec.getLsbD (4 : Word) 2 = true ∧ s.busy = true ∧
    decode s.cmd = .command (.bfly false 0 1 0) ∧ (∀ c, ¬ s.HasCause (.bfly false 0 1 0) c) ∧ Touches (.bfly false 0 1 0) 1 ∧
    inEntry 1 0x1001F ∧ State.reset.busy = false := by
  refine ⟨rfl, rfl, by decide, rfl, by decide, ?_, .inr rfl, by decide, rfl⟩
  rintro c (⟨-, h⟩ | ⟨-, h⟩) <;> exact absurd h (by decide)

/-- For each clause a state: an edge with rst_n = 0 coming out of reset and, with BFLY pending, in it; a waiting access and no edge; the
two edges behind a waiting access. -/
theorem witness_HardResetAndRelease :
    (pending [.rstEdge false]).agenda = [.rstEdge false] ∧
    (let s : State := { pending [.rstEdge false] with rstN := false, cmd := 0x0000000100000005 }
     s.agenda = [.rstEdge false] ∧ s.busy = true ∧ decode s.cmd = .command (.bfly false 0 1 0)) ∧
    (let s : State := { State.reset with rstN := false, agenda := [.host (.read 0)] }
     s.rstN = false ∧ ∀ level, .rstEdge level ∉ s.agenda) ∧
    (∀ level, (.rstEdge level : Turn) ∉ [.host (.read 0)]) ∧
    (let s : State := { State.reset with rstN := false, agenda := [.host (.read 0), .rstEdge true] }
     s.rstN = false ∧ s.agenda = [.host (.read 0)] ++ .rstEdge true :: []) ∧
    (let s : State := { State.reset with rstN := false, agenda := [.host (.read 0), .rstEdge false] }
     s.rstN = false ∧ s.agenda = [.host (.read 0)] ++ .rstEdge false :: []) := by decide

end Sys2Proof.Tests
end

/-! The family 10_state.md: what every step keeps, what a command may write and read, and the host's writes to STATUS and CTRL. -/

namespace Sys2Proof.Machine

open Sys2Proof

/-! A command's run over DMEM: reads of entries, and writes of the entries it touches. -/

/-- `t` is reached from `s` by DRead of any entries and DWrite of entries of `P`: all that a command does to DMEM (20_memory.md R48). -/
inductive DmemRun (P : Nat → Prop) : State → State → Prop where
  | refl (s : State) : DmemRun P s s
  | dread {s t : State} (e : Nat) : DmemRun P s t → DmemRun P s (t.dread e).2
  | dwrite {s t : State} {e : Nat} (z : Cplx) : P e → DmemRun P s t → DmemRun P s (t.dwrite e z)

section

variable {P : Nat → Prop}

theorem DmemRun.trans {s t u : State} (h : DmemRun P s t) (h' : DmemRun P t u) : DmemRun P s u := by
  induction h' with
  | refl => exact h
  | dread e _ ih => exact ih.dread e
  | dwrite z he _ ih => exact ih.dwrite z he

theorem DmemRun.foldl {α : Type} {f : State → α → State} {l : List α} (hf : ∀ s, ∀ a ∈ l, DmemRun P s (f s a)) (s : State) :
    DmemRun P s (l.foldl f s) := by
  induction l generalizing s with
  | nil => exact .refl s
  | cons a l ih => exact (hf s a (by simp)).trans (ih (fun s b hb => hf s b (by simp [hb])) _)

theorem DmemRun.onlyDmem {s t : State} (h : DmemRun P s t) : OnlyDmem s t := by
  induction h with
  | refl => exact OnlyDmem.refl s
  | dread e _ ih => exact ih.trans (OnlyDmem.dread _ e)
  | dwrite z _ _ ih => exact ih.trans (OnlyDmem.dwrite _ _ z)

/-- A run that writes existing entries keeps DMEM well formed. -/
theorem DmemRun.dmemOk {s t : State} (h : DmemRun P s t) (hP : ∀ e, P e → e < s.params.dmemEntries) (hs : s.DmemOk) : t.DmemOk := by
  induction h with
  | refl => exact hs
  | dread e _ ih => exact State.dmemOk_dread e ih
  | dwrite z he hr ih => exact State.dmemOk_dwrite z (hr.onlyDmem.params ▸ hP _ he) ih

/-- No command's run specifies a lost word (70_reset_and_hazards.md R153). -/
theorem DmemRun.lostOk {s t : State} (h : DmemRun P s t) (hs : s.LostOk) : t.LostOk := by
  induction h with
  | refl => exact hs
  | dread e _ ih => exact State.lostOk_congr (State.dread_dmem _ e) (OnlyDmem.dread _ e).lost (OnlyDmem.dread _ e).params ih
  | dwrite z _ _ ih => exact State.lostOk_dwrite _ z ih

theorem DmemRun.readRegion (s : State) (base n : Nat) : DmemRun P s (s.readRegion base n).2 := by
  induction n generalizing s base with
  | zero => exact .refl s
  | succ n ih => exact (DmemRun.dread base (.refl s)).trans (ih _ _)

theorem DmemRun.writeEntries {ws : List (Nat × Cplx)} (hw : ∀ w ∈ ws, P w.1) (s : State) : DmemRun P s (s.writeEntries ws) :=
  .foldl (fun s w hm => (DmemRun.refl s).dwrite w.2 (hw w hm)) s

theorem DmemRun.fft (s : State) (inv : Bool) (base : Nat) {n : Nat} (hn : PowerOfTwo n) :
    DmemRun (fun e => base ≤ e ∧ e < base + n) s (s.fft inv base n) := by
  obtain ⟨l, rfl⟩ := hn
  refine (DmemRun.readRegion s base _).trans (.writeEntries (fun w hw => ?_) _)
  obtain ⟨i, hi, rfl⟩ := List.mem_mapIdx.1 hw
  rw [fftRef_length s.params inv _ (State.readRegion_length s base _)] at hi
  exact ⟨Nat.le_add_right _ _, Nat.add_lt_add_left hi _⟩

theorem DmemRun.permute (s : State) (base : Nat) {n : Nat} (hn : PowerOfTwo n) :
    DmemRun (fun e => base ≤ e ∧ e < base + n) s (s.permute base n) := by
  obtain ⟨l, rfl⟩ := hn
  refine (DmemRun.readRegion s base _).trans (.writeEntries (fun w hw => ?_) _)
  obtain ⟨i, -, rfl⟩ := List.mem_mapIdx.1 hw
  rw [Nat.log2_two_pow]
  exact ⟨Nat.le_add_right _ _, Nat.add_lt_add_left (bitrev_lt l i) _⟩

theorem DmemRun.bflyAt (s : State) (inv : Bool) {e o : Nat} (t : Nat) (he : P e) (ho : P o) : DmemRun P s (s.bflyAt inv e o t) :=
  ((((DmemRun.refl s).dread e).dread o).dwrite _ he).dwrite _ ho

/-- Both entries of every butterfly of a stage lie in the region (41_fft.md R88). -/
theorem stageBflys_mem {p : Params} {base n st : Nat} (hn : PowerOfTwo n) (hst : 1 ≤ st ∧ st ≤ n.log2) {b : Nat × Nat × Nat}
    (hb : b ∈ stageBflys p base n st) : (base ≤ b.1 ∧ b.1 < base + n) ∧ base ≤ b.2.1 ∧ b.2.1 < base + n := by
  obtain ⟨l, rfl⟩ := hn
  rw [Nat.log2_two_pow] at hst
  simp only [stageBflys, List.mem_flatMap, List.mem_map, List.mem_range] at hb
  obtain ⟨j, hj, k, hk, rfl⟩ := hb
  have hblock : j * 2 ^ st + 2 ^ st ≤ 2 ^ l := by
    rw [← Nat.succ_mul, ← Nat.le_div_iff_mul_le (by positivity)]
    exact hj
  dsimp only
  omega

theorem DmemRun.stage (s : State) (inv : Bool) (base : Nat) {n st : Nat} (hn : PowerOfTwo n) (hst : 1 ≤ st ∧ st ≤ n.log2) :
    DmemRun (fun e => base ≤ e ∧ e < base + n) s (s.stage inv base n st) :=
  .foldl (fun s b hb => have h := stageBflys_mem hn hst hb; DmemRun.bflyAt s inv b.2.2 h.1 h.2) s

theorem DmemRun.scale (s : State) (base n : Nat) : DmemRun (fun e => base ≤ e ∧ e < base + n) s (s.scale base n) := by
  refine .foldl (fun s i hi => ((DmemRun.refl s).dread _).dwrite _ ?_) s
  have := List.mem_range.1 hi
  omega

theorem DmemRun.vcmul (s : State) (dst src count : Nat) :
    DmemRun (fun e => dst ≤ e ∧ e < dst + count) s (s.vcmul dst src count) := by
  refine .foldl (fun s i hi => (((DmemRun.refl s).dread _).dread _).dwrite _ ?_) s
  have := List.mem_range.1 hi
  omega

end

@[simp] theorem State.setRing_dmem (s : State) (n : RingName) (r : RingBuf) : (s.setRing n r).dmem = s.dmem := by cases n <;> rfl

/-- What a command that passes its checks does to DMEM is a run that writes only entries it touches. -/
theorem effectOf_dmemRun {i : Instr} {s : State} (h : checkOf s.params s.ntaps.toNat i = none) :
    ∃ u, DmemRun (Touches i) s u ∧ (effectOf i s).dmem = u.dmem := by
  cases i with
  | fft inv base n => exact ⟨_, DmemRun.fft s inv base (regionCheck_eq_none.1 h).1.1, rfl⟩
  | bitrev base n => exact ⟨_, DmemRun.permute s base (regionCheck_eq_none.1 h).1.1, rfl⟩
  | stage inv base n st =>
    obtain ⟨⟨hn, -⟩, hst, -⟩ := stageCheck_eq_none.1 h
    exact ⟨_, DmemRun.stage s inv base hn hst, rfl⟩
  | scale base n => exact ⟨_, DmemRun.scale s base n, rfl⟩
  | bfly inv p q t => exact ⟨_, DmemRun.bflyAt s inv t (.inl rfl) (.inr rfl), rfl⟩
  | vcmul dst src count => exact ⟨_, DmemRun.vcmul s dst src count, rfl⟩
  | nop | fir _ | iir _ _ | sos _ _ => exact ⟨s, .refl s, rfl⟩
  | rbwr id => exact ⟨s, .refl s, s.setRing_dmem _ _⟩
  | rbrd id => exact ⟨s, .refl s, s.setRing_dmem _ _⟩
  | rbclr id => exact ⟨s, .refl s, s.setRing_dmem _ _⟩

/-- The entries a command touches exist when its checks pass (60_exceptions.md R134, ADDR_RANGE). -/
theorem Touches.lt_dmemEntries {p : Params} {taps : Nat} {i : Instr} {e : Nat} (ht : Touches i e) (h : checkOf p taps i = none) :
    e < p.dmemEntries := by
  cases i with
  | fft _ base n | bitrev base n | scale base n =>
    have := (regionCheck_eq_none.1 h).2
    exact lt_of_lt_of_le ht.2 this
  | stage _ base n st => exact lt_of_lt_of_le ht.2 (stageCheck_eq_none.1 h).2.2
  | bfly _ p q t =>
    have := (bflyCheck_eq_none.1 h).2
    obtain rfl | rfl := ht
    · exact this.1
    · exact this.2
  | vcmul dst src count => exact lt_of_lt_of_le ht.2 (vcmulCheck_eq_none.1 h).1
  | nop | fir _ | iir _ _ | sos _ _ | rbwr _ | rbrd _ | rbclr _ => exact ht.elim

/-! What a reset abandons. -/

@[simp] theorem mem_ifChecked {c : Option ErrCode} {es : List Nat} {e : Nat} : e ∈ ifChecked c es ↔ c = none ∧ e ∈ es := by
  cases c <;> simp [ifChecked]

/-- The entries a command could write are those it touches, if its checks pass (70_reset_and_hazards.md R153). The check of FIR,
which alone reads NTAPS, does not matter: FIR touches no entry. -/
theorem mem_dmemTargets {p : Params} (taps : Nat) {i : Instr} {e : Nat} :
    e ∈ dmemTargets p i ↔ checkOf p taps i = none ∧ Touches i e := by
  cases i <;> simp [dmemTargets, checkOf, Touches, List.mem_range'_1]

/-- A reset abandons existing entries only. -/
theorem State.lt_of_mem_abandoned {s : State} {e : Nat} (h : e ∈ s.abandoned) : e < s.params.dmemEntries := by
  unfold State.abandoned at h
  split at h
  · split at h
    · obtain ⟨hc, ht⟩ := (mem_dmemTargets s.ntaps.toNat).1 h
      exact ht.lt_dmemEntries hc
    · cases h
  · cases h

theorem Memory.wf_foldl_eraseEntry (es : List Nat) {m : List Host.Cell} (h : Memory.wf m = true) :
    Memory.wf (es.foldl eraseEntry m) = true := by
  induction es generalizing m with
  | nil => exact h
  | cons e es ih => exact ih (Memory.wf_eraseWord _ (Memory.wf_eraseWord _ h))

theorem State.dmemOk_doReset {s : State} (h : s.DmemOk) : s.doReset.DmemOk :=
  ⟨Memory.wf_foldl_eraseEntry _ h.1, fun c hc => h.2 c (Memory.mem_foldl_eraseEntry hc).1⟩

/-- The sizes after reset are those the parameters fix (70_reset_and_hazards.md R151). -/
theorem State.sized_resetFor {p : Params} (h : p.Legal) : (State.resetFor p).Sized := by
  obtain ⟨-, -, ⟨hcap, -⟩, -⟩ := h
  refine ⟨List.length_replicate, RingBuf.ok_cleared hcap, List.length_replicate, fun c hc => ?_⟩
  rw [List.eq_of_mem_replicate hc]
  exact Section.ok_cleared

/-! Each operation keeps the state well formed. -/

/-- From a well-formed `s` the operation that leaves `t` leaves it well formed, and the parameters as they are. -/
def KeepsWf (s t : State) : Prop := s.Wf → t.Wf ∧ t.params = s.params

theorem KeepsWf.trans {s t u : State} (h : KeepsWf s t) (h' : KeepsWf t u) : KeepsWf s u := fun hs => by
  obtain ⟨ht, hp⟩ := h hs
  obtain ⟨hu, hp'⟩ := h' ht
  exact ⟨hu, hp'.trans hp⟩

/-- The number of an error is one of R134's table. -/
theorem ErrCode.code_range (c : ErrCode) : 1 ≤ c.code.toNat ∧ c.code.toNat ≤ 8 := by cases c <;> decide

theorem State.errOk_record {s : State} (c : ErrCode) (i : Word) (h : s.ErrOk) : (s.record c i).ErrOk := by
  refine ⟨fun hf => by simp at hf, fun _ => ?_⟩
  rw [State.record_errCode]
  split
  next he => exact h.2 he
  next => exact c.code_range

theorem KeepsWf.record (s : State) (c : ErrCode) (i : Word) : KeepsWf s (s.record c i) := by
  rintro ⟨hp, hz, hd, hl, he⟩
  refine ⟨⟨by simpa using hp, by simpa [State.Sized] using hz, State.dmemOk_congr (by simp) (by simp) hd,
    State.lostOk_congr (by simp) (by simp) (by simp) hl, State.errOk_record c i he⟩, by simp⟩

theorem KeepsWf.raiseErr (s : State) (c : ErrCode) : KeepsWf s (s.raiseErr c) := KeepsWf.record s c s.cmd

theorem KeepsWf.doReset (s : State) : KeepsWf s s.doReset := by
  rintro ⟨hp, -, hd, hl, -⟩
  exact ⟨⟨hp, State.sized_resetFor hp, State.dmemOk_doReset hd, State.lostOk_doReset (fun _ => State.lt_of_mem_abandoned) hl,
    fun _ => ⟨rfl, rfl⟩, fun h => by simp at h⟩, rfl⟩

theorem KeepsWf.clockEdge (s : State) (level : Bool) : KeepsWf s (s.clockEdge level) := by
  cases level
  · exact KeepsWf.doReset s
  · exact fun h => ⟨h, rfl⟩

/-- A command's effect, when its checks pass. -/
theorem KeepsWf.effectOf {i : Instr} {s : State} (hc : checkOf s.params s.ntaps.toNat i = none) : KeepsWf s (effectOf i s) := by
  rintro ⟨hp, hz, hd, hl, he⟩
  have hk := effectOf_keepsConfig i s
  obtain ⟨u, hr, hu⟩ := effectOf_dmemRun hc
  have hup := hk.params.trans hr.onlyDmem.params.symm
  have hul := hk.lost.trans hr.onlyDmem.lost.symm
  refine ⟨⟨hk.params ▸ hp, State.sized_effectOf i hz, ?_, State.lostOk_congr hu hul hup (hr.lostOk hl), ?_⟩, hk.params⟩
  · exact State.dmemOk_congr hu hup (hr.dmemOk (fun _ ht => ht.lt_dmemEntries hc) hd)
  · unfold State.ErrOk
    rw [hk.err, hk.errCode, hk.errInfo]
    exact he

theorem KeepsWf.exec {i : Instr} {s t : State} (h : exec i s = .next t) : KeepsWf s t := by
  obtain ⟨e, -, rfl⟩ | ⟨hc, rfl⟩ := exec_cases h
  · exact KeepsWf.raiseErr s e
  · exact KeepsWf.effectOf hc

theorem KeepsWf.engineTurn {s t : State} (h : engineTurn s = .next t) : KeepsWf s t := by
  obtain ⟨-, rfl⟩ | ⟨-, i, -, hx⟩ | ⟨-, -, rfl⟩ := engineTurn_cases h
  · exact fun h => ⟨h, rfl⟩
  · exact KeepsWf.exec hx
  · exact KeepsWf.raiseErr s _

/-! The host's accesses. -/

theorem KeepsWf.readLoc (s : State) (l : Loc) : KeepsWf s (s.readLoc l).2 := by
  cases l with
  | dmem e im =>
    show KeepsWf s (s.readDmem (dmemAddr e im)).2
    cases hw : Memory.readWord s.dmem (dmemAddr e im) with
    | some v => rw [State.readDmem_of_some hw]; exact fun h => ⟨h, rfl⟩
    | none => rw [State.readDmem_of_none hw]; exact fun h => ⟨h, rfl⟩
  | _ => exact fun h => ⟨h, rfl⟩

theorem KeepsWf.hostRead (s : State) (a : Addr) : KeepsWf s (s.hostRead a) := by
  unfold State.hostRead
  split
  · exact fun h => ⟨h, rfl⟩
  next l _ =>
    dsimp only
    split
    · exact fun h => ⟨h, rfl⟩
    · exact KeepsWf.readLoc s l

@[simp] theorem ifMapped_eq_some {b : Bool} {o : Option Loc} {l : Loc} : ifMapped b o = some l ↔ b = true ∧ o = some l := by
  cases b <;> simp [ifMapped]

theorem implemented_of_locateControl {p : Params} {k : Nat} {l : Loc} (h : locateControl k = some l) : l.Implemented p := by
  unfold locateControl at h
  split at h <;> cases h <;> trivial

theorem implemented_of_locateSection {p : Params} {k n : Nat} {l : Loc} (hk : k < p.nsec) (h : locateSection k n = some l) :
    l.Implemented p := by
  unfold locateSection at h
  split at h <;> cases h <;> simp [Loc.Implemented, hk]

/-- What the address map names is implemented (20_memory.md R39). -/
theorem implemented_of_locate {p : Params} {a : Nat} {l : Loc} (h : locate p a = some l) : l.Implemented p := by
  simp only [locate] at h
  split_ifs at h
  · exact implemented_of_locateControl h
  · obtain ⟨hi, rfl⟩ : _ ∧ Loc.h _ = l := by simpa using h
    exact hi
  · obtain ⟨hi, rfl⟩ : _ ∧ Loc.firSlot _ = l := by simpa using h
    exact hi
  · obtain ⟨hi, hl⟩ := ifMapped_eq_some.1 h
    exact implemented_of_locateSection (by simpa using hi) hl
  · obtain ⟨hi, rfl⟩ : _ ∧ Loc.rom _ _ = l := by simpa using h
    exact hi
  · obtain ⟨hi, rfl⟩ : _ ∧ Loc.dmem _ _ = l := by simpa using h
    exact hi

/-- The host's store of a word of an existing entry keeps DMEM well formed. -/
theorem State.dmemOk_hostDmem {s : State} {e : Nat} (im : Bool) (v : Word) (he : e < s.params.dmemEntries) (h : s.DmemOk) :
    (s.hostDmem (dmemAddr e im) v).DmemOk := by
  refine ⟨Memory.wf_writeWord _ _ h.1, fun c hc => ?_⟩
  obtain ⟨h1, h2⟩ | hc := Memory.mem_writeWord hc
  · rw [State.hostDmem_params]
    cases im <;> simp only [dmemAddr, if_true, Bool.false_eq_true, if_false] at h1 h2 <;> omega
  · exact h.2 c hc

theorem Section.ok_setCoef {c : Section} (k : Coef) (v : Word) (h : c.Ok) : (c.setCoef k v).Ok := by cases k <;> exact h

theorem KeepsWf.storeLoc {s : State} {l : Loc} (v : Word) (hl : l.Implemented s.params) : KeepsWf s (s.storeLoc l v) := by
  rintro ⟨hp, ⟨hh, hf, hn, hc⟩, hd, hlost, he⟩
  cases l with
  | h i => exact ⟨⟨hp, ⟨by simpa [State.storeLoc] using hh, hf, hn, hc⟩, hd, hlost, he⟩, rfl⟩
  | coef k c =>
    have hsec := Section.ok_set hc (Section.ok_setCoef c v (Section.ok_getD hc k)) k
    exact ⟨⟨hp, ⟨hh, hf, by simpa [State.storeLoc] using hn, hsec⟩, hd, hlost, he⟩, rfl⟩
  | dmem e im =>
    exact ⟨⟨hp, ⟨hh, hf, hn, hc⟩, State.dmemOk_hostDmem im v hl hd, State.lostOk_hostDmem v (dmemAddr_mod e im) hlost, he⟩, rfl⟩
  | _ => exact ⟨⟨hp, ⟨hh, hf, hn, hc⟩, hd, hlost, he⟩, rfl⟩

theorem KeepsWf.issue (s : State) (v : Word) : KeepsWf s (s.issue v) := by
  unfold State.issue
  split
  · exact KeepsWf.record s _ v
  · exact fun h => ⟨h, rfl⟩

theorem KeepsWf.writeCtrl (s : State) (v : Word) : KeepsWf s (s.writeCtrl v) := by
  unfold State.writeCtrl
  split
  · exact KeepsWf.doReset s
  · exact fun h => ⟨h, rfl⟩

/-- Clearing ERR empties the error record (10_state.md R19). -/
theorem State.errOk_clearFlags {s : State} (v : Word) (h : s.ErrOk) : (s.clearFlags v).ErrOk := by
  unfold State.ErrOk
  simp only [State.clearFlags_err, State.clearFlags_errCode, State.clearFlags_errInfo]
  cases v.getLsbD 2
  · simpa [State.ErrOk] using h
  · simp

theorem KeepsWf.clearFlags (s : State) (v : Word) : KeepsWf s (s.clearFlags v) := by
  rintro ⟨hp, hz, hd, hl, he⟩
  exact ⟨⟨hp, hz, hd, hl, State.errOk_clearFlags v he⟩, rfl⟩

theorem KeepsWf.writeLoc {s : State} (a : Addr) {l : Loc} (v : Word) (hl : l.Implemented s.params) : KeepsWf s (s.writeLoc a l v) := by
  obtain ⟨-, h⟩ | ⟨-, h⟩ | ⟨-, h⟩ | ⟨-, -, -, h⟩ := writeLoc_cases s a l v
  · exact h ▸ KeepsWf.issue s v
  · exact h ▸ KeepsWf.writeCtrl s v
  · exact h ▸ KeepsWf.clearFlags s v
  · rw [h]
    split
    · exact KeepsWf.record s _ _
    · exact KeepsWf.storeLoc v hl

theorem KeepsWf.hostWrite (s : State) (a : Addr) (v : Word) : KeepsWf s (s.hostWrite a v) := by
  obtain ⟨h, -⟩ | ⟨l, hl, -, h⟩ := hostWrite_cases s a v
  · exact h ▸ fun hs => ⟨hs, rfl⟩
  · exact h ▸ KeepsWf.writeLoc a v (implemented_of_locate hl)

/-! A step. -/

theorem KeepsWf.takeTurn {u : Turn} {s t : State} (h : takeTurn u s = .next t) : KeepsWf s t := by
  obtain ⟨r, -, rfl⟩ | ⟨-, h⟩ | ⟨level, -, rfl⟩ := takeTurn_cases h
  · cases r with
    | read a => exact KeepsWf.hostRead s a
    | write a v => exact KeepsWf.hostWrite s a v
  · exact KeepsWf.engineTurn h
  · exact KeepsWf.clockEdge s level

/-- The turns lined up and the response are no part of well-formedness, so what keeps the rest keeps it. -/
theorem KeepsWf.of_agenda_resp {s t : State} {us : List Turn} {r : Option Response}
    (h : KeepsWf { s with agenda := us, resp := r } t) : KeepsWf s t := h

theorem KeepsWf.step {s t : State} (h : step s = .next t) : KeepsWf s t := by
  obtain ⟨-, u, us, -, h⟩ | ⟨-, -, h⟩ | ⟨-, level, us, -, rfl⟩ | ⟨-, -, rfl⟩ := step_cases h
  · exact (KeepsWf.takeTurn h).of_agenda_resp
  · exact (KeepsWf.engineTurn h).of_agenda_resp
  · exact (KeepsWf.clockEdge _ level).of_agenda_resp
  · exact fun hs => ⟨hs, rfl⟩

/-- Settles O8: by the turn the step takes and the operation that turn runs, each of which keeps the state well formed. -/
theorem stepKeepsWellFormed : Obligations.StepKeepsWellFormed := by
  intro s t hs h
  exact KeepsWf.step h hs

end Sys2Proof.Machine

namespace Sys2Proof.Machine

open Sys2Proof

/-! What each command may change of its results (10_state.md R37). -/

theorem Section.coef_biquad (c : Section) (x acc : Word) (k : Coef) : (biquad c x acc).2.coef k = c.coef k := by cases k <;> rfl

/-- A section replaced by one with its coefficients keeps every coefficient. -/
theorem coef_getD_set {l : List Section} {k : Nat} {d : Section} (hd : ∀ c, d.coef c = (l.getD k Section.cleared).coef c) (j : Nat)
    (c : Coef) : ((l.set k d).getD j Section.cleared).coef c = (l.getD j Section.cleared).coef c := by
  rw [getD_set]
  split
  next h => rw [hd, h.1]
  next => rfl

theorem coef_cascade (ks : List Nat) (v : Word) (l : List Section) (j : Nat) (c : Coef) :
    ((cascade ks v l).2.getD j Section.cleared).coef c = (l.getD j Section.cleared).coef c := by
  induction ks generalizing v l with
  | nil => rfl
  | cons k ks ih => exact (ih _ _).trans (coef_getD_set (Section.coef_biquad _ v posZero) j c)

@[simp] theorem State.setRing_draws (s : State) (n : RingName) (r : RingBuf) : (s.setRing n r).draws = s.draws := by cases n <;> rfl
@[simp] theorem State.setRing_acc (s : State) (n : RingName) (r : RingBuf) : (s.setRing n r).acc = s.acc := by cases n <;> rfl
@[simp] theorem State.setRing_rbdata (s : State) (n : RingName) (r : RingBuf) : (s.setRing n r).rbdata = s.rbdata := by cases n <;> rfl

/-- The FIR ring is ring 0 and no other (43_ring_buffer.md R107). -/
theorem State.setRing_fir_of_ne_zero {s : State} {id : Nat} (r : RingBuf) (h : id ≠ 0) : (s.setRing (ringOf id) r).fir = s.fir := by
  have hn : ringOf id ≠ .fir := fun he => h (ringOf_injective (he.trans ringOf_zero.symm))
  cases hr : ringOf id with
  | fir => exact absurd hr hn
  | xh k | yh k => rfl

/-- The results command `i` may leave changed in `t` (10_state.md R37): ACC, RBDATA, rings, DMEM, each by its own commands only,
and coefficients by none. -/
structure WritesOwnResults (i : Instr) (s t : State) : Prop where
  secs_length : t.secs.length = s.secs.length
  coef : ∀ k c, (t.sec k).coef c = (s.sec k).coef c
  acc : (∀ clr, i ≠ .fir clr) → (∀ clr k, i ≠ .iir clr k) → (∀ f n, i ≠ .sos f n) → t.acc = s.acc
  rbdata : (∀ id, i ≠ .rbrd id) → t.rbdata = s.rbdata
  fir : (∀ clr, i ≠ .fir clr) → i ≠ .rbwr 0 → i ≠ .rbrd 0 → i ≠ .rbclr 0 → t.fir = s.fir
  secs : (∀ clr k, i ≠ .iir clr k) → (∀ f n, i ≠ .sos f n) → (∀ id, i ≠ .rbwr id) → (∀ id, i ≠ .rbrd id) → (∀ id, i ≠ .rbclr id) →
    t.secs = s.secs
  dmem : (∀ v b n, i ≠ .fft v b n) → (∀ b n, i ≠ .bitrev b n) → (∀ v b n k, i ≠ .stage v b n k) → (∀ b n, i ≠ .scale b n) →
    (∀ v p q k, i ≠ .bfly v p q k) → (∀ d e n, i ≠ .vcmul d e n) → t.dmem = s.dmem ∧ t.draws = s.draws

/-- A command that changes DMEM and the draws only, and is one of those that may. -/
theorem OnlyDmem.writesOwnResults {i : Instr} {s t : State} (h : OnlyDmem s t)
    (hi : (∃ v b n, i = .fft v b n) ∨ (∃ b n, i = .bitrev b n) ∨ (∃ v b n k, i = .stage v b n k) ∨ (∃ b n, i = .scale b n) ∨
      (∃ v p q k, i = .bfly v p q k) ∨ ∃ d e n, i = .vcmul d e n) : WritesOwnResults i s t := by
  rw [h]
  refine ⟨rfl, fun _ _ => rfl, fun _ _ _ => rfl, fun _ => rfl, fun _ _ _ _ => rfl, fun _ _ _ _ _ => rfl, ?_⟩
  intro hfft hbitrev hstage hscale hbfly hvcmul
  obtain ⟨v, b, n, hi⟩ | ⟨b, n, hi⟩ | ⟨v, b, n, k, hi⟩ | ⟨b, n, hi⟩ | ⟨v, p, q, k, hi⟩ | ⟨d, e, n, hi⟩ := hi
  · exact absurd hi (hfft v b n)
  · exact absurd hi (hbitrev b n)
  · exact absurd hi (hstage v b n k)
  · exact absurd hi (hscale b n)
  · exact absurd hi (hbfly v p q k)
  · exact absurd hi (hvcmul d e n)

theorem effectOf_writesOwnResults (i : Instr) (s : State) : WritesOwnResults i s (effectOf i s) := by
  cases i with
  | nop =>
    exact ⟨rfl, fun _ _ => rfl, fun _ _ _ => rfl, fun _ => rfl, fun _ _ _ _ => rfl, fun _ _ _ _ _ => rfl,
      fun _ _ _ _ _ _ => ⟨rfl, rfl⟩⟩
  | fft inv base n => exact (OnlyDmem.fft s inv base n).writesOwnResults (by simp)
  | bitrev base n => exact (OnlyDmem.permute s base n).writesOwnResults (by simp)
  | stage inv base n st => exact (OnlyDmem.stage s inv base n st).writesOwnResults (by simp)
  | scale base n => exact (OnlyDmem.scale s base n).writesOwnResults (by simp)
  | bfly inv p q t => exact (OnlyDmem.bflyAt s inv p q t).writesOwnResults (by simp)
  | vcmul dst src count => exact (OnlyDmem.vcmul s dst src count).writesOwnResults (by simp)
  | fir clr =>
    exact ⟨rfl, fun _ _ => rfl, fun h _ _ => absurd rfl (h clr), fun _ => rfl, fun h _ _ _ => absurd rfl (h clr),
      fun _ _ _ _ _ => rfl, fun _ _ _ _ _ _ => ⟨rfl, rfl⟩⟩
  | iir clr k =>
    exact ⟨List.length_set, coef_getD_set (Section.coef_biquad _ _ _), fun _ h _ => absurd rfl (h clr k), fun _ => rfl,
      fun _ _ _ _ => rfl, fun h _ _ _ _ => absurd rfl (h clr k), fun _ _ _ _ _ _ => ⟨rfl, rfl⟩⟩
  | sos f n =>
    exact ⟨cascade_length _ _ _, coef_cascade _ _ _, fun _ _ h => absurd rfl (h f n), fun _ => rfl,
      fun _ _ _ _ => rfl, fun _ h _ _ _ => absurd rfl (h f n), fun _ _ _ _ _ _ => ⟨rfl, rfl⟩⟩
  | rbwr id =>
    exact ⟨s.setRing_secs_length _ _, s.coef_setRing _ _, fun _ _ _ => s.setRing_acc _ _, fun _ => s.setRing_rbdata _ _,
      fun _ h _ _ => State.setRing_fir_of_ne_zero _ (by simpa using h), fun _ _ h _ _ => absurd rfl (h id),
      fun _ _ _ _ _ _ => ⟨s.setRing_dmem _ _, s.setRing_draws _ _⟩⟩
  | rbrd id =>
    exact ⟨s.setRing_secs_length _ _, s.coef_setRing _ _, fun _ _ _ => s.setRing_acc _ _, fun h => absurd rfl (h id),
      fun _ _ h _ => State.setRing_fir_of_ne_zero (s := s) _ (by simpa using h), fun _ _ _ h _ => absurd rfl (h id),
      fun _ _ _ _ _ _ => ⟨s.setRing_dmem _ _, s.setRing_draws _ _⟩⟩
  | rbclr id =>
    exact ⟨s.setRing_secs_length _ _, s.coef_setRing _ _, fun _ _ _ => s.setRing_acc _ _, fun _ => s.setRing_rbdata _ _,
      fun _ _ _ h => State.setRing_fir_of_ne_zero _ (by simpa using h), fun _ _ _ _ h => absurd rfl (h id),
      fun _ _ _ _ _ _ => ⟨s.setRing_dmem _ _, s.setRing_draws _ _⟩⟩

/-- Settles O14: a command raises its error, which touches flags alone, or takes its effect, which leaves the configuration
(`effectOf_keepsConfig`) and the results of other commands (`effectOf_writesOwnResults`). -/
theorem commandsWriteOnlyTheirState : Obligations.CommandsWriteOnlyTheirState := by
  intro i s t h
  obtain ⟨e, -, rfl⟩ | ⟨-, rfl⟩ := exec_cases h
  · simp [State.sec]
  · have hk := effectOf_keepsConfig i s
    have hw := effectOf_writesOwnResults i s
    exact ⟨hk.params, hk.doneIe, hk.errIe, hk.cmd, hk.xin, hk.ntaps, hk.h, hk.lost, hk.rstN, hk.agenda, hk.resp, hw.secs_length,
      hw.coef, hw.acc, hw.rbdata, hw.fir, hw.secs, hw.dmem⟩

/-! No command reads a flag (10_state.md R14). -/

/-- `s` with the flags, the error record and the interrupt enables of `f`. -/
def State.flagsFrom (s f : State) : State :=
  { s with done := f.done, err := f.err, eovf := f.eovf, doneIe := f.doneIe, errIe := f.errIe, errCode := f.errCode, errInfo := f.errInfo }

theorem State.flagsFrom_params (s f : State) : (s.flagsFrom f).params = s.params := by rw [State.flagsFrom]

theorem State.readDmem_flagsFrom (s f : State) (a : Nat) :
    (s.flagsFrom f).readDmem a = ((s.readDmem a).1, (s.readDmem a).2.flagsFrom f) := by
  cases hw : Memory.readWord s.dmem a with
  | some v => rw [State.readDmem_of_some hw, State.readDmem_of_some (s := s.flagsFrom f) hw]
  | none => rw [State.readDmem_of_none hw, State.readDmem_of_none (s := s.flagsFrom f) hw]; rfl

theorem State.dread_flagsFrom (s f : State) (e : Nat) : (s.flagsFrom f).dread e = ((s.dread e).1, (s.dread e).2.flagsFrom f) := by
  simp only [State.dread, State.readDmem_flagsFrom]

theorem State.writeDmem_flagsFrom (s f : State) (a : Nat) (v : Word) :
    (s.flagsFrom f).writeDmem a v = (s.writeDmem a v).flagsFrom f := rfl

theorem State.dwrite_flagsFrom (s f : State) (e : Nat) (z : Cplx) : (s.flagsFrom f).dwrite e z = (s.dwrite e z).flagsFrom f := by
  simp only [State.dwrite, State.writeDmem_flagsFrom]

theorem State.readRegion_flagsFrom (s f : State) (base n : Nat) :
    (s.flagsFrom f).readRegion base n = ((s.readRegion base n).1, (s.readRegion base n).2.flagsFrom f) := by
  induction n generalizing s base with
  | zero => rfl
  | succ n ih => simp only [State.readRegion, State.dread_flagsFrom, ih]

/-- A loop whose every turn reads no flag reads none. -/
theorem State.foldl_flagsFrom {α : Type} {g : State → α → State} {f : State} (hg : ∀ s a, g (s.flagsFrom f) a = (g s a).flagsFrom f)
    (l : List α) (s : State) : l.foldl g (s.flagsFrom f) = (l.foldl g s).flagsFrom f :=
  List.foldl_hom (fun s => s.flagsFrom f) fun s a => hg s a

theorem State.writeEntries_flagsFrom (s f : State) (ws : List (Nat × Cplx)) :
    (s.flagsFrom f).writeEntries ws = (s.writeEntries ws).flagsFrom f :=
  State.foldl_flagsFrom (fun s w => s.dwrite_flagsFrom f w.1 w.2) ws s

theorem State.fft_flagsFrom (s f : State) (inv : Bool) (base n : Nat) :
    (s.flagsFrom f).fft inv base n = (s.fft inv base n).flagsFrom f := by
  simp only [State.fft, State.readRegion_flagsFrom]
  exact State.writeEntries_flagsFrom _ f _

theorem State.permute_flagsFrom (s f : State) (base n : Nat) :
    (s.flagsFrom f).permute base n = (s.permute base n).flagsFrom f := by
  simp only [State.permute, State.readRegion_flagsFrom, State.writeEntries_flagsFrom]

theorem State.bflyAt_flagsFrom (s f : State) (inv : Bool) (e o t : Nat) :
    (s.flagsFrom f).bflyAt inv e o t = (s.bflyAt inv e o t).flagsFrom f := by
  simp only [State.bflyAt, State.dread_flagsFrom, State.dwrite_flagsFrom, State.flagsFrom_params]

theorem State.scaleAt_flagsFrom (s f : State) (n e : Nat) : (s.flagsFrom f).scaleAt n e = (s.scaleAt n e).flagsFrom f := by
  simp only [State.scaleAt, State.dread_flagsFrom, State.dwrite_flagsFrom]

theorem State.vcmulAt_flagsFrom (s f : State) (d e : Nat) : (s.flagsFrom f).vcmulAt d e = (s.vcmulAt d e).flagsFrom f := by
  simp only [State.vcmulAt, State.dread_flagsFrom, State.dwrite_flagsFrom]

theorem State.setRing_flagsFrom (s f : State) (n : RingName) (r : RingBuf) :
    (s.flagsFrom f).setRing n r = (s.setRing n r).flagsFrom f := by cases n <;> rfl

theorem State.ring_flagsFrom (s f : State) (n : RingName) : (s.flagsFrom f).ring n = s.ring n := by cases n <;> rfl

/-- A command's effect reads no flag and leaves each as it is. -/
theorem effectOf_flagsFrom (i : Instr) (s f : State) : effectOf i (s.flagsFrom f) = (effectOf i s).flagsFrom f := by
  cases i with
  | nop | fir clr | iir clr k | sos first count => rfl
  | fft inv base n => exact s.fft_flagsFrom f inv base n
  | bitrev base n => exact s.permute_flagsFrom f base n
  | stage inv base n st => exact State.foldl_flagsFrom (fun s b => s.bflyAt_flagsFrom f inv b.1 b.2.1 b.2.2) _ s
  | scale base n => exact State.foldl_flagsFrom (fun s i => s.scaleAt_flagsFrom f n (base + i)) _ s
  | bfly inv p q t => exact s.bflyAt_flagsFrom f inv p q t
  | vcmul dst src count => exact State.foldl_flagsFrom (fun s i => s.vcmulAt_flagsFrom f (dst + i) (src + i)) _ s
  | rbwr id => simp only [effectOf, State.ringWrite, State.ring_flagsFrom, State.setRing_flagsFrom]; rfl
  | rbrd id => simp only [effectOf, State.ringRead, State.ring_flagsFrom, State.setRing_flagsFrom]; rfl
  | rbclr id => simp only [effectOf, State.ringClear, State.ring_flagsFrom, State.setRing_flagsFrom]

/-- A command run with other flags ends as without, but for the flags. -/
theorem exec_flagsFrom {i : Instr} {s t : State} (f : State) (h : exec i s = .next t) :
    ∃ u, exec i (s.flagsFrom f) = .next u ∧ u = t.flagsFrom u := by
  rw [exec_eq, show checkOf (s.flagsFrom f).params (s.flagsFrom f).ntaps.toNat i = checkOf s.params s.ntaps.toNat i from rfl]
  obtain ⟨e, hc, rfl⟩ | ⟨hc, rfl⟩ := exec_cases h
  · refine ⟨(s.flagsFrom f).raiseErr e, by rw [hc, runCommand_some], ?_⟩
    simp only [State.raiseErr, State.record_eq, State.flagsFrom]
  · exact ⟨((effectOf i s).flagsFrom f).complete, by rw [hc, runCommand_none, effectOf_flagsFrom], rfl⟩

/-- Settles O17: checks and effects read no flag (`effectOf_flagsFrom`), and completing or raising an error changes flags alone. -/
theorem commandsReadNoFlag : Obligations.CommandsReadNoFlag := by
  intro i s t d e o di ei c n h
  exact exec_flagsFrom { s with done := d, err := e, eovf := o, doneIe := di, errIe := ei, errCode := c, errInfo := n } h

/-! The host's writes to STATUS and CTRL (10_state.md R18, R19). -/

/-- Out of reset a host access whose turn it is happens. -/
theorem step_of_host {s : State} {r : Request} {ts : List Turn} (hr : s.rstN = true) (ha : s.agenda = .host r :: ts) :
    step s = .next (State.hostAccess { s with agenda := ts, resp := none } r) := by
  simp only [step, turn, hr, if_true, nextTurn, ha, takeTurn]

theorem State.hostWrite_of_locate {s : State} {a : Addr} (v : Word) {l : Loc} (hl : locate s.params a.toNat = some l)
    (hw : l.readOnly = false) : s.hostWrite a v = (s.writeLoc a l v).ack := by
  simp [State.hostWrite, hl, hw]

/-- A write to a writable location takes its effect and is acknowledged (47_control.md R128). -/
theorem step_of_hostWrite {s : State} {a : Addr} {v : Word} {l : Loc} {ts : List Turn} (hr : s.rstN = true)
    (ha : s.agenda = .host (.write a v) :: ts) (hl : locate s.params a.toNat = some l) (hw : l.readOnly = false) :
    step s = .next (State.writeLoc { s with agenda := ts, resp := none } a l v).ack := by
  have hx := State.hostWrite_of_locate (s := { s with agenda := ts, resp := none }) v hl hw
  rw [step_of_host hr ha, State.hostAccess, hx]

/-- A write to CTRL without SRST sets the enables (10_state.md R18). -/
theorem State.writeCtrl_of_not_srst (s : State) {v : Word} (hv : v.getLsbD 2 = false) :
    s.writeCtrl v = { s with doneIe := v.getLsbD 0, errIe := v.getLsbD 1 } := by
  rw [State.writeCtrl, hv, if_neg Bool.false_ne_true]

/-- Settles O57: the address names STATUS, and the write clears the flags whatever BUSY is. -/
theorem statusWriteClears : Obligations.StatusWriteClears := by
  intro s ts v hr ha
  exact step_of_hostWrite (l := .status) hr ha rfl rfl

/-- Settles O58: the address names CTRL, and without SRST the write sets the enables, of which irq is a function. -/
theorem ctrlWriteSetsEnables : Obligations.CtrlWriteSetsEnables := by
  intro s ts v hr ha hv
  have hs := step_of_hostWrite (l := .ctrl) hr ha rfl rfl
  rw [State.writeLoc, State.writeCtrl_of_not_srst _ hv] at hs
  exact ⟨_, hs, rfl, rfl⟩

end Sys2Proof.Machine

/-! The family 20_memory.md: reads of DMEM (R48), the address map (R39) and refused writes (R46). -/

namespace Sys2Proof.Machine

open Sys2Proof

/-! Reads of DMEM (20_memory.md R48): specified regions, unspecified entries, lost words. -/

/-- A region of specified entries reads as their values and draws nothing. -/
theorem State.readRegion_of_entry? {s : State} {base n : Nat} {x : Nat → Cplx} (h : ∀ i < n, s.entry? (base + i) = some (x i)) :
    s.readRegion base n = ((List.range n).map x, s) := by
  induction n generalizing base x with
  | zero => rfl
  | succ n ih =>
    have hhead : s.dread base = (x 0, s) := State.dread_of_entry? (h 0 n.succ_pos)
    have htail : s.readRegion (base + 1) n = ((List.range n).map (x ∘ Nat.succ), s) := ih fun i hi => by
      rw [Nat.add_right_comm]
      exact h (i + 1) (by omega)
    simp only [State.readRegion, hhead, htail, List.range_succ_eq_map, List.map_cons, List.map_map]

/-- Reading an entry neither of whose words is specified draws both, the real one first (log entry 4). -/
theorem State.dread_of_none {s : State} {e : Nat} (hre : Memory.readWord s.dmem (dmemAddr e false) = none)
    (him : Memory.readWord s.dmem (dmemAddr e true) = none) : s.dread e = (⟨s.draw.1, s.draw.2.draw.1⟩, s.draw.2.draw.2) := by
  have hdraw : s.draw.2.readDmem (dmemAddr e true) = s.draw.2.draw := State.readDmem_of_none him
  simp only [State.dread, State.readDmem_of_none hre, hdraw]

/-- No byte of a lost word is specified (70_reset_and_hazards.md R153). -/
theorem State.readWord_of_lost {s : State} (hs : s.LostOk) {a : Nat} (ha : a ∈ s.lost) : Memory.readWord s.dmem a = none := by
  have hfirst : Memory.read s.dmem a = none := Memory.read_none_of_ne fun c hc => by
    have := (hs.2 a ha).2 c hc
    omega
  simp [Memory.readWord, Memory.readBytes, hfirst]

/-- Settles O20: a specified region by induction on its length, and a word that is not specified draws, as a lost one is. -/
theorem entriesReadTheirValuesOrDraw : Obligations.EntriesReadTheirValuesOrDraw :=
  ⟨fun _ _ _ _ h => State.readRegion_of_entry? h, fun _ _ hre him => State.dread_of_none hre him,
    fun _ _ hs ha => State.readDmem_of_none (State.readWord_of_lost hs ha)⟩

/-! The address map (20_memory.md R39): what an address names has that address. -/

theorem addr_of_locateControl {k : Nat} {l : Loc} (h : locateControl k = some l) : l.addr = 8 * k := by
  unfold locateControl at h
  split at h <;> cases h <;> rfl

theorem addr_of_locateSection {k n : Nat} {l : Loc} (h : locateSection k n = some l) : l.addr = sectionBase k + 8 * n := by
  unfold locateSection at h
  split at h <;> cases h <;> rfl

/-- An aligned address in a window of pairs is that of the word its bit 3 chooses (10_state.md R33, R34). -/
theorem pairWord_addr {a w : Nat} (hw : w % 16 = 0) (ha : a % 8 = 0) (hwa : w ≤ a) :
    w + 16 * ((a - w) / 16) + (if (a % 16 == 8) = true then 8 else 0) = a := by
  simp only [beq_iff_eq]
  split <;> omega

theorem addr_of_locate {p : Params} {a : Nat} {l : Loc} (h : locate p a = some l) : l.addr = a := by
  simp only [locate] at h
  split_ifs at h
  · rw [addr_of_locateControl h]; omega
  · obtain ⟨-, rfl⟩ : _ ∧ Loc.h _ = l := by simpa using h
    simp only [Loc.addr]; omega
  · obtain ⟨-, rfl⟩ : _ ∧ Loc.firSlot _ = l := by simpa using h
    simp only [Loc.addr]; omega
  · obtain ⟨-, hl⟩ := ifMapped_eq_some.1 h
    rw [addr_of_locateSection hl, sectionBase]; omega
  · obtain ⟨-, rfl⟩ : _ ∧ Loc.rom _ _ = l := by simpa using h
    exact pairWord_addr rfl (by omega) (by omega)
  · obtain ⟨-, rfl⟩ : _ ∧ Loc.dmem _ _ = l := by simpa using h
    exact pairWord_addr rfl (by omega) (by omega)

/-! Window by window: the location an address of the window names. -/

theorem locate_h {p : Params} {i : Nat} (hi : i < p.firCap) (hcap : p.firCap ≤ 512) : locate p (0x1000 + 8 * i) = some (.h i) := by
  have hidx : (0x1000 + 8 * i - 0x1000) / 8 = i := by omega
  simp (disch := omega) only [locate, if_neg, if_pos, hidx]
  simp [hi]

theorem locate_firSlot {p : Params} {i : Nat} (hi : i < p.firCap) (hcap : p.firCap ≤ 512) :
    locate p (0x2000 + 8 * i) = some (.firSlot i) := by
  have hidx : (0x2000 + 8 * i - 0x2000) / 8 = i := by omega
  simp (disch := omega) only [locate, if_neg, if_pos, hidx]
  simp [hi]

/-- Word `n` of an implemented section block (10_state.md R30). -/
theorem locate_section {p : Params} {k n : Nat} (hk : k < p.nsec) (hsec : p.nsec ≤ 32) (hn : n < 16) :
    locate p (sectionBase k + 8 * n) = locateSection k n := by
  have hblock : (0x3000 + 0x80 * k + 8 * n - 0x3000) / 0x80 = k := by omega
  have hword : (0x3000 + 0x80 * k + 8 * n - 0x3000) % 0x80 / 8 = n := by omega
  rw [sectionBase]
  simp (disch := omega) only [locate, if_neg, if_pos, hblock, hword]
  simp [hk, ifMapped]

theorem pairWord_offset (im : Bool) : (if im then 8 else 0) = 0 ∨ (if im then 8 else 0) = 8 := by cases im <;> simp

/-- The entry and the word of a pair, read back from the address (10_state.md R33, R34). -/
theorem pairWord_index (w j : Nat) (im : Bool) : (w + 16 * j + (if im then 8 else 0) - w) / 16 = j := by split <;> omega

theorem pairWord_im {w : Nat} (hw : w % 16 = 0) (j : Nat) (im : Bool) : ((w + 16 * j + if im then 8 else 0) % 16 == 8) = im := by
  cases im <;> simp <;> omega

theorem locate_rom {p : Params} {j : Nat} (im : Bool) (hj : j < p.nmax / 2) (hrom : p.nmax / 2 ≤ 1024) :
    locate p (Loc.rom j im).addr = some (.rom j im) := by
  have hoff := pairWord_offset im
  simp (disch := omega) only [locate, Loc.addr, pairWord_index, pairWord_im, if_neg, if_pos]
  simp [hj]

theorem locate_dmem {p : Params} {e : Nat} (im : Bool) (he : e < p.dmemEntries) :
    locate p (Loc.dmem e im).addr = some (.dmem e im) := by
  have hoff := pairWord_offset im
  simp (disch := omega) only [locate, Loc.addr, pairWord_index, pairWord_im, if_neg]
  simp [he]

/-- NMAX is at most 2^11 (00_scope.md R6), so the ROM fits its window. -/
theorem nmax_le_of_legal {p : Params} (h : p.Legal) : p.nmax ≤ 2048 := by
  obtain ⟨⟨-, hmax⟩, -⟩ := h
  exact Nat.pow_le_pow_right Nat.two_pos hmax

/-- An implemented location is what its address names (20_memory.md R39). -/
theorem locate_addr {p : Params} {l : Loc} (hp : p.Legal) (hl : l.Implemented p) : locate p l.addr = some l := by
  have hnmax := nmax_le_of_legal hp
  obtain ⟨-, -, ⟨-, hcap⟩, ⟨-, hsec⟩, -⟩ := hp
  cases l with
  | h i => exact locate_h hl hcap
  | firSlot i => exact locate_firSlot hl hcap
  | coef k c =>
    have hword : locate p (sectionBase k + 8 * (c.offset / 8)) = locateSection k (c.offset / 8) :=
      locate_section hl hsec (by cases c <;> decide)
    cases c <;> exact hword
  | xhSlot k i =>
    obtain ⟨hk, hi⟩ := hl
    interval_cases i
    · exact locate_section (n := 6) hk hsec (by decide)
    · exact locate_section (n := 7) hk hsec (by decide)
    · exact locate_section (n := 8) hk hsec (by decide)
  | yhSlot k i =>
    obtain ⟨hk, hi⟩ := hl
    interval_cases i
    · exact locate_section (n := 9) hk hsec (by decide)
    · exact locate_section (n := 10) hk hsec (by decide)
  | secCur k => exact locate_section (n := 11) hl hsec (by decide)
  | rom j im => exact locate_rom im hl (by omega)
  | dmem e im => exact locate_dmem im hl
  | _ => rfl

/-- Settles O51: what an address names is implemented and has that address, and an implemented location is what its address names. -/
theorem addressMap : Obligations.AddressMap := by
  intro p a l hp
  constructor
  · exact fun h => ⟨implemented_of_locate h, (addr_of_locate h).symm⟩
  · rintro ⟨hl, rfl⟩
    exact locate_addr hp hl

/-! Refused writes (20_memory.md R46). -/

/-- A write to what is unmapped or read-only answers bus_err alone. -/
theorem State.hostWrite_of_refused {s : State} {a : Addr} (v : Word) (h : ∀ l, locate s.params a.toNat = some l → l.readOnly = true) :
    s.hostWrite a v = { s with resp := some ⟨true, none⟩ } := by
  obtain ⟨hw, -⟩ | ⟨l, hl, hr, -⟩ := hostWrite_cases s a v
  · exact hw
  · simp [h l hl] at hr

/-- Settles O54: the host's turn is taken and its write is refused. -/
theorem refusedWriteChangesNothing : Obligations.RefusedWriteChangesNothing := by
  intro s ts a v hr ha h
  have hx := State.hostWrite_of_refused (s := { s with agenda := ts, resp := none }) v h
  rw [step_of_host hr ha, State.hostAccess, hx]

end Sys2Proof.Machine

/-! The family 30_encoding.md: decode and encode agree (R55, R57, R58, R61), the legal words (R59, R60), and the worked encodings (R64). -/

namespace Sys2Proof.Machine

open Sys2Proof

/-- Every word is packed from some fields (R55). -/
theorem exists_packWord_eq (w : Word) : ∃ o i c r a b d, packWord o i c r a b d = w := ⟨_, _, _, _, _, _, _, packWord_fields w⟩

/-- What an operand field holds is below 65536 (R56). -/
theorem field_lt (x : BitVec 16) : x.toNat < 65536 := x.isLt

/-- A command's word matches its own row alone, and each operand comes back modulo 2^16: the same one just when it fits (R55, R58). -/
theorem decode_encode_iff (i : Instr) : decode (encode i) = .command i ↔ i.WellFormed := by
  cases i <;> simp [encode, commandWord, decode_packWord, Instr.WellFormed, Instr.operands]

/-- Settles O2. -/
theorem decodeOfEncode : Obligations.DecodeOfEncode := fun i => (decode_encode_iff i).mpr

/-- A word that decodes by a row or by the rows below is its command's own word, when both say so. -/
theorem encode_of_row {w : Word} {p : Prop} [Decidable p] {i j : Instr} {below : Decoded}
    (hrow : p → j.WellFormed ∧ encode j = w) (hbelow : below = .command i → i.WellFormed ∧ encode i = w) :
    (if p then .command j else below) = .command i → i.WellFormed ∧ encode i = w := by
  split
  next hp =>
    rintro ⟨⟩
    exact hrow hp
  next => exact hbelow

/-- Settles O3, row by row: a row's conditions leave no field free but the command's operands. -/
theorem encodeOfDecode : Obligations.EncodeOfDecode := by
  intro w i
  obtain ⟨o, v, c, r, a, b, d, rfl⟩ := exists_packWord_eq w
  rw [decode_packWord]
  iterate 13
    refine encode_of_row (fun hf => ?_) ?_
    · simp [encode, commandWord, hf, Instr.WellFormed, Instr.operands, field_lt]
  nofun

/-- Every command's word carries its opcode and is legal (R57, R59). -/
theorem legalEncoding (i : Instr) : Laws.LegalEncoding.Statement i := by
  cases i with
  | nop => exact Laws.LegalEncoding.nop
  | fft inv base n => exact Laws.LegalEncoding.fft inv base n
  | bitrev base n => exact Laws.LegalEncoding.bitrev base n
  | stage inv base n s => exact Laws.LegalEncoding.stage inv base n s
  | scale base n => exact Laws.LegalEncoding.scale base n
  | bfly inv p q t => exact Laws.LegalEncoding.bfly inv p q t
  | vcmul dst src count => exact Laws.LegalEncoding.vcmul dst src count
  | fir clr => exact Laws.LegalEncoding.fir clr
  | iir clr sec => exact Laws.LegalEncoding.iir clr sec
  | sos first count => exact Laws.LegalEncoding.sos first count
  | rbwr id => exact Laws.LegalEncoding.rbwr id
  | rbrd id => exact Laws.LegalEncoding.rbrd id
  | rbclr id => exact Laws.LegalEncoding.rbclr id

/-- A legal word matches the row of its opcode (R58, R59): opcode by opcode, the fields its columns leave unused are the row's conditions. -/
theorem LegalWord.exists_decode {w : Word} (h : LegalWord w) : ∃ i, decode w = .command i := by
  obtain ⟨o, v, c, r, a, b, d, rfl⟩ := exists_packWord_eq w
  obtain ⟨u, hu, hr, hv, hc, ha, hb, hd⟩ := h
  simp only [opcOf_packWord, invOf_packWord, clrOf_packWord, reservedOf_packWord, faOf_packWord, fbOf_packWord, fcOf_packWord]
    at hu hr hv hc ha hb hd
  unfold fieldUse at hu
  split at hu <;> cases hu <;>
    simp [decode_packWord, BitVec.toNat_eq, *]

/-- Settles O4: what decodes is a command's own word, so it is legal; a legal word matches its opcode's row. -/
theorem decodeAcceptsExactlyLegalWords : Obligations.DecodeAcceptsExactlyLegalWords := by
  intro w
  constructor
  · rintro ⟨i, h⟩
    obtain ⟨-, rfl⟩ := encodeOfDecode w i h
    obtain ⟨-, hlegal⟩ := legalEncoding i
    exact hlegal
  · exact LegalWord.exists_decode

/-- A word that is not legal decodes to a reason (R59, R60). -/
theorem exists_illegal_of_not_legalWord {w : Word} (h : ¬ LegalWord w) : ∃ y, decode w = .illegal y := by
  cases hd : decode w with
  | command i => exact absurd ((decodeAcceptsExactlyLegalWords w).mp ⟨i, hd⟩) h
  | illegal y => exact ⟨y, rfl⟩

/-- Out of reset the engine's turn, when it is next, is the step. -/
theorem step_of_engine {s : State} {ts : List Turn} (hr : s.rstN = true) (ha : s.agenda = .engine :: ts) :
    step s = engineTurn { s with agenda := ts, resp := none } := by
  simp only [step, turn, hr, if_true, nextTurn, ha, takeTurn]

/-- The engine takes ILLEGAL_CMD for a pending word that is no command (47_control.md R125). -/
theorem engineTurn_of_illegal {s : State} {y : Illegal} (hb : s.busy = true) (h : decode s.cmd = .illegal y) :
    engineTurn s = .next (s.raiseErr .illegalCmd) := by
  simp only [engineTurn, hb, if_true, engineStep, h]

/-- Settles O6: the engine's turn raises ILLEGAL_CMD, and raising records the error and clears BUSY. -/
theorem illegalWordRaisesIllegalCmd : Obligations.IllegalWordRaisesIllegalCmd := by
  intro s ts hr hb hl ha
  obtain ⟨y, hy⟩ := exists_illegal_of_not_legalWord hl
  have hturn := engineTurn_of_illegal (s := { s with agenda := ts, resp := none }) hb hy
  rw [step_of_engine hr ha, hturn, State.raiseErr, State.record_eq]
  rfl

/-- Settles O1: each word is decoded. -/
theorem workedEncodingsDecode : Obligations.WorkedEncodingsDecode := by
  unfold Obligations.WorkedEncodingsDecode
  decide

end Sys2Proof.Machine

/-! The family 40_complex.md: the arithmetic of binary64 words (R65-R73, R81). -/

namespace Sys2Proof.Machine

open Sys2Proof

/-! Signed zeros and infinities. -/

theorem zeroWord_eq_signedZero (neg : Bool) : zeroWord neg = signedZero neg := by cases neg <;> decide

theorem infWord_eq_signedInf (neg : Bool) : infWord neg = signedInf neg := by cases neg <;> decide

/-- An infinity is the word of its sign. -/
theorem eq_infWord {w : Word} {n : Bool} (h : unpack w = .inf n) : w = infWord n := by
  unfold unpack at h
  split_ifs at h with he hf
  obtain rfl := Num.inf.inj h
  conv_lhs => rw [← withSign_fields w, he, hf, Nat.add_zero]
  rfl

/-- A value of magnitude 0 rounds to a zero of its sign. -/
@[simp] theorem roundMag_zero (neg : Bool) {c : Nat} (hc : 0 < c) : roundMag neg 0 c = zeroWord neg := by
  simpa using roundMag_exact hc (unpack_zeroWord neg)

theorem oneMag_pos : 0 < oneMag := by
  unfold oneMag
  positivity

/-! The operations, one equation for each kind of operands (R66-R70). -/

section operands

variable {a b : Word} {n₁ n₂ : Bool} {m₁ m₂ : Nat}

theorem fadd_nan_left (b : Word) (ha : unpack a = .nan) : fadd a b = canonicalNaN := by simp [fadd, ha]

theorem fadd_inf_inf (ha : unpack a = .inf n₁) (hb : unpack b = .inf n₂) :
    fadd a b = if n₁ = n₂ then infWord n₁ else canonicalNaN := by simp [fadd, ha, hb]

theorem fadd_inf_fin (ha : unpack a = .inf n₁) (hb : unpack b = .fin n₂ m₂) : fadd a b = infWord n₁ := by simp [fadd, ha, hb]

theorem fmul_nan_left (b : Word) (ha : unpack a = .nan) : fmul a b = canonicalNaN := by simp [fmul, ha]

theorem fmul_inf_inf (ha : unpack a = .inf n₁) (hb : unpack b = .inf n₂) : fmul a b = infWord (n₁ ^^ n₂) := by
  simp [fmul, ha, hb]

theorem fmul_inf_fin (ha : unpack a = .inf n₁) (hb : unpack b = .fin n₂ m₂) :
    fmul a b = if m₂ = 0 then canonicalNaN else infWord (n₁ ^^ n₂) := by simp [fmul, ha, hb]

/-- A product of finite operands is the exact one rounded, a zero too. -/
theorem fmul_eq_roundMag (ha : unpack a = .fin n₁ m₁) (hb : unpack b = .fin n₂ m₂) :
    fmul a b = roundMag (n₁ ^^ n₂) (m₁ * m₂) oneMag := by
  rw [fmul_fin ha hb]
  split
  next h => rw [h, roundMag_zero _ oneMag_pos]
  next => rfl

theorem fdiv_nan_left (b : Word) (ha : unpack a = .nan) : fdiv a b = canonicalNaN := by simp [fdiv, ha]

theorem fdiv_nan_right (a : Word) (hb : unpack b = .nan) : fdiv a b = canonicalNaN := by
  cases ha : unpack a <;> simp [fdiv, ha, hb]

theorem fdiv_inf_inf (ha : unpack a = .inf n₁) (hb : unpack b = .inf n₂) : fdiv a b = canonicalNaN := by simp [fdiv, ha, hb]

theorem fdiv_inf_fin (ha : unpack a = .inf n₁) (hb : unpack b = .fin n₂ m₂) : fdiv a b = infWord (n₁ ^^ n₂) := by
  simp [fdiv, ha, hb]

theorem fdiv_fin_inf (ha : unpack a = .fin n₁ m₁) (hb : unpack b = .inf n₂) : fdiv a b = zeroWord (n₁ ^^ n₂) := by
  simp [fdiv, ha, hb]

theorem fdiv_fin_zero (ha : unpack a = .fin n₁ m₁) (hb : unpack b = .fin n₂ 0) :
    fdiv a b = if m₁ = 0 then canonicalNaN else infWord (n₁ ^^ n₂) := by simp [fdiv, ha, hb]

theorem fdiv_eq_roundMag (ha : unpack a = .fin n₁ m₁) (hb : unpack b = .fin n₂ m₂) (h : m₂ ≠ 0) :
    fdiv a b = roundMag (n₁ ^^ n₂) (m₁ * oneMag) m₂ := by simp [fdiv, ha, hb, h]

end operands

/-! Commutativity (R81 (a), (b)). -/

theorem addFin_comm (n₁ : Bool) (m₁ : Nat) (n₂ : Bool) (m₂ : Nat) : addFin n₁ m₁ n₂ m₂ = addFin n₂ m₂ n₁ m₁ := by
  simp only [addFin, add_comm (signedMag n₁ m₁), Bool.and_comm n₁]

theorem fadd_comm (a b : Word) : fadd a b = fadd b a := by
  unfold fadd
  cases unpack a with
  | nan => cases unpack b <;> rfl
  | inf n₁ =>
    cases unpack b with
    | inf n₂ => cases n₁ <;> cases n₂ <;> rfl
    | _ => rfl
  | fin n₁ m₁ =>
    cases unpack b with
    | fin n₂ m₂ => exact addFin_comm n₁ m₁ n₂ m₂
    | _ => rfl

theorem fmul_comm (a b : Word) : fmul a b = fmul b a := by
  unfold fmul
  cases unpack a with
  | nan => cases unpack b <;> rfl
  | inf n₁ => cases unpack b <;> simp [Bool.xor_comm]
  | fin n₁ m₁ => cases unpack b <;> simp [Bool.xor_comm, Nat.mul_comm]

/-- Settles O46: the complex product's parts are a difference and a sum of products that commute. -/
theorem arithmeticCommutes : Obligations.ArithmeticCommutes := by
  refine ⟨fadd_comm, fmul_comm, fun a b => ?_⟩
  simp only [cmul, fmul_comm a.re, fmul_comm a.im, fadd_comm (fmul b.im a.re)]

/-! Identities (R81 (c), (e)). -/

/-- Multiplying by 1.0 multiplies the exact product by the units in 1.0, which the rounding divides out. -/
theorem fmul_one_left {x : Word} (hx : isNaN x = false) : fmul 0x3FF0000000000000 x = x := by
  have hone : unpack 0x3FF0000000000000 = .fin false oneMag := by decide +kernel
  cases h : unpack x with
  | nan => simp [isNaN, h] at hx
  | inf n =>
    rw [fmul_comm, fmul_inf_fin h hone, if_neg oneMag_pos.ne', Bool.xor_false]
    exact (eq_infWord h).symm
  | fin n m =>
    rw [fmul_eq_roundMag hone h, Bool.false_xor, Nat.mul_comm]
    exact roundMag_exact oneMag_pos h

/-- Adding +0.0 leaves the exact value, and an exact zero is -0.0 only when both operands are (R66). -/
theorem fadd_zero_right {x : Word} (hx : isNaN x = false) (hz : x ≠ 0x8000000000000000) : fadd x 0 = x := by
  have hzero : unpack 0 = .fin false 0 := unpack_zeroWord false
  cases h : unpack x with
  | nan => simp [isNaN, h] at hx
  | inf n =>
    rw [fadd_inf_fin h hzero]
    exact (eq_infWord h).symm
  | fin n m =>
    rw [fadd_fin h hzero]
    obtain rfl | hm := Nat.eq_zero_or_pos m
    · cases n with
      | false => exact (eq_zeroWord h).symm
      | true => exact absurd (eq_zeroWord h) hz
    · have hexact := roundMag_exact one_pos h
      rw [Nat.mul_one] at hexact
      have hneg : ¬ (m : Int) < 0 := Int.not_lt.2 (Int.natCast_nonneg m)
      cases n <;> simp [addFin, signedMag, hm, hm.ne', hneg, hexact]

/-- Settles O47. -/
theorem arithmeticIdentities : Obligations.ArithmeticIdentities := fun _ hx =>
  ⟨fmul_one_left hx, fadd_zero_right hx, by decide +kernel⟩

/-! NaNs (R72). -/

theorem fadd_nan_right (a : Word) {b : Word} (hb : unpack b = .nan) : fadd a b = canonicalNaN := by
  rw [fadd_comm, fadd_nan_left a hb]

theorem fmul_nan_right (a : Word) {b : Word} (hb : unpack b = .nan) : fmul a b = canonicalNaN := by
  rw [fmul_comm, fmul_nan_left a hb]

theorem fsub_nan_left {a : Word} (b : Word) (ha : unpack a = .nan) : fsub a b = canonicalNaN := fadd_nan_left _ ha

theorem fsub_nan_right (a : Word) {b : Word} (hb : unpack b = .nan) : fsub a b = canonicalNaN :=
  fadd_nan_right a (by rw [unpack_fneg, hb])

/-- A word that is the canonical NaN if it is one at all. -/
def NaNCanonical (w : Word) : Prop := isNaN w = true → w = canonicalNaN

theorem naNCanonical_canonicalNaN : NaNCanonical canonicalNaN := fun _ => rfl

theorem naNCanonical_infWord (neg : Bool) : NaNCanonical (infWord neg) := by simp [NaNCanonical, isNaN]

theorem naNCanonical_zeroWord (neg : Bool) : NaNCanonical (zeroWord neg) := by simp [NaNCanonical, isNaN]

theorem naNCanonical_roundMag (neg : Bool) (num den : Nat) : NaNCanonical (roundMag neg num den) := by
  obtain ⟨m, h⟩ | h := unpack_roundMag neg num den <;> simp [NaNCanonical, isNaN, h]

theorem naNCanonical_ite {p : Prop} [Decidable p] {v w : Word} (hv : NaNCanonical v) (hw : NaNCanonical w) :
    NaNCanonical (if p then v else w) := by
  split
  · exact hv
  · exact hw

theorem naNCanonical_fadd (a b : Word) : NaNCanonical (fadd a b) := by
  unfold fadd
  split
  · exact naNCanonical_canonicalNaN
  · exact naNCanonical_canonicalNaN
  · exact naNCanonical_ite (naNCanonical_infWord _) naNCanonical_canonicalNaN
  · exact naNCanonical_infWord _
  · exact naNCanonical_infWord _
  · exact naNCanonical_ite (naNCanonical_zeroWord _) (naNCanonical_roundMag _ _ _)

theorem naNCanonical_fmul (a b : Word) : NaNCanonical (fmul a b) := by
  unfold fmul
  split
  · exact naNCanonical_canonicalNaN
  · exact naNCanonical_canonicalNaN
  · exact naNCanonical_infWord _
  · exact naNCanonical_ite naNCanonical_canonicalNaN (naNCanonical_infWord _)
  · exact naNCanonical_ite naNCanonical_canonicalNaN (naNCanonical_infWord _)
  · exact naNCanonical_ite (naNCanonical_zeroWord _) (naNCanonical_roundMag _ _ _)

theorem naNCanonical_fdiv (a b : Word) : NaNCanonical (fdiv a b) := by
  unfold fdiv
  split
  · exact naNCanonical_canonicalNaN
  · exact naNCanonical_canonicalNaN
  · exact naNCanonical_canonicalNaN
  · exact naNCanonical_infWord _
  · exact naNCanonical_zeroWord _
  · exact naNCanonical_ite (naNCanonical_ite naNCanonical_canonicalNaN (naNCanonical_infWord _)) (naNCanonical_roundMag _ _ _)

/-- Settles O49: a NaN operand by the equations, a NaN result because an infinity, a zero and a rounded value are none. -/
theorem naNsAreCanonical : Obligations.NaNsAreCanonical := by
  refine ⟨rfl, fun a b => ⟨?_, fun n ha hb => ?_, fun n n' ha hb => ?_, fun n n' ha hb => fdiv_inf_inf ha hb, fun n n' ha hb => ?_,
    naNCanonical_fadd a b, naNCanonical_fadd a (fneg b), naNCanonical_fmul a b, naNCanonical_fdiv a b⟩⟩
  · simp only [isNaN_iff]
    rintro (ha | hb)
    · exact ⟨fadd_nan_left b ha, fsub_nan_left b ha, fmul_nan_left b ha, fdiv_nan_left b ha⟩
    · exact ⟨fadd_nan_right a hb, fsub_nan_right a hb, fmul_nan_right a hb, fdiv_nan_right a hb⟩
  · rw [fadd_inf_inf ha hb, if_neg (by simp)]
  · rw [fmul_inf_fin ha hb, if_pos rfl]
  · rw [fdiv_fin_zero ha hb, if_pos rfl]

/-! Division by a power of two (R81 (d), R70). -/

/-- 2^k as a binary64 value, for every k that has one. -/
theorem unpack_ofNatF_two_pow {k : Nat} (hk : k < 1024) : unpack (ofNatF (2 ^ k)) = .fin false (2 ^ k * oneMag) := by
  have hsig : 2 ^ k * oneMag = 2 ^ 52 * 2 ^ (1022 + k) := by
    rw [oneMag, ← pow_add, ← pow_add]
    congr 1
    omega
  have hround : ofNatF (2 ^ k) = withSign false ((1022 + k) * 2 ^ 52 + 2 ^ 52) := by
    have hexact := roundMag_of_significand (q := 2 ^ 52) (e := 1022 + k) false one_pos (by norm_num) (.inr le_rfl) (by omega)
    rwa [Nat.mul_one, ← hsig] at hexact
  rw [hround, unpack_withSign false (by omega), if_neg (by omega), hsig,
    show ((1022 + k) * 2 ^ 52 + 2 ^ 52) % 2 ^ 52 = 0 by omega, show ((1022 + k) * 2 ^ 52 + 2 ^ 52) / 2 ^ 52 - 1 = 1022 + k by omega,
    Nat.add_zero]

/-- Dividing by 2^k a normal value whose quotient is normal takes k from the exponent and nothing else. -/
theorem fdiv_two_pow {x : Word} {k : Nat} (hk : k < 1024) (hfin : expOf x ≠ 2047) (hx : k < expOf x) :
    fdiv x (ofNatF (2 ^ k)) = withSign x.msb ((expOf x - k) * 2 ^ 52 + fracOf x) := by
  have hunpack := unpack_normal (by omega) hfin
  have hden : 0 < 2 ^ k * oneMag := Nat.mul_pos (Nat.two_pow_pos k) oneMag_pos
  have hnum : (2 ^ 52 + fracOf x) * 2 ^ (expOf x - 1) * oneMag = (2 ^ 52 + fracOf x) * 2 ^ (expOf x - k - 1) * (2 ^ k * oneMag) := by
    have hexp : 2 ^ (expOf x - 1) = 2 ^ (expOf x - k - 1) * 2 ^ k := by
      rw [← pow_add]
      congr 1
      omega
    rw [hexp]
    ring
  have hfrac := fracOf_lt x
  have hlt := expOf_lt x
  have hbits : (expOf x - k - 1) * 2 ^ 52 + (2 ^ 52 + fracOf x) = (expOf x - k) * 2 ^ 52 + fracOf x := by omega
  rw [fdiv_eq_roundMag hunpack (unpack_ofNatF_two_pow hk) hden.ne', Bool.xor_false, hnum,
    roundMag_of_significand _ hden (by omega) (.inr (by omega)) (by omega), hbits]

theorem fdiv_two_pow_zero {k : Nat} (hk : k < 1024) (n : Bool) : fdiv (zeroWord n) (ofNatF (2 ^ k)) = zeroWord n := by
  have hden : 0 < 2 ^ k * oneMag := Nat.mul_pos (Nat.two_pow_pos k) oneMag_pos
  rw [fdiv_eq_roundMag (unpack_zeroWord n) (unpack_ofNatF_two_pow hk) hden.ne', Nat.zero_mul, roundMag_zero _ hden, Bool.xor_false]

/-- Settles O48: the quotient's word is written out, and its fields read off. -/
theorem divisionByPowerOfTwoIsExact : Obligations.DivisionByPowerOfTwoIsExact := by
  intro x k hk
  have hk' : k < 1024 := by omega
  refine ⟨fun hfin hx => ?_, ?_, fun h => fdiv_nan_left _ (isNaN_iff.1 h)⟩
  · have hfrac := fracOf_lt x
    have hlt := expOf_lt x
    have hbits : (expOf x - k) * 2 ^ 52 + fracOf x < 2 ^ 63 := by omega
    rw [fdiv_two_pow hk' hfin hx, expOf_withSign _ hbits, fracOf_withSign _ hbits, msb_withSign]
    exact ⟨by omega, by omega, rfl⟩
  · rintro (rfl | rfl)
    · exact fdiv_two_pow_zero hk' false
    · exact fdiv_two_pow_zero hk' true

end Sys2Proof.Machine

namespace Sys2Proof.Machine

open Sys2Proof

/-! Rounding is to nearest, ties to even (R66). -/

/-- How far m is from num / den, in units of 1 / den. -/
def roundErr (num den m : Nat) : Nat := ((m * den : ℤ) - num).natAbs

/-- Scaling m is scaling den. -/
theorem roundErr_mul (num den m c : Nat) : roundErr num den (m * c) = roundErr num (den * c) m := by
  unfold roundErr
  push_cast
  ring_nf

/-- Two integers are together at least a unit away from num / den. -/
theorem le_roundErr_add {k q : Nat} (num den : Nat) (hkq : k ≠ q) : den ≤ roundErr num den k + roundErr num den q := by
  have hone : 1 ≤ ((k : ℤ) - q).natAbs := by omega
  calc den ≤ ((k : ℤ) - q).natAbs * den := Nat.le_mul_of_pos_left den hone
    _ = (((k * den : ℤ) - num) - ((q * den : ℤ) - num)).natAbs := by
      rw [← Int.natAbs_natCast den, ← Int.natAbs_mul, Int.natAbs_natCast]
      congr 1
      ring
    _ ≤ roundErr num den k + roundErr num den q := Int.natAbs_sub_le _ _

/-- The rounded quotient is at most half a unit away, and even when it is just half a unit away. -/
theorem roundErr_roundDiv (num : Nat) {den : Nat} (hden : 0 < den) :
    2 * roundErr num den (roundDiv num den) ≤ den ∧
      (2 * roundErr num den (roundDiv num den) = den → roundDiv num den % 2 = 0) := by
  have hdiv : ((num / den : Nat) * den : ℤ) + (num % den : Nat) = num := by exact_mod_cast Nat.div_add_mod' num den
  have hmod := Nat.mod_lt num hden
  unfold roundDiv roundErr
  dsimp only
  split_ifs with h
  · push_cast at hdiv ⊢
    rw [add_one_mul]
    omega
  · omega

/-- No integer is nearer to num / den than the rounded quotient, and another as near leaves it even. -/
theorem roundDiv_nearest (num : Nat) {den : Nat} (hden : 0 < den) (k : Nat) :
    roundErr num den (roundDiv num den) ≤ roundErr num den k ∧
      (k ≠ roundDiv num den → roundErr num den (roundDiv num den) = roundErr num den k → roundDiv num den % 2 = 0) := by
  obtain ⟨hhalf, heven⟩ := roundErr_roundDiv num hden
  obtain rfl | hk := eq_or_ne k (roundDiv num den)
  · exact ⟨le_rfl, fun h => absurd rfl h⟩
  · have hunit := le_roundErr_add num den hk
    exact ⟨by omega, fun _ htie => heven (by omega)⟩

theorem div_le_roundDiv (num den : Nat) : num / den ≤ roundDiv num den := by
  unfold roundDiv
  dsimp only
  split <;> omega

theorem roundDiv_le (num den : Nat) : roundDiv num den ≤ num / den + 1 := by
  unfold roundDiv
  dsimp only
  split <;> omega

/-- Above an odd number the quotient is rounded up from half a unit on. -/
theorem lt_roundDiv_iff_of_odd {num den k : Nat} (hden : 0 < den) (hk : k % 2 = 1) :
    k < roundDiv num den ↔ (2 * k + 1) * den ≤ 2 * num := by
  obtain ⟨hhalf, heven⟩ := roundErr_roundDiv num hden
  unfold roundErr at hhalf heven
  rw [add_one_mul, Nat.mul_assoc]
  constructor
  · intro hlt
    have hle : (k + 1) * den ≤ roundDiv num den * den := Nat.mul_le_mul_right den hlt
    rw [add_one_mul] at hle
    zify at hle
    omega
  · intro hnum
    by_contra hle
    have hmul : roundDiv num den * den ≤ k * den := Nat.mul_le_mul_right den (Nat.not_lt.1 hle)
    zify at hmul hnum
    have hodd : roundDiv num den = k := Nat.eq_of_mul_eq_mul_right hden (by zify; omega)
    have := heven (by omega)
    omega

/-! The significand and the exponent of a rounded value (R66). -/

/-- The rounded significand of num / den, with its low bits dropped. -/
def roundSig (num den : Nat) : Nat := roundDiv num (den * 2 ^ dropBits num den)

/-- Bits are dropped only from a significand of 53 bits or more. -/
theorem two_pow_le_of_dropBits {num den : Nat} (h : dropBits num den ≠ 0) : 2 ^ (52 + dropBits num den) ≤ num / den := by
  unfold dropBits at h ⊢
  have hlog : 52 + (Nat.log2 (num / den) - 52) = Nat.log2 (num / den) := by omega
  rw [hlog]
  refine Nat.log2_self_le fun h0 => ?_
  simp [h0] at h

theorem div_lt_two_pow_dropBits (num den : Nat) : num / den < 2 ^ (53 + dropBits num den) :=
  lt_of_lt_of_le Nat.lt_log2_self (Nat.pow_le_pow_right Nat.two_pos (by unfold dropBits; omega))

theorem roundSig_le (num den : Nat) : roundSig num den ≤ 2 ^ 53 := by
  have hlt : num / (den * 2 ^ dropBits num den) < 2 ^ 53 := by
    rw [← Nat.div_div_eq_div_mul, Nat.div_lt_iff_lt_mul (Nat.two_pow_pos _), ← pow_add]
    exact div_lt_two_pow_dropBits num den
  exact (roundDiv_le _ _).trans hlt

theorem le_roundSig {num den : Nat} (h : dropBits num den ≠ 0) : 2 ^ 52 ≤ roundSig num den := by
  refine le_trans ?_ (div_le_roundDiv _ _)
  rw [← Nat.div_div_eq_div_mul, Nat.le_div_iff_mul_le (Nat.two_pow_pos _), ← pow_add]
  exact two_pow_le_of_dropBits h

theorem roundMag_of_lt (neg : Bool) {num den : Nat} (h : dropBits num den * 2 ^ 52 + roundSig num den < 2047 * 2 ^ 52) :
    roundMag neg num den = withSign neg (dropBits num den * 2 ^ 52 + roundSig num den) := if_pos h

theorem roundMag_of_ge (neg : Bool) {num den : Nat} (h : 2047 * 2 ^ 52 ≤ dropBits num den * 2 ^ 52 + roundSig num den) :
    roundMag neg num den = infWord neg := if_neg (Nat.not_lt.2 h)

/-- A significand with e dropped bits stands for the magnitude q * 2^e, also when it carries into the exponent. -/
theorem unpack_significand (neg : Bool) {q e : Nat} (hq : q ≤ 2 ^ 53) (he : e ≠ 0 → 2 ^ 52 ≤ q)
    (hbits : e * 2 ^ 52 + q < 2047 * 2 ^ 52) : unpack (withSign neg (e * 2 ^ 52 + q)) = .fin neg (q * 2 ^ e) := by
  rw [unpack_withSign neg hbits]
  congr 1
  obtain hsub | hnorm := Nat.lt_or_ge q (2 ^ 52)
  · obtain rfl : e = 0 := by
      by_contra h
      exact absurd (he h) (by omega)
    rw [Nat.zero_mul, Nat.zero_add, if_pos hsub, pow_zero, Nat.mul_one]
  · rw [if_neg (by omega)]
    obtain hlt | rfl := hq.lt_or_eq
    · rw [show 2 ^ 52 + (e * 2 ^ 52 + q) % 2 ^ 52 = q by omega, show (e * 2 ^ 52 + q) / 2 ^ 52 - 1 = e by omega]
    · rw [show (e * 2 ^ 52 + 2 ^ 53) % 2 ^ 52 = 0 by omega, show (e * 2 ^ 52 + 2 ^ 53) / 2 ^ 52 - 1 = 1 + e by omega, pow_add]
      ring

/-- A finite magnitude is a multiple of 2^e, or below the values with e dropped bits. -/
theorem dvd_or_lt_of_unpack {w : Word} {n : Bool} {m : Nat} (h : unpack w = .fin n m) (e : Nat) :
    2 ^ e ∣ m ∨ m < 2 ^ (52 + e) := by
  have hfrac := fracOf_lt w
  unfold unpack at h
  split_ifs at h with h1 h2 h3
  · obtain ⟨-, rfl⟩ := Num.fin.inj h
    exact .inr (hfrac.trans_le (Nat.pow_le_pow_right Nat.two_pos (by omega)))
  · obtain ⟨-, rfl⟩ := Num.fin.inj h
    obtain he | he := le_or_gt e (expOf w - 1)
    · exact .inl (Dvd.dvd.mul_left (pow_dvd_pow 2 he) _)
    · right
      calc (2 ^ 52 + fracOf w) * 2 ^ (expOf w - 1) < 2 ^ 53 * 2 ^ (expOf w - 1) := by gcongr; omega
        _ = 2 ^ (53 + (expOf w - 1)) := (pow_add ..).symm
        _ ≤ 2 ^ (52 + e) := Nat.pow_le_pow_right Nat.two_pos (by omega)

/-- A magnitude below the values with e dropped bits is further from num / den than the least of them. -/
theorem roundErr_lt_of_lt {num den m : Nat} (hden : 0 < den) (h : dropBits num den ≠ 0) (hm : m < 2 ^ (52 + dropBits num den)) :
    roundErr num den (2 ^ (52 + dropBits num den)) < roundErr num den m := by
  have hnum : 2 ^ (52 + dropBits num den) * den ≤ num := (Nat.le_div_iff_mul_le hden).1 (two_pow_le_of_dropBits h)
  have hlt : m * den < 2 ^ (52 + dropBits num den) * den := Nat.mul_lt_mul_of_pos_right hm hden
  unfold roundErr
  generalize 2 ^ (52 + dropBits num den) = p at hnum hlt
  zify at hnum hlt
  omega

/-- No finite magnitude is nearer to num / den than the rounded one, and another as near leaves the significand even. -/
theorem roundSig_nearest {num den : Nat} (hden : 0 < den) {w : Word} {n : Bool} {m : Nat} (h : unpack w = .fin n m) :
    roundErr num den (roundSig num den * 2 ^ dropBits num den) ≤ roundErr num den m ∧
      (m ≠ roundSig num den * 2 ^ dropBits num den →
        roundErr num den (roundSig num den * 2 ^ dropBits num den) = roundErr num den m → roundSig num den % 2 = 0) := by
  have hpos : 0 < den * 2 ^ dropBits num den := by positivity
  have hnear := roundDiv_nearest num hpos
  rw [roundErr_mul]
  by_cases hdvd : 2 ^ dropBits num den ∣ m
  · obtain ⟨k, rfl⟩ := hdvd
    rw [Nat.mul_comm _ k, roundErr_mul]
    obtain ⟨hle, heven⟩ := hnear k
    exact ⟨hle, fun hne => heven fun hk => hne (by rw [hk]; rfl)⟩
  · have he : dropBits num den ≠ 0 := fun he => hdvd (by simp [he])
    have hfar := roundErr_lt_of_lt hden he ((dvd_or_lt_of_unpack h _).resolve_left hdvd)
    rw [pow_add, roundErr_mul] at hfar
    have hlt := (hnear (2 ^ 52)).1.trans_lt hfar
    exact ⟨hlt.le, fun _ htie => absurd htie hlt.ne⟩

/-- The rounded value has t + 3 as its exponent, or more, exactly from half a unit above the largest number of exponent t + 2 on. -/
theorem le_roundBits_iff {num den : Nat} (hden : 0 < den) (t : Nat) :
    (t + 3) * 2 ^ 52 ≤ dropBits num den * 2 ^ 52 + roundSig num den ↔ (2 ^ 54 - 1) * 2 ^ t * den ≤ num := by
  have hcarry (he : dropBits num den = t + 1) : 2 ^ 53 - 1 < roundSig num den ↔ (2 ^ 54 - 1) * 2 ^ t * den ≤ num := by
    have htwice : (2 * (2 ^ 53 - 1) + 1) * (den * 2 ^ (t + 1)) = 2 * ((2 ^ 54 - 1) * 2 ^ t * den) := by
      rw [pow_succ 2 t]
      ring
    rw [roundSig, he, lt_roundDiv_iff_of_odd (by positivity) (by norm_num), htwice]
    exact Nat.mul_le_mul_left_iff Nat.two_pos
  rw [← Nat.le_div_iff_mul_le hden] at hcarry ⊢
  constructor
  · intro hbits
    have hsig := roundSig_le num den
    obtain he | he : dropBits num den = t + 1 ∨ t + 2 ≤ dropBits num den := by omega
    · exact (hcarry he).1 (by omega)
    · calc (2 ^ 54 - 1) * 2 ^ t ≤ 2 ^ 54 * 2 ^ t := Nat.mul_le_mul_right _ (by norm_num)
        _ = 2 ^ (54 + t) := (pow_add ..).symm
        _ ≤ 2 ^ (52 + dropBits num den) := Nat.pow_le_pow_right Nat.two_pos (by omega)
        _ ≤ num / den := two_pow_le_of_dropBits (by omega)
  · intro hnum
    have hpow : 2 ^ (53 + t) < 2 ^ (53 + dropBits num den) :=
      calc 2 ^ (53 + t) = 2 ^ 53 * 2 ^ t := pow_add ..
        _ ≤ (2 ^ 54 - 1) * 2 ^ t := Nat.mul_le_mul_right _ (by norm_num)
        _ ≤ num / den := hnum
        _ < 2 ^ (53 + dropBits num den) := div_lt_two_pow_dropBits num den
    have he : t < dropBits num den := by
      have := (Nat.pow_lt_pow_iff_right (by norm_num)).1 hpow
      omega
    obtain he | he : dropBits num den = t + 1 ∨ t + 2 ≤ dropBits num den := by omega
    · have := (hcarry he).2 hnum
      omega
    · have := le_roundSig (num := num) (den := den) (by omega)
      omega

/-- A finite rounded value, as its significand and its exponent. -/
theorem unpack_roundMag_of_lt (neg : Bool) {num den : Nat} (h : dropBits num den * 2 ^ 52 + roundSig num den < 2047 * 2 ^ 52) :
    unpack (roundMag neg num den) = .fin neg (roundSig num den * 2 ^ dropBits num den) := by
  rw [roundMag_of_lt neg h, unpack_significand neg (roundSig_le num den) le_roundSig h]

theorem unpack_roundMag_eq_inf_iff (neg : Bool) {num den : Nat} (hden : 0 < den) :
    unpack (roundMag neg num den) = .inf neg ↔ (2 ^ 54 - 1) * 2 ^ 2044 * den ≤ num := by
  rw [← le_roundBits_iff hden 2044]
  obtain h | h := Nat.lt_or_ge (dropBits num den * 2 ^ 52 + roundSig num den) (2047 * 2 ^ 52)
  · rw [unpack_roundMag_of_lt neg h]
    simpa using h
  · rw [roundMag_of_ge neg h]
    simpa using h

theorem fracOf_roundMag_of_lt (neg : Bool) {num den : Nat} (h : dropBits num den * 2 ^ 52 + roundSig num den < 2047 * 2 ^ 52) :
    fracOf (roundMag neg num den) % 2 = roundSig num den % 2 := by
  rw [roundMag_of_lt neg h, fracOf_withSign neg (by omega)]
  omega

/-- A finite rounded value is nearest to num / den among all finite magnitudes; of two equally near its fraction is even. -/
theorem roundMag_nearest {neg : Bool} {num den m : Nat} (hden : 0 < den) (hm : unpack (roundMag neg num den) = .fin neg m)
    {w : Word} {n : Bool} {m' : Nat} (hw : unpack w = .fin n m') :
    roundErr num den m ≤ roundErr num den m' ∧
      (m' ≠ m → roundErr num den m = roundErr num den m' → fracOf (roundMag neg num den) % 2 = 0) := by
  obtain h | h := Nat.lt_or_ge (dropBits num den * 2 ^ 52 + roundSig num den) (2047 * 2 ^ 52)
  · rw [fracOf_roundMag_of_lt neg h]
    rw [unpack_roundMag_of_lt neg h] at hm
    obtain ⟨-, rfl⟩ := Num.fin.inj hm
    exact roundSig_nearest hden hw
  · simp [roundMag_of_ge neg h] at hm

/-! Sums of finite operands (R66, R67). -/

/-- A sum of finite operands that is not 0 is rounded; one that is 0 is a signed zero (R66). -/
theorem fadd_of_sum_ne_zero {a b : Word} {n₁ n₂ : Bool} {m₁ m₂ : Nat} (ha : unpack a = .fin n₁ m₁) (hb : unpack b = .fin n₂ m₂)
    (hz : signedMag n₁ m₁ + signedMag n₂ m₂ ≠ 0) :
    fadd a b = roundMag (decide (signedMag n₁ m₁ + signedMag n₂ m₂ < 0)) (signedMag n₁ m₁ + signedMag n₂ m₂).natAbs 1 := by
  rw [fadd_fin ha hb]
  exact if_neg hz

theorem fadd_of_sum_eq_zero {a b : Word} {n₁ n₂ : Bool} {m₁ m₂ : Nat} (ha : unpack a = .fin n₁ m₁) (hb : unpack b = .fin n₂ m₂)
    (hz : signedMag n₁ m₁ + signedMag n₂ m₂ = 0) : fadd a b = zeroWord (n₁ && n₂) := by
  rw [fadd_fin ha hb]
  exact if_pos hz

/-- Settles O50: the one rounding by its significand, and the operations by their equations. -/
theorem roundingIsNearestEven : Obligations.RoundingIsNearestEven := by
  refine ⟨fun neg num den hden => ⟨unpack_roundMag neg num den, fun m hm w m' hw => roundMag_nearest hden hm hw,
    unpack_roundMag_eq_inf_iff neg hden⟩, fun a b n n' m m' ha hb => ?_, fun _ _ => rfl, fun a b n n' ha => ?_⟩
  · simp only [← zeroWord_eq_signedZero, ← infWord_eq_signedInf]
    refine ⟨fadd_of_sum_eq_zero ha hb, fadd_of_sum_ne_zero ha hb, fun h => ?_, fun _ _ => fmul_eq_roundMag ha hb, ?_,
      fun _ h => fdiv_eq_roundMag ha hb h, ?_⟩
    · rw [fmul_fin ha hb, if_pos (by simpa using h)]
    · rintro rfl h
      rw [fdiv_eq_roundMag ha hb h, Nat.zero_mul, roundMag_zero _ (Nat.pos_of_ne_zero h)]
    · rintro h rfl
      rw [fdiv_fin_zero ha hb, if_neg h]
  · simp only [← zeroWord_eq_signedZero, ← infWord_eq_signedInf]
    refine ⟨fun hb => ?_, fun hb => fmul_inf_inf ha hb, fun m' hb =>
      ⟨fadd_inf_fin ha hb, ?_, fun h => ⟨?_, ?_⟩, fdiv_inf_fin ha hb, fdiv_fin_inf hb ha⟩⟩
    · rw [fadd_inf_inf ha hb, if_pos rfl]
    · rw [fadd_comm, fadd_inf_fin ha hb]
    · rw [fmul_inf_fin ha hb, if_neg h]
    · rw [fmul_comm, fmul_inf_fin ha hb, if_neg h, Bool.xor_comm]

end Sys2Proof.Machine

/-! The family 41_fft.md: the transform (R82-R91) and the commands of the FFT unit (R93-R97). -/

namespace Sys2Proof.Machine

open Sys2Proof

/-! What a command's run leaves of DMEM (R98, R139). -/

/-- A byte of no entry the run may write is as it was. -/
theorem DmemRun.read_other {P : Nat → Prop} {s t : State} (h : DmemRun P s t) {a : Nat} (ha : ∀ e, P e → ¬ inEntry e a) :
    Memory.read t.dmem a = Memory.read s.dmem a := by
  induction h with
  | refl => rfl
  | dread e _ ih => rw [State.dread_dmem, ih]
  | dwrite z he _ ih =>
    have := ha _ he
    rw [State.read_dwrite_other _ _ (by omega), ih]

/-- A word of an entry the run may not write is as it was. -/
theorem DmemRun.readWord_other {P : Nat → Prop} {s t : State} (h : DmemRun P s t) {e : Nat} (he : ¬ P e) (im : Bool) :
    Memory.readWord t.dmem (dmemAddr e im) = Memory.readWord s.dmem (dmemAddr e im) := by
  induction h with
  | refl => rfl
  | dread e' _ ih => rw [State.dread_dmem, ih]
  | dwrite z he' _ ih => rw [State.readWord_dwrite_other _ _ _ (by rintro rfl; exact he he'), ih]

/-- A store to an aligned word leaves the bytes of a lost one, be it the same (R153). -/
theorem State.read_writeDmem_of_lost {s : State} {a b c : Nat} (v : Word) (ha : a % 8 = 0) (hb : b % 8 = 0) (hl : b ∈ s.lost)
    (hc : b ≤ c ∧ c < b + 8) : Memory.read (s.writeDmem a v).dmem c = Memory.read s.dmem c := by
  obtain rfl | hab := eq_or_ne a b
  · rw [State.writeDmem_of_lost v hl]
  · exact State.read_writeDmem_other s v (by omega)

theorem State.read_dwrite_of_lost {s : State} (e : Nat) (z : Cplx) {b c : Nat} (hb : b % 8 = 0) (hl : b ∈ s.lost)
    (hc : b ≤ c ∧ c < b + 8) : Memory.read (s.dwrite e z).dmem c = Memory.read s.dmem c :=
  (State.read_writeDmem_of_lost (s := s.writeDmem (dmemAddr e false) z.re) z.im (dmemAddr_mod e true) hb hl hc).trans
    (State.read_writeDmem_of_lost z.re (dmemAddr_mod e false) hb hl hc)

/-- No byte of a lost word changes in a run (R153). -/
theorem DmemRun.read_of_lost {P : Nat → Prop} {s t : State} (h : DmemRun P s t) {e c : Nat} {im : Bool} (hl : dmemAddr e im ∈ s.lost)
    (hc : dmemAddr e im ≤ c ∧ c < dmemAddr e im + 8) : Memory.read t.dmem c = Memory.read s.dmem c := by
  induction h with
  | refl => rfl
  | dread e' _ ih => rw [State.dread_dmem, ih]
  | dwrite z _ hr ih => rw [State.read_dwrite_of_lost _ z (dmemAddr_mod e im) (hr.onlyDmem.lost ▸ hl) hc, ih]

/-- Settles O16: a command that errs leaves DMEM, and one that completes is a run of DRead and DWrite of the entries it touches. -/
theorem dmemFrame : Obligations.DmemFrame := by
  intro i s t h
  obtain ⟨c, -, rfl⟩ | ⟨hc, rfl⟩ := exec_cases h
  · simp
  · obtain ⟨u, hr, hu⟩ := effectOf_dmemRun hc
    rw [State.complete_dmem, hu]
    exact ⟨fun a ha => hr.read_other ha, fun e im a hl h1 h2 => hr.read_of_lost hl ⟨h1, h2⟩⟩

/-! Completion of the unit's commands. -/

theorem exec_of_check_none {i : Instr} {s : State} (h : checkOf s.params s.ntaps.toNat i = none) :
    exec i s = .next (effectOf i s).complete := by rw [exec_eq, h, runCommand_none]

/-- What completing changes besides, when the effect changed DMEM and the draws only. -/
theorem OnlyDmem.complete_eq {s t : State} (h : OnlyDmem s t) :
    t.complete = { s with dmem := t.complete.dmem, draws := t.complete.draws, done := true, busy := false } := by
  unfold OnlyDmem at h
  rw [h]
  rfl

theorem regionCheck_two_pow {p : Params} {base l : Nat} (hl : l ≤ p.log2Nmax) (hb : base + 2 ^ l ≤ p.dmemEntries) :
    regionCheck p base (2 ^ l) = none :=
  regionCheck_eq_none.2 ⟨⟨⟨l, rfl⟩, Nat.pow_le_pow_right Nat.two_pos hl⟩, hb⟩

theorem stageCheck_two_pow {p : Params} {base l st : Nat} (hl : l ≤ p.log2Nmax) (hb : base + 2 ^ l ≤ p.dmemEntries) (h1 : 1 ≤ st)
    (hst : st ≤ l) : stageCheck p base (2 ^ l) st = none :=
  stageCheck_eq_none.2 ⟨⟨⟨l, rfl⟩, Nat.pow_le_pow_right Nat.two_pos hl⟩, ⟨h1, by rwa [Nat.log2_two_pow]⟩, hb⟩

theorem exec_fft {s : State} (inv : Bool) {base l : Nat} (hl : l ≤ s.params.log2Nmax) (hb : base + 2 ^ l ≤ s.params.dmemEntries) :
    exec (.fft inv base (2 ^ l)) s = .next (s.fft inv base (2 ^ l)).complete := exec_of_check_none (regionCheck_two_pow hl hb)

theorem exec_bitrev {s : State} {base l : Nat} (hl : l ≤ s.params.log2Nmax) (hb : base + 2 ^ l ≤ s.params.dmemEntries) :
    exec (.bitrev base (2 ^ l)) s = .next (s.permute base (2 ^ l)).complete := exec_of_check_none (regionCheck_two_pow hl hb)

theorem exec_stage {s : State} (inv : Bool) {base l st : Nat} (hl : l ≤ s.params.log2Nmax) (hb : base + 2 ^ l ≤ s.params.dmemEntries)
    (h1 : 1 ≤ st) (hst : st ≤ l) : exec (.stage inv base (2 ^ l) st) s = .next (s.stage inv base (2 ^ l) st).complete :=
  exec_of_check_none (stageCheck_two_pow hl hb h1 hst)

theorem exec_scale {s : State} {base l : Nat} (hl : l ≤ s.params.log2Nmax) (hb : base + 2 ^ l ≤ s.params.dmemEntries) :
    exec (.scale base (2 ^ l)) s = .next (s.scale base (2 ^ l)).complete := exec_of_check_none (regionCheck_two_pow hl hb)

theorem Stored.complete {s t : State} {e : Nat} {z : Cplx} (h : Stored s t e z) : Stored s t.complete e z := h

/-! FFT (R93). -/

@[simp] theorem State.writeEntries_draws (s : State) (ws : List (Nat × Cplx)) : (s.writeEntries ws).draws = s.draws := by
  induction ws generalizing s with
  | nil => rfl
  | cons w ws ih => exact (ih (s.dwrite w.1 w.2)).trans (s.dwrite_draws w.1 w.2)

/-- A store after a read of the region is a store in the state before it. -/
theorem Stored.of_readRegion {s t : State} {base n e : Nat} {z : Cplx} (h : Stored (s.readRegion base n).2 t e z) : Stored s t e z :=
  h.congr (s.readRegion_dmem base n).symm (OnlyDmem.readRegion s base n).lost.symm rfl

theorem State.stored_fft (s : State) (inv : Bool) {base l i : Nat} (hi : i < 2 ^ l) :
    ∃ z, (fftRef s.params inv (s.readRegion base (2 ^ l)).1)[i]? = some z ∧ Stored s (s.fft inv base (2 ^ l)) (base + i) z := by
  have hlen := fftRef_length s.params inv (s.readRegion base (2 ^ l)).1 (s.readRegion_length base (2 ^ l))
  have hz := List.getElem?_eq_getElem (l := fftRef s.params inv (s.readRegion base (2 ^ l)).1) (hlen ▸ hi)
  exact ⟨_, hz, (State.stored_writeRegion hz).of_readRegion⟩

/-- Settles O19: the write of the region leaves each value of FFT_ref in its entry, and draws nothing. -/
theorem fftWritesTheTransform : Obligations.FftWritesTheTransform := by
  intro s inv base l hl hb
  exact ⟨_, exec_fft inv hl hb, (OnlyDmem.fft s inv base _).complete_eq, State.writeEntries_draws _ _, fun _ hi => s.stored_fft inv hi⟩

/-! Bit reversal (R85, R86, R94). -/

/-- Bit by bit: the low bit goes to the top, the others are reversed below it. -/
theorem testBit_bitrev {l b : Nat} (i : Nat) (hb : b < l) : (bitrev l i).testBit (l - 1 - b) = i.testBit b := by
  induction l generalizing i b with
  | zero => omega
  | succ l ih =>
    rw [bitrev, Nat.mul_comm, Nat.testBit_two_pow_mul_add _ (bitrev_lt l _)]
    cases b with
    | zero =>
      rw [if_neg (by omega), show l + 1 - 1 - 0 - l = 0 by omega, Nat.testBit_zero, Nat.testBit_zero, Nat.mod_mod]
    | succ b =>
      rw [if_pos (by omega), show l + 1 - 1 - (b + 1) = l - 1 - b by omega, ih _ (by omega), Nat.testBit_succ]

theorem bitrev_bitrev {l i : Nat} (hi : i < 2 ^ l) : bitrev l (bitrev l i) = i := by
  apply Nat.eq_of_testBit_eq
  intro b
  obtain hb | hb := Nat.lt_or_ge b l
  · have houter := testBit_bitrev (bitrev l i) (show l - 1 - b < l by omega)
    rw [show l - 1 - (l - 1 - b) = b by omega, testBit_bitrev i hb] at houter
    exact houter
  · have hpow : 2 ^ l ≤ 2 ^ b := Nat.pow_le_pow_right Nat.two_pos hb
    rw [Nat.testBit_lt_two_pow ((bitrev_lt l _).trans_le hpow), Nat.testBit_lt_two_pow (hi.trans_le hpow)]

/-- Settles O22, by the bits of the result: each is a bit of i, and twice reversed each is back in its place. -/
theorem bitReversalIndex : Obligations.BitReversalIndex := fun l i hi =>
  ⟨bitrev_lt l i, fun _ hb => testBit_bitrev i hb, bitrev_bitrev hi⟩

theorem bitrev_injOn {l i j : Nat} (hi : i < 2 ^ l) (hj : j < 2 ^ l) (h : bitrev l i = bitrev l j) : i = j := by
  rw [← bitrev_bitrev hi, h, bitrev_bitrev hj]

theorem State.stored_permute (s : State) {base l i : Nat} (hi : i < 2 ^ l) :
    ∃ z, (s.readRegion base (2 ^ l)).1[i]? = some z ∧ Stored s (s.permute base (2 ^ l)) (base + bitrev l i) z := by
  have hlen := s.readRegion_length base (2 ^ l)
  have hz := List.getElem?_eq_getElem (l := (s.readRegion base (2 ^ l)).1) (hlen.symm ▸ hi)
  refine ⟨_, hz, Stored.of_readRegion (base := base) (n := 2 ^ l) ?_⟩
  unfold State.permute
  rw [Nat.log2_two_pow]
  refine State.stored_writeEntries (w := (base + bitrev l i, _)) ?_ (List.mem_mapIdx.2 ⟨i, hlen.symm ▸ hi, rfl⟩)
  rw [List.nodup_iff_injective_getElem]
  rintro ⟨a, ha⟩ ⟨b, hb⟩ hab
  simp only [List.length_map, List.length_mapIdx, hlen, List.getElem_map, List.getElem_mapIdx] at ha hb hab
  exact Fin.ext (bitrev_injOn ha hb (Nat.add_left_cancel hab))

/-- Settles O23: bitrev_L is injective, so each entry of the region is written once. -/
theorem bitrevPermutes : Obligations.BitrevPermutes := by
  intro s base l hl hb
  exact ⟨_, exec_bitrev hl hb, (OnlyDmem.permute s base _).complete_eq, fun _ hi => s.stored_permute hi⟩

/-! One butterfly in DMEM (R87, R97). -/

/-- Both results of a butterfly on two entries, whatever they read as. -/
theorem State.stored_bflyAt (s : State) (inv : Bool) {e o : Nat} (t : Nat) (h : e ≠ o) :
    let x := s.dread e
    let y := x.2.dread o
    let r := butterfly x.1 y.1 (twiddle s.params t inv)
    Stored s (s.bflyAt inv e o t) e r.1 ∧ Stored s (s.bflyAt inv e o t) o r.2 := by
  intro x y r
  have hdmem : y.2.dmem = s.dmem := by rw [State.dread_dmem, State.dread_dmem]
  have hlost : y.2.lost = s.lost := ((OnlyDmem.dread s e).trans (OnlyDmem.dread x.2 o)).lost
  constructor <;> intro im
  · have hfirst := State.stored_dwrite y.2 e r.1 im
    rw [hdmem, hlost] at hfirst
    exact (State.readWord_dwrite_other _ r.2 im h).trans hfirst
  · have hsecond := State.stored_dwrite (y.2.dwrite e r.1) o r.2 im
    rw [State.dwrite_lost, State.readWord_dwrite_other _ r.1 im h.symm, hdmem, hlost] at hsecond
    exact hsecond

theorem State.bflyAt_draws (s : State) (inv : Bool) (e o t : Nat) : (s.bflyAt inv e o t).draws = ((s.dread e).2.dread o).2.draws := by
  simp only [State.bflyAt, State.dwrite_draws]

/-- Settles O26: the butterfly written out is `butterfly`, and p and q differ, so the second store leaves the first. -/
theorem bflyComputesOneButterfly : Obligations.BflyComputesOneButterfly := by
  intro s inv p q t hp hq hpq ht x y w u
  have hcheck : checkOf s.params s.ntaps.toNat (.bfly inv p q t) = none := bflyCheck_eq_none.2 ⟨⟨ht, hpq⟩, hp, hq⟩
  have honly := (OnlyDmem.bflyAt s inv p q t).complete_eq
  rw [State.complete_draws, State.bflyAt_draws] at honly
  obtain ⟨hfirst, hsecond⟩ := s.stored_bflyAt inv t hpq
  exact ⟨(s.bflyAt inv p q t).complete, exec_of_check_none hcheck, honly, hfirst.complete, hsecond.complete⟩

end Sys2Proof.Machine

namespace Sys2Proof.Machine

open Sys2Proof

/-! Loops whose turns write different entries (R88, R96). -/

theorem DmemRun.mono {P Q : Nat → Prop} (hPQ : ∀ e, P e → Q e) {s t : State} (h : DmemRun P s t) : DmemRun Q s t := by
  induction h with
  | refl => exact .refl s
  | dread e _ ih => exact ih.dread e
  | dwrite z he _ ih => exact ih.dwrite z (hPQ _ he)

/-- The words of the entries of `P` are the same in both states. -/
def SameWords (P : Nat → Prop) (s t : State) : Prop :=
  ∀ e, P e → ∀ im, Memory.readWord t.dmem (dmemAddr e im) = Memory.readWord s.dmem (dmemAddr e im)

theorem DmemRun.sameWords {P Q : Nat → Prop} {s t : State} (h : DmemRun P s t) (hPQ : ∀ e, Q e → ¬ P e) : SameWords Q s t :=
  fun e he im => h.readWord_other (hPQ e he) im

theorem SameWords.trans {P : Nat → Prop} {s t u : State} (h : SameWords P s t) (h' : SameWords P t u) : SameWords P s u :=
  fun e he im => (h' e he im).trans (h e he im)

theorem SameWords.entry? {P : Nat → Prop} {s t : State} (h : SameWords P s t) {e : Nat} (he : P e) : t.entry? e = s.entry? e := by
  unfold State.entry?
  rw [h e he, h e he]

theorem Stored.of_sameWords {P : Nat → Prop} {s s' t t' : State} {e : Nat} {z : Cplx} (h : Stored s' t' e z) (hl : s'.lost = s.lost)
    (hs : SameWords P s s') (ht : SameWords P t' t) (he : P e) : Stored s t e z := by
  intro im
  rw [ht e he, h im, hl, hs e he]

/-- When no two turns write the same entry, what turn `a` leaves in its entries is what it leaves run from a state in which they are as
at the start. -/
theorem DmemRun.foldl_turn {α : Type} {P : α → Nat → Prop} {f : State → α → State} (hf : ∀ s a, DmemRun (P a) s (f s a))
    {l : List α} (hd : l.Pairwise fun a b => ∀ e, P a e → ¬ P b e) {a : α} (ha : a ∈ l) (s : State) :
    ∃ s', OnlyDmem s s' ∧ SameWords (P a) s s' ∧ SameWords (P a) (f s' a) (l.foldl f s) := by
  induction l generalizing s with
  | nil => cases ha
  | cons b l ih =>
    obtain ⟨hb, hl⟩ := List.pairwise_cons.1 hd
    obtain rfl | ha := List.mem_cons.1 ha
    · refine ⟨s, OnlyDmem.refl s, fun _ _ _ => rfl, ?_⟩
      have hrest : DmemRun (fun e => ∃ c ∈ l, P c e) (f s a) (l.foldl f (f s a)) :=
        .foldl (fun t c hc => (hf t c).mono fun e he => ⟨c, hc, he⟩) _
      exact hrest.sameWords fun e he ⟨c, hc, hce⟩ => hb c hc e he hce
    · obtain ⟨s', honly, hs, ht⟩ := ih hl ha (f s b)
      exact ⟨s', (hf s b).onlyDmem.trans honly, ((hf s b).sameWords fun e he hbe => hb a ha e hbe he).trans hs, ht⟩

/-! STAGE (R88, R95). -/

theorem two_pow_div_two {st : Nat} (h : 1 ≤ st) : 2 ^ st / 2 = 2 ^ (st - 1) := by
  obtain ⟨n, rfl⟩ := Nat.exists_eq_add_of_le' h
  rw [pow_succ, Nat.mul_div_cancel _ Nat.two_pos, Nat.add_sub_cancel]

theorem two_pow_eq_add {st : Nat} (h : 1 ≤ st) : 2 ^ st = 2 ^ (st - 1) + 2 ^ (st - 1) := by
  obtain ⟨n, rfl⟩ := Nat.exists_eq_add_of_le' h
  rw [Nat.add_sub_cancel, pow_succ, Nat.mul_two]

/-- No two butterflies of a stage share an entry. -/
theorem stageBflys_disjoint (p : Params) (base n : Nat) {st : Nat} (h : 1 ≤ st) :
    (stageBflys p base n st).Pairwise fun a b => ∀ e, e = a.1 ∨ e = a.2.1 → ¬ (e = b.1 ∨ e = b.2.1) := by
  have hpow := two_pow_eq_add h
  rw [stageBflys, List.pairwise_flatMap]
  simp only [List.pairwise_map, List.mem_map, List.mem_range, two_pow_div_two h]
  constructor
  · intro b _
    refine List.pairwise_lt_range.imp_of_mem fun hk hk' hlt => ?_
    rw [List.mem_range] at hk hk'
    omega
  · refine List.pairwise_lt_range.imp fun {b b'} hlt => ?_
    rintro _ ⟨k, hk, rfl⟩ _ ⟨k', hk', rfl⟩
    have hmul : b * 2 ^ st + 2 ^ st ≤ b' * 2 ^ st := by
      rw [← Nat.succ_mul]
      exact Nat.mul_le_mul_right _ hlt
    dsimp only
    omega

theorem mem_stageBflys (p : Params) (base : Nat) {l st b k : Nat} (h1 : 1 ≤ st) (hst : st ≤ l) (hb : b < 2 ^ (l - st))
    (hk : k < 2 ^ (st - 1)) :
    (base + b * 2 ^ st + k, base + b * 2 ^ st + k + 2 ^ (st - 1), k * 2 ^ (p.log2Nmax - st)) ∈ stageBflys p base (2 ^ l) st := by
  simp only [stageBflys, List.mem_flatMap, List.mem_map, List.mem_range, two_pow_div_two h1, Nat.pow_div hst Nat.two_pos]
  exact ⟨b, hb, k, hk, rfl⟩

/-- A butterfly of a stage runs as from a state in which its entries are as before the stage. -/
theorem State.stage_turn (s : State) (inv : Bool) {base n st : Nat} (h1 : 1 ≤ st) {a : Nat × Nat × Nat}
    (ha : a ∈ stageBflys s.params base n st) :
    ∃ s', OnlyDmem s s' ∧ SameWords (fun e => e = a.1 ∨ e = a.2.1) s s' ∧
      SameWords (fun e => e = a.1 ∨ e = a.2.1) (s'.bflyAt inv a.1 a.2.1 a.2.2) (s.stage inv base n st) := by
  have hturn (t : State) (b : Nat × Nat × Nat) : DmemRun (fun e => e = b.1 ∨ e = b.2.1) t (t.bflyAt inv b.1 b.2.1 b.2.2) :=
    DmemRun.bflyAt t inv b.2.2 (.inl rfl) (.inr rfl)
  unfold State.stage
  exact DmemRun.foldl_turn hturn (stageBflys_disjoint s.params base n h1) ha s

/-- Each pair of specified entries of a stage gets its butterfly. -/
theorem State.stored_stage {s : State} (inv : Bool) {base n st e o t : Nat} {x y : Cplx} (h1 : 1 ≤ st)
    (ha : (e, o, t) ∈ stageBflys s.params base n st) (hne : e ≠ o) (hx : s.entry? e = some x) (hy : s.entry? o = some y) :
    Stored s (s.stage inv base n st) e (butterfly x y (twiddle s.params t inv)).1 ∧
      Stored s (s.stage inv base n st) o (butterfly x y (twiddle s.params t inv)).2 := by
  obtain ⟨s', honly, hs, ht⟩ := s.stage_turn inv h1 ha
  have hstored := s'.stored_bflyAt inv t hne
  have hx' : s'.dread e = (x, s') := State.dread_of_entry? ((hs.entry? (.inl rfl)).trans hx)
  have hy' : s'.dread o = (y, s') := State.dread_of_entry? ((hs.entry? (.inr rfl)).trans hy)
  simp only [hx', hy', honly.params] at hstored
  obtain ⟨hfirst, hsecond⟩ := hstored
  exact ⟨hfirst.of_sameWords honly.lost hs ht (.inl rfl), hsecond.of_sameWords honly.lost hs ht (.inr rfl)⟩

theorem State.stored_stage_block {s : State} (inv : Bool) {base l st b k : Nat} {x y : Cplx} (h1 : 1 ≤ st) (hst : st ≤ l)
    (hb : b < 2 ^ (l - st)) (hk : k < 2 ^ (st - 1)) (hx : s.entry? (base + b * 2 ^ st + k) = some x)
    (hy : s.entry? (base + b * 2 ^ st + k + 2 ^ (st - 1)) = some y) :
    Stored s (s.stage inv base (2 ^ l) st) (base + b * 2 ^ st + k)
        (butterfly x y (twiddle s.params (k * 2 ^ (s.params.log2Nmax - st)) inv)).1 ∧
      Stored s (s.stage inv base (2 ^ l) st) (base + b * 2 ^ st + k + 2 ^ (st - 1))
        (butterfly x y (twiddle s.params (k * 2 ^ (s.params.log2Nmax - st)) inv)).2 :=
  State.stored_stage inv h1 (mem_stageBflys s.params base h1 hst hb hk) (by have := Nat.two_pow_pos (st - 1); omega) hx hy

/-- Settles O24: no two butterflies of a stage share an entry, so each runs as from the state before the stage. -/
theorem stageAppliesButterflies : Obligations.StageAppliesButterflies := by
  intro s inv base l st hl hb h1 hst
  refine ⟨_, exec_stage inv hl hb h1 hst, (OnlyDmem.stage s inv base _ st).complete_eq, fun b k x y hb hk hx hy => ?_⟩
  exact State.stored_stage_block inv h1 hst hb hk hx hy

/-! SCALE (R96). -/

/-- Each specified entry of the region gets its quotient. -/
theorem State.stored_scale {s : State} {base n i : Nat} {x : Cplx} (hi : i < n) (hx : s.entry? (base + i) = some x) :
    Stored s (s.scale base n) (base + i) (cdivn x n) := by
  have hdisjoint : (List.range n).Pairwise fun a b => ∀ e, e = base + a → ¬ e = base + b :=
    List.pairwise_lt_range.imp fun h => by omega
  obtain ⟨s', honly, hs, ht⟩ := DmemRun.foldl_turn (P := fun a e => e = base + a) (f := fun t a => t.scaleAt n (base + a))
    (fun t a => ((DmemRun.refl t).dread _).dwrite _ rfl) hdisjoint (List.mem_range.2 hi) s
  have hstored := s'.stored_dwrite (base + i) (cdivn x n)
  have hscale : s'.scaleAt n (base + i) = s'.dwrite (base + i) (cdivn x n) := by
    simp only [State.scaleAt, State.dread_of_entry? ((hs.entry? rfl).trans hx)]
  rw [← hscale] at hstored
  exact hstored.of_sameWords honly.lost hs ht rfl

/-- A finite word is determined by its value. -/
theorem eq_of_unpack_fin {a b : Word} {n : Bool} {m : Nat} (ha : unpack a = .fin n m) (hb : unpack b = .fin n m) : a = b := by
  rw [← roundMag_exact one_pos ha, ← roundMag_exact one_pos hb]

/-- 2^k as a binary64 value has biased exponent 1023 + k and fraction 0 (R77). -/
theorem ofNatF_two_pow {k : Nat} (hk : k < 1024) : ofNatF (2 ^ k) = BitVec.ofNat 64 ((1023 + k) * 2 ^ 52) := by
  have hbits : (1023 + k) * 2 ^ 52 < 2 ^ 63 := by omega
  have hword : BitVec.ofNat 64 ((1023 + k) * 2 ^ 52) = withSign false ((1023 + k) * 2 ^ 52) := by
    apply BitVec.eq_of_toNat_eq
    rw [toNat_withSign false hbits, BitVec.toNat_ofNat, Nat.mod_eq_of_lt (by omega)]
    simp
  have hmag : 2 ^ k * oneMag = 2 ^ 52 * 2 ^ (1022 + k) := by
    rw [oneMag, ← pow_add, ← pow_add]
    congr 1
    omega
  refine eq_of_unpack_fin (unpack_ofNatF_two_pow hk) ?_
  rw [hword, unpack_withSign false (by omega), if_neg (by omega), hmag, show (1023 + k) * 2 ^ 52 % 2 ^ 52 = 0 by omega,
    show (1023 + k) * 2 ^ 52 / 2 ^ 52 - 1 = 1022 + k by omega, Nat.add_zero]

/-- Settles O25: each turn of the loop writes its own entry, and the divisor is the word of 2^l. -/
theorem scaleDividesEachEntry : Obligations.ScaleDividesEachEntry := by
  intro s base l hp hl hb n
  obtain ⟨⟨-, hmax⟩, -⟩ := hp
  have hn : ofNatF (2 ^ l) = n := ofNatF_two_pow (by omega)
  refine ⟨_, exec_scale hl hb, (OnlyDmem.scale s base _).complete_eq, fun i x hi hx => ?_⟩
  have hstored := State.stored_scale hi hx
  rw [cdivn, hn] at hstored
  exact hstored.complete

end Sys2Proof.Machine

namespace Sys2Proof.Machine

open Sys2Proof

/-! The series in fixed point against the real series. -/

/-- The alternating series of `taylor` over its first term: 1 - θ²/((k+1)(k+2)) + ..., n further terms, with no rounding. -/
noncomputable def taylorRatio (θ : ℝ) : ℕ → ℕ → ℝ
  | 0, _ => 1
  | n + 1, k => 1 - θ ^ 2 / ((k + 1) * (k + 2)) * taylorRatio θ n (k + 2)

theorem taylorRatio_mem {θ : ℝ} (h0 : 0 ≤ θ) (h1 : θ ≤ 1) (n k : ℕ) : 0 ≤ taylorRatio θ n k ∧ taylorRatio θ n k ≤ 1 := by
  induction n generalizing k with
  | zero => simp [taylorRatio]
  | succ n ih =>
    obtain ⟨hr0, hr1⟩ := ih (k + 2)
    have hq0 : 0 ≤ θ ^ 2 / (((k : ℝ) + 1) * (k + 2)) := by positivity
    have hq1 : θ ^ 2 / (((k : ℝ) + 1) * (k + 2)) ≤ 1 := by
      rw [div_le_one (by positivity)]
      have hk : (0 : ℝ) ≤ k := k.cast_nonneg
      nlinarith
    have hp0 := mul_nonneg hq0 hr0
    have hp1 := mul_le_one₀ hq1 hr0 hr1
    rw [taylorRatio]
    constructor <;> linarith

theorem taylor_le (t n k term : ℕ) : taylor t n k term ≤ term := by
  cases n with
  | zero => exact le_rfl
  | succ n => exact Nat.sub_le _ _

theorem fixOne_pos : 0 < fixOne := by decide

/-- The next term, rounded down, is less than a unit below the exact one, and no larger than this term. -/
theorem nextTerm_bounds {t : ℕ} (ht : t ≤ fixOne) (k term : ℕ) :
    term * t * t / (fixOne * fixOne * ((k + 1) * (k + 2))) ≤ term ∧
      |((term * t * t / (fixOne * fixOne * ((k + 1) * (k + 2))) : ℕ) : ℝ) -
        term * (((t : ℝ) / fixOne) ^ 2 / ((k + 1) * (k + 2)))| ≤ 1 := by
  have hpos := fixOne_pos
  generalize fixOne = F at ht hpos ⊢
  have hF : (0 : ℝ) < F := by exact_mod_cast hpos
  constructor
  · refine Nat.div_le_of_le_mul ?_
    calc term * t * t ≤ term * F * F := by gcongr
      _ = F * F * 1 * term := by ring
      _ ≤ F * F * ((k + 1) * (k + 2)) * term := by gcongr; exact Nat.mul_pos k.succ_pos (k + 1).succ_pos
  · have hreal : (term : ℝ) * (((t : ℝ) / F) ^ 2 / ((k + 1) * (k + 2))) =
        ((term * t * t : ℕ) : ℝ) / ((F * F * ((k + 1) * (k + 2)) : ℕ) : ℝ) := by
      push_cast
      field_simp
    rw [hreal, ← Nat.floor_div_eq_div (K := ℝ), abs_sub_comm, abs_le]
    have hx : (0 : ℝ) ≤ ((term * t * t : ℕ) : ℝ) / ((F * F * ((k + 1) * (k + 2)) : ℕ) : ℝ) := by positivity
    have hle := Nat.floor_le hx
    have hlt := Nat.lt_floor_add_one (((term * t * t : ℕ) : ℝ) / ((F * F * ((k + 1) * (k + 2)) : ℕ) : ℝ))
    constructor <;> linarith

/-- Each further term rounds once: n of them are at most n units off. -/
theorem abs_taylor_sub_le {t : ℕ} (ht : t ≤ fixOne) (n k term : ℕ) :
    |(taylor t n k term : ℝ) - term * taylorRatio (t / fixOne) n k| ≤ n := by
  induction n generalizing k term with
  | zero => simp [taylor, taylorRatio]
  | succ n ih =>
    obtain ⟨hle, hround⟩ := nextTerm_bounds ht k term
    have htail := ih (k + 2) (term * t * t / (fixOne * fixOne * ((k + 1) * (k + 2))))
    have htail_le := taylor_le t n (k + 2) (term * t * t / (fixOne * fixOne * ((k + 1) * (k + 2))))
    have hF : (0 : ℝ) < fixOne := by exact_mod_cast fixOne_pos
    have hθ : (t : ℝ) / fixOne ≤ 1 := by rw [div_le_one hF]; exact_mod_cast ht
    obtain ⟨hr0, hr1⟩ := taylorRatio_mem (by positivity) hθ n (k + 2)
    rw [taylor, taylorRatio, Nat.cast_sub (htail_le.trans hle)]
    generalize taylor t n (k + 2) (term * t * t / (fixOne * fixOne * ((k + 1) * (k + 2)))) = tail at *
    generalize term * t * t / (fixOne * fixOne * ((k + 1) * (k + 2))) = next at *
    generalize taylorRatio ((t : ℝ) / fixOne) n (k + 2) = r at *
    generalize ((t : ℝ) / fixOne) ^ 2 / ((k + 1) * (k + 2)) = q at *
    have hsplit : (term : ℝ) - tail - term * (1 - q * r) = -((tail - next * r) + (next - term * q) * r) := by ring
    have hstep : |((next : ℝ) - term * q) * r| ≤ 1 := by
      rw [abs_mul, abs_of_nonneg hr0]
      exact mul_le_one₀ hround hr0 hr1
    rw [hsplit, abs_neg]
    push_cast
    exact (abs_add_le _ _).trans (add_le_add htail hstep)

/-- With its first term, the ratio is a partial sum of the Taylor series of the cosine or the sine. -/
theorem taylorRatio_mul_eq_sum (θ : ℝ) (n k : ℕ) :
    taylorRatio θ n k * (θ ^ k / k.factorial) =
      ∑ m ∈ Finset.range (n + 1), (-1) ^ m * (θ ^ (k + 2 * m) / (k + 2 * m).factorial) := by
  induction n generalizing k with
  | zero => simp [taylorRatio]
  | succ n ih =>
    have hnext : θ ^ 2 / (((k : ℝ) + 1) * (k + 2)) * (θ ^ k / k.factorial) = θ ^ (k + 2) / (k + 2).factorial := by
      rw [Nat.factorial_succ, Nat.factorial_succ, pow_add]
      push_cast
      field_simp
      ring
    have hterm (m : ℕ) : (-1 : ℝ) ^ (m + 1) * (θ ^ (k + 2 * (m + 1)) / (k + 2 * (m + 1)).factorial) =
        -((-1) ^ m * (θ ^ (k + 2 + 2 * m) / (k + 2 + 2 * m).factorial)) := by
      rw [show k + 2 * (m + 1) = k + 2 + 2 * m by ring, pow_succ]
      ring
    rw [Finset.sum_range_succ', Finset.sum_congr rfl fun m _ => hterm m, Finset.sum_neg_distrib, ← ih (k + 2), ← hnext, taylorRatio]
    simp
    ring

/-- The exponential series of iθ, by its real and imaginary parts. -/
theorem sum_exp_mul_I (θ : ℝ) (n : ℕ) :
    ∑ m ∈ Finset.range (2 * n), ((θ : ℂ) * Complex.I) ^ m / m.factorial =
      ((∑ m ∈ Finset.range n, (-1) ^ m * (θ ^ (0 + 2 * m) / (0 + 2 * m).factorial) : ℝ) : ℂ) +
        ((∑ m ∈ Finset.range n, (-1) ^ m * (θ ^ (1 + 2 * m) / (1 + 2 * m).factorial) : ℝ) : ℂ) * Complex.I := by
  induction n with
  | zero => simp
  | succ n ih =>
    have heven : ((θ : ℂ) * Complex.I) ^ (2 * n) = (-1) ^ n * (θ : ℂ) ^ (2 * n) := by
      rw [mul_pow, pow_mul Complex.I, Complex.I_sq, mul_comm]
    rw [show 2 * (n + 1) = 2 * n + 1 + 1 by ring, Finset.sum_range_succ, Finset.sum_range_succ, ih, Finset.sum_range_succ,
      Finset.sum_range_succ, pow_succ, heven, Nat.zero_add, Nat.add_comm 1]
    push_cast
    ring

/-- Twenty-five terms of either series, up to an angle of 1. -/
theorem abs_taylorRatio_sub_le {θ : ℝ} (h0 : 0 ≤ θ) (h1 : θ ≤ 1) :
    |taylorRatio θ 24 0 - Real.cos θ| ≤ 1 / 2 ^ 100 ∧ |θ * taylorRatio θ 24 1 - Real.sin θ| ≤ 1 / 2 ^ 100 := by
  have hnorm : ‖(θ : ℂ) * Complex.I‖ = θ := by simp [abs_of_nonneg h0]
  have hbound := Complex.exp_bound (x := θ * Complex.I) (by rw [hnorm]; exact h1) (n := 2 * 25) (by norm_num)
  have hsmall : θ ^ (2 * 25) * (((2 * 25).succ : ℝ) * ((2 * 25).factorial * (2 * 25 : ℕ) : ℝ)⁻¹) ≤ 1 / 2 ^ 100 := by
    calc _ ≤ 1 * (((2 * 25).succ : ℝ) * ((2 * 25).factorial * (2 * 25 : ℕ) : ℝ)⁻¹) := by
          gcongr
          exact pow_le_one₀ h0 h1
      _ ≤ 1 / 2 ^ 100 := by norm_num [Nat.factorial]
  have hcos := taylorRatio_mul_eq_sum θ 24 0
  have hsin := taylorRatio_mul_eq_sum θ 24 1
  rw [sum_exp_mul_I, ← hcos, ← hsin, hnorm, Complex.exp_mul_I, ← Complex.ofReal_cos, ← Complex.ofReal_sin] at hbound
  constructor
  · have h := (Complex.abs_re_le_norm _).trans (hbound.trans hsmall)
    rw [abs_sub_comm]
    simpa [Complex.cos_ofReal_re] using h
  · have h := (Complex.abs_im_le_norm _).trans (hbound.trans hsmall)
    rw [abs_sub_comm, mul_comm]
    simpa [Complex.sin_ofReal_re] using h

/-! The fixed-point values against the exact ones. -/

/-- The fixed-point π against π, by the 20 digits of `Real.pi_gt_d20` and `Real.pi_lt_d20`. -/
theorem abs_fixPi_sub_le : |(fixPi : ℝ) / fixOne - Real.pi| ≤ 1 / 10 ^ 20 := by
  have hlo : (3.14159265358979323846 : ℝ) ≤ (fixPi : ℝ) / fixOne := by norm_num [fixPi, fixOne]
  have hhi : (fixPi : ℝ) / fixOne ≤ 3.14159265358979323847 := by norm_num [fixPi, fixOne]
  have hgt := Real.pi_gt_d20
  have hlt := Real.pi_lt_d20
  rw [abs_le]
  constructor <;> norm_num at * <;> linarith

theorem fixAngle_le {y : ℕ} (hy : y ≤ 256) : fixAngle y ≤ fixOne := by
  calc fixPi * y / 1024 ≤ fixPi * 256 / 1024 := by gcongr
    _ ≤ fixOne := by decide

/-- The angle π·y/1024. -/
noncomputable def angle (y : ℕ) : ℝ := Real.pi * y / 1024

theorem abs_fixAngle_sub_le {y : ℕ} (hy : y ≤ 256) : |(fixAngle y : ℝ) / fixOne - angle y| ≤ 1 / 2 ^ 68 := by
  have hfloor : |(fixAngle y : ℝ) - fixPi * y / 1024| ≤ 1 := by
    have hdiv : fixAngle y * 1024 + fixPi * y % 1024 = fixPi * y := Nat.div_add_mod' _ _
    have hmod : fixPi * y % 1024 < 1024 := Nat.mod_lt _ (by norm_num)
    have hdiv' : (fixAngle y : ℝ) * 1024 + (fixPi * y % 1024 : ℕ) = fixPi * y := by exact_mod_cast hdiv
    have hmod' : ((fixPi * y % 1024 : ℕ) : ℝ) < 1024 := by exact_mod_cast hmod
    have hmod0 : (0 : ℝ) ≤ (fixPi * y % 1024 : ℕ) := Nat.cast_nonneg _
    rw [abs_le]
    constructor <;> linarith
  have hF : (fixOne : ℝ) = 2 ^ 200 := by norm_num [fixOne]
  have hy' : (y : ℝ) / 1024 ≤ 1 / 4 := by
    have : (y : ℝ) ≤ 256 := by exact_mod_cast hy
    linarith
  have hsplit : (fixAngle y : ℝ) / fixOne - angle y =
      ((fixAngle y : ℝ) - fixPi * y / 1024) / fixOne + ((fixPi : ℝ) / fixOne - Real.pi) * (y / 1024) := by
    rw [angle]
    ring
  rw [hsplit]
  calc _ ≤ |((fixAngle y : ℝ) - fixPi * y / 1024) / fixOne| + |((fixPi : ℝ) / fixOne - Real.pi) * (y / 1024)| := abs_add_le _ _
    _ ≤ 1 / 2 ^ 200 + 1 / 10 ^ 20 * (1 / 4) := by
      rw [abs_div, abs_mul, hF, abs_of_nonneg (by positivity : (0 : ℝ) ≤ y / 1024), abs_of_pos (by positivity : (0 : ℝ) < 2 ^ 200)]
      gcongr
      rw [← hF]
      exact abs_fixPi_sub_le
    _ ≤ 1 / 2 ^ 68 := by norm_num

/-- Twenty-four roundings of a term, in the scale of the fixed point. -/
theorem abs_div_fixOne_sub_le {v term r : ℝ} (h : |v - term * r| ≤ (24 : ℕ)) : |v / fixOne - term / fixOne * r| ≤ 24 / 2 ^ 200 := by
  have hFpos : (0 : ℝ) < fixOne := by exact_mod_cast fixOne_pos
  have hF : (fixOne : ℝ) = 2 ^ 200 := by norm_num [fixOne]
  rw [div_mul_eq_mul_div, ← sub_div, abs_div, abs_of_pos hFpos, hF]
  gcongr
  exact_mod_cast h

/-- The errors of the roundings, the series and the angle together. -/
theorem abs_sub_le_of_errors {a b c d : ℝ} (hround : |a - b| ≤ 24 / 2 ^ 200) (hseries : |b - c| ≤ 1 / 2 ^ 100)
    (hangle : |c - d| ≤ 1 / 2 ^ 68) : |a - d| ≤ 1 / 2 ^ 67 := by
  have htotal : (24 : ℝ) / 2 ^ 200 + 1 / 2 ^ 100 + 1 / 2 ^ 68 ≤ 1 / 2 ^ 67 := by norm_num
  have h1 := abs_sub_le a b d
  have h2 := abs_sub_le b c d
  linarith

/-- The computed sine and cosine are within 2^-67 of the exact ones: all the error but a little is that of π. -/
theorem abs_fix_sub_le {y : ℕ} (hy : y ≤ 256) :
    |(fixCos y : ℝ) / fixOne - Real.cos (angle y)| ≤ 1 / 2 ^ 67 ∧
      |(fixSin y : ℝ) / fixOne - Real.sin (angle y)| ≤ 1 / 2 ^ 67 := by
  have hFpos : (0 : ℝ) < fixOne := by exact_mod_cast fixOne_pos
  have hle := fixAngle_le hy
  have hangle := abs_fixAngle_sub_le hy
  obtain ⟨hcos, hsin⟩ := abs_taylorRatio_sub_le (θ := fixAngle y / fixOne) (by positivity)
    (by rw [div_le_one hFpos]; exact_mod_cast hle)
  constructor
  · have hround := abs_div_fixOne_sub_le (abs_taylor_sub_le hle 24 0 fixOne)
    rw [div_self hFpos.ne', one_mul] at hround
    exact abs_sub_le_of_errors hround hcos ((Real.abs_cos_sub_cos_le _ _).trans hangle)
  · have hround := abs_div_fixOne_sub_le (abs_taylor_sub_le hle 24 1 (fixAngle y))
    exact abs_sub_le_of_errors hround hsin ((Real.abs_sin_sub_sin_le _ _).trans hangle)

/-! Rounding a value known to within 2^-67 (R82). -/

/-- The word is the finite one strictly nearest to x. -/
def NearestTo (w : Word) (x : ℝ) : Prop :=
  ∃ (neg : Bool) (m : Nat), unpack w = .fin neg m ∧
    ∀ (w' : Word) (neg' : Bool) (m' : Nat), unpack w' = .fin neg' m' → signedMag neg' m' ≠ signedMag neg m →
      |(signedMag neg m : ℝ) / 2 ^ 1074 - x| < |(signedMag neg' m' : ℝ) / 2 ^ 1074 - x|

/-- A word whose value is x. -/
theorem nearestTo_of_eq {w : Word} {neg : Bool} {m : Nat} {x : ℝ} (hw : unpack w = .fin neg m)
    (hx : (signedMag neg m : ℝ) / 2 ^ 1074 = x) :
    NearestTo w x := by
  refine ⟨neg, m, hw, fun w' neg' m' _ hne => ?_⟩
  have hD : (0 : ℝ) < 2 ^ 1074 := by positivity
  rw [hx, sub_self, abs_zero, abs_pos, ← hx, ← sub_div, ← Int.cast_sub]
  exact div_ne_zero (Int.cast_ne_zero.2 (sub_ne_zero.2 hne)) hD.ne'

theorem dvd_signedMag {d m : Nat} (neg : Bool) (h : d ∣ m) : (d : ℤ) ∣ signedMag neg m := by
  have := Int.natCast_dvd_natCast.2 h
  cases neg
  · exact this
  · exact this.neg_right

theorem abs_signedMag (neg : Bool) (m : Nat) : |signedMag neg m| = m := by cases neg <;> simp [signedMag]

/-- From a significand q above 2^52 any other finite value is at least 2^e away. -/
theorem le_abs_signedMag_sub {w : Word} {n n' : Bool} {m' q e : Nat} (hw : unpack w = .fin n' m') (hq : 2 ^ 52 < q)
    (hne : signedMag n' m' ≠ signedMag n (q * 2 ^ e)) : (2 ^ e : ℤ) ≤ |signedMag n' m' - signedMag n (q * 2 ^ e)| := by
  obtain hdvd | hlt := dvd_or_lt_of_unpack hw e
  · have hsub := dvd_sub (dvd_signedMag n' hdvd) (dvd_signedMag n (Nat.dvd_mul_left (2 ^ e) q))
    exact Int.le_of_dvd (abs_pos.2 (sub_ne_zero.2 hne)) ((dvd_abs _ _).2 (by exact_mod_cast hsub))
  · have htri := abs_sub_abs_le_abs_sub (signedMag n (q * 2 ^ e)) (signedMag n' m')
    rw [abs_signedMag, abs_signedMag, abs_sub_comm] at htri
    have hq' : (2 ^ 52 + 1) * 2 ^ e ≤ q * 2 ^ e := Nat.mul_le_mul_right _ hq
    rw [add_one_mul, ← pow_add] at hq'
    zify at hlt hq'
    push_cast at htri
    linarith

/-- The fixed-point value v rounds to a significand above 2^52, and an error of 2^-67 does not bring it to half a unit in the last
place. -/
abbrev RoundsSafely (v : Nat) : Prop :=
  2 ^ 52 < roundSig (v * oneMag) fixOne ∧
  dropBits (v * oneMag) fixOne * 2 ^ 52 + roundSig (v * oneMag) fixOne < 2047 * 2 ^ 52 ∧
  2 * (roundErr (v * oneMag) fixOne (roundSig (v * oneMag) fixOne * 2 ^ dropBits (v * oneMag) fixOne) + oneMag * 2 ^ 133) <
    2 ^ dropBits (v * oneMag) fixOne * fixOne

/-- Of all values in the table but 0.0 and 1.0, none is so near to a tie that an error of 2^-67 matters. -/
theorem roundsSafely_fix : ∀ y < 257, y ≠ 0 → RoundsSafely (fixCos y) ∧ RoundsSafely (fixSin y) := by decide +kernel

/-- What RoundsSafely asks of the error keeps the rounded magnitude less than half a unit in the last place from x. -/
theorem two_mul_abs_sub_lt {v m e : Nat} {x : ℝ} (h : 2 * (roundErr (v * oneMag) fixOne m + oneMag * 2 ^ 133) < 2 ^ e * fixOne)
    (hx : |(v : ℝ) / fixOne - x| ≤ 1 / 2 ^ 67) : 2 * |(m : ℝ) / 2 ^ 1074 - x| < 2 ^ e / 2 ^ 1074 := by
  have hF : (fixOne : ℝ) = 2 ^ 200 := by norm_num [fixOne]
  have hD : (oneMag : ℝ) = 2 ^ 1074 := by rw [oneMag, Nat.cast_pow, Nat.cast_ofNat]
  have hDpos : (0 : ℝ) < oneMag := by exact_mod_cast oneMag_pos
  have herr : (roundErr (v * oneMag) fixOne m : ℝ) = |(m : ℝ) * fixOne - v * oneMag| := by
    rw [roundErr, Nat.cast_natAbs]
    push_cast
    rfl
  rify at h
  rw [herr, hF] at h
  rw [hF] at hx
  rw [← hD]
  generalize (oneMag : ℝ) = D at *
  have hscale : |(m : ℝ) / D - v / 2 ^ 200| = |(m : ℝ) * 2 ^ 200 - v * D| / (D * 2 ^ 200) := by
    rw [← abs_of_pos (by positivity : (0 : ℝ) < D * 2 ^ 200), ← abs_div]
    congr 1
    field_simp
  have htri := abs_sub_le ((m : ℝ) / D) (v / 2 ^ 200) x
  calc 2 * |(m : ℝ) / D - x| ≤ 2 * (|(m : ℝ) * 2 ^ 200 - v * D| / (D * 2 ^ 200) + 1 / 2 ^ 67) := by linarith
    _ = 2 * (|(m : ℝ) * 2 ^ 200 - v * D| + D * 2 ^ 133) / (D * 2 ^ 200) := by field_simp
    _ < 2 ^ e * 2 ^ 200 / (D * 2 ^ 200) := by gcongr
    _ = 2 ^ e / D := by field_simp

theorem signedMag_div (neg : Bool) (m : Nat) (D : ℝ) : (signedMag neg m : ℝ) / D = if neg then -((m : ℝ) / D) else (m : ℝ) / D := by
  cases neg
  · simp [signedMag]
  · simp [signedMag, neg_div]

theorem signedMag_div_sub (neg : Bool) (m : Nat) (D x : ℝ) :
    |(signedMag neg m : ℝ) / D - (if neg then -x else x)| = |(m : ℝ) / D - x| := by
  rw [signedMag_div]
  cases neg
  · rfl
  · rw [if_pos rfl, if_pos rfl, ← abs_neg]
    congr 1
    ring

/-- A value known to within 2^-67 that rounds safely rounds to the nearest word, under either sign. -/
theorem nearestTo_fixRound (neg : Bool) {v : Nat} {x : ℝ} (h : RoundsSafely v) (hx : |(v : ℝ) / fixOne - x| ≤ 1 / 2 ^ 67) :
    NearestTo (fixRound neg v) (if neg then -x else x) := by
  obtain ⟨hsig, hbits, hsafe⟩ := h
  have hhalf := two_mul_abs_sub_lt hsafe hx
  refine ⟨neg, _, unpack_roundMag_of_lt neg hbits, fun w' neg' m' hw' hne => ?_⟩
  have hgap := le_abs_signedMag_sub hw' hsig hne
  rw [← signedMag_div_sub neg] at hhalf
  rify at hgap
  have hD : (0 : ℝ) < 2 ^ 1074 := by positivity
  generalize (2 : ℝ) ^ 1074 = D at *
  have hgap' : (2 : ℝ) ^ dropBits (v * oneMag) fixOne / D ≤ |(signedMag neg' m' : ℝ) / D -
      signedMag neg (roundSig (v * oneMag) fixOne * 2 ^ dropBits (v * oneMag) fixOne) / D| := by
    rw [← sub_div, abs_div, abs_of_pos hD]
    gcongr
  have htri := abs_sub_le ((signedMag neg' m' : ℝ) / D) (if neg then -x else x)
    (signedMag neg (roundSig (v * oneMag) fixOne * 2 ^ dropBits (v * oneMag) fixOne) / D)
  rw [abs_sub_comm (if neg then -x else x)] at htri
  linarith

/-! The table, octant by octant (R82). -/

theorem unpack_fixRound_zero (neg : Bool) :
    unpack (fixRound neg (fixCos 0)) = .fin neg oneMag ∧ unpack (fixRound neg (fixSin 0)) = .fin neg 0 := by
  cases neg <;> decide +kernel

theorem angle_zero : angle 0 = 0 := by simp [angle]

theorem nearestTo_fixCos (neg : Bool) {y : Nat} (hy : y ≤ 256) :
    NearestTo (fixRound neg (fixCos y)) (if neg then -Real.cos (angle y) else Real.cos (angle y)) := by
  obtain rfl | h0 := eq_or_ne y 0
  · refine nearestTo_of_eq (unpack_fixRound_zero neg).1 ?_
    have hD : (oneMag : ℝ) = 2 ^ 1074 := by rw [oneMag, Nat.cast_pow, Nat.cast_ofNat]
    rw [signedMag_div, hD, div_self (by positivity), angle_zero, Real.cos_zero]
  · exact nearestTo_fixRound neg (roundsSafely_fix y (by omega) h0).1 (abs_fix_sub_le hy).1

theorem nearestTo_fixSin (neg : Bool) {y : Nat} (hy : y ≤ 256) :
    NearestTo (fixRound neg (fixSin y)) (if neg then -Real.sin (angle y) else Real.sin (angle y)) := by
  obtain rfl | h0 := eq_or_ne y 0
  · refine nearestTo_of_eq (unpack_fixRound_zero neg).2 ?_
    rw [signedMag_div, Nat.cast_zero, zero_div, angle_zero, Real.sin_zero]
  · exact nearestTo_fixRound neg (roundsSafely_fix y (by omega) h0).2 (abs_fix_sub_le hy).2

theorem angle_add (a b : Nat) : angle (a + b) = angle a + angle b := by
  simp only [angle, Nat.cast_add]
  ring

theorem angle_512 : angle 512 = Real.pi / 2 := by norm_num [angle]; ring

theorem angle_1024 : angle 1024 = Real.pi := by norm_num [angle]

theorem angle_complement {a b : Nat} (h : a + b = 512) : angle a = Real.pi / 2 - angle b := by
  rw [← angle_512, ← h, angle_add, add_sub_cancel_right]

theorem angle_supplement {a b : Nat} (h : a + b = 1024) : angle a = Real.pi - angle b := by
  rw [← angle_1024, ← h, angle_add, add_sub_cancel_right]

theorem nearestTo_cosWord {x : Nat} (hx : x < 1024) : NearestTo (cosWord x) (Real.cos (angle x)) := by
  unfold cosWord
  split_ifs with h1 h2 h3
  · exact nearestTo_fixCos false h1
  · rw [angle_complement (b := 512 - x) (by omega), Real.cos_pi_div_two_sub]
    exact nearestTo_fixSin false (by omega)
  · rw [show x = (x - 512) + 512 by omega, angle_add, angle_512, Real.cos_add_pi_div_two, Nat.add_sub_cancel]
    exact nearestTo_fixSin true (by omega)
  · rw [angle_supplement (b := 1024 - x) (by omega), Real.cos_pi_sub]
    exact nearestTo_fixCos true (by omega)

theorem nearestTo_sinWord {x : Nat} (hx : x < 1024) : NearestTo (sinWord x) (Real.sin (angle x)) := by
  unfold sinWord
  split_ifs with h1 h2 h3
  · exact nearestTo_fixSin false h1
  · rw [angle_complement (b := 512 - x) (by omega), Real.sin_pi_div_two_sub]
    exact nearestTo_fixCos false (by omega)
  · rw [show x = (x - 512) + 512 by omega, angle_add, angle_512, Real.sin_add_pi_div_two, Nat.add_sub_cancel]
    exact nearestTo_fixCos false (by omega)
  · rw [angle_supplement (b := 1024 - x) (by omega), Real.sin_pi_sub]
    exact nearestTo_fixSin false (by omega)

theorem romEntry_default {p : Params} (h : p.twRom = none) (j : Nat) :
    romEntry p j = ⟨cosWord (j * 2 ^ (11 - p.log2Nmax)), sinWord (j * 2 ^ (11 - p.log2Nmax))⟩ := by
  simp only [romEntry, h]

/-- A position in the table, as one of 2048 to the circle. -/
theorem nmax_mul {p : Params} (h : p.Legal) : p.nmax * 2 ^ (11 - p.log2Nmax) = 2048 := by
  obtain ⟨⟨-, hmax⟩, -⟩ := h
  rw [Params.nmax, ← pow_add, Nat.add_sub_cancel' hmax]
  norm_num

theorem angle_rom {p : Params} (h : p.Legal) (j : Nat) : angle (j * 2 ^ (11 - p.log2Nmax)) = 2 * Real.pi * j / p.nmax := by
  have hnmax : (p.nmax : ℝ) * 2 ^ (11 - p.log2Nmax) = 2048 := by exact_mod_cast nmax_mul h
  have hpos : (0 : ℝ) < p.nmax := by exact_mod_cast Nat.two_pow_pos p.log2Nmax
  rw [angle, div_eq_div_iff (by norm_num) hpos.ne']
  push_cast
  linear_combination Real.pi * j * hnmax

/-- Settles O31: the fixed-point values are within 2^-67 of the exact ones, and none lies so near to a tie. -/
theorem romIsCorrectlyRounded : Obligations.RomIsCorrectlyRounded := by
  intro p j im hp hrom hj
  have hx : j * 2 ^ (11 - p.log2Nmax) < 1024 := by
    have hmul : 2 * j * 2 ^ (11 - p.log2Nmax) < p.nmax * 2 ^ (11 - p.log2Nmax) :=
      Nat.mul_lt_mul_of_pos_right (by omega) (Nat.two_pow_pos _)
    rw [nmax_mul hp, Nat.mul_assoc] at hmul
    omega
  rw [romEntry_default hrom, ← angle_rom hp]
  cases im
  · simp only [Bool.false_eq_true, if_false]
    exact nearestTo_cosWord hx
  · simp only [if_true]
    exact nearestTo_sinWord hx

end Sys2Proof.Machine

namespace Sys2Proof.Machine

open Sys2Proof

/-! The listed ROM values and the twiddles (R82-R84). -/

theorem cosWord_listed :
    cosWord 0 = 0x3FF0000000000000 ∧ cosWord 128 = 0x3FED906BCF328D46 ∧ cosWord 256 = 0x3FE6A09E667F3BCD ∧ cosWord 512 = 0 ∧
      cosWord 768 = 0xBFE6A09E667F3BCD := by decide +kernel

theorem sinWord_listed :
    sinWord 0 = 0 ∧ sinWord 128 = 0x3FD87DE2A6AEA963 ∧ sinWord 256 = 0x3FE6A09E667F3BCD ∧ sinWord 512 = 0x3FF0000000000000 ∧
      sinWord 768 = 0x3FE6A09E667F3BCD := by decide +kernel

theorem romEntry_zero {p : Params} (h : p.twRom = none) : romEntry p 0 = ⟨0x3FF0000000000000, 0⟩ := by
  rw [romEntry_default h, Nat.zero_mul, cosWord_listed.1, sinWord_listed.1]

/-- A fraction c / 2^k of the circle stands at the position c * 2048 / 2^k for every size. -/
theorem rom_position {p : Params} (h : p.Legal) {k : Nat} (hk : k ≤ p.log2Nmax) (c : Nat) :
    c * p.nmax / 2 ^ k * 2 ^ (11 - p.log2Nmax) = c * 2048 / 2 ^ k := by
  have hdvd : 2 ^ k ∣ c * p.nmax := (pow_dvd_pow 2 hk).mul_left c
  rw [Nat.div_mul_right_comm hdvd, Nat.mul_assoc, nmax_mul h]

/-- Settles O30: every listed value stands at a position of the table that no size moves. -/
theorem romListedValues : Obligations.RomListedValues := by
  intro p hp hrom
  obtain ⟨-, hc128, hc256, hc512, hc768⟩ := cosWord_listed
  obtain ⟨-, hs128, hs256, hs512, hs768⟩ := sinWord_listed
  refine ⟨romEntry_zero hrom, fun hk => ?_, fun hk => ⟨?_, ?_⟩, fun hk => ?_⟩
  · have hpos : p.nmax / 4 * 2 ^ (11 - p.log2Nmax) = 512 := by simpa using rom_position hp hk 1
    rw [romEntry_default hrom, hpos, hc512, hs512]
  · have hpos : p.nmax / 8 * 2 ^ (11 - p.log2Nmax) = 256 := by simpa using rom_position hp hk 1
    rw [romEntry_default hrom, hpos, hc256, hs256]
  · have hpos : 3 * p.nmax / 8 * 2 ^ (11 - p.log2Nmax) = 768 := rom_position hp hk 3
    rw [romEntry_default hrom, hpos, hc768, hs768]
  · rw [romEntry_default hrom, hk, show 64 * 2 ^ (11 - 10) = 128 from rfl, hc128, hs128]

/-- fneg inverts bit 63 and no other (40_complex.md R71). -/
theorem getLsbD_fneg (w : Word) {b : Nat} (hb : b < 64) : (fneg w).getLsbD b = (w.getLsbD b ^^ decide (b = 63)) := by
  have hmask : ∀ b < 64, (0x8000000000000000 : Word).getLsbD b = decide (b = 63) := by decide
  rw [fneg, BitVec.getLsbD_xor, hmask b hb]

theorem twAddr_mul {p : Params} {s : Nat} (hs : s ≤ p.log2Nmax) (k : Nat) : twAddr p s k * 2 ^ s = k * p.nmax := by
  rw [twAddr, Nat.mul_assoc, ← pow_add, Nat.sub_add_cancel hs, Params.nmax]

theorem twAddr_lt {p : Params} {s k : Nat} (h1 : 1 ≤ s) (hs : s ≤ p.log2Nmax) (hk : k < 2 ^ s / 2) : twAddr p s k < p.nmax / 2 := by
  rw [two_pow_div_two h1] at hk
  rw [Params.nmax, two_pow_div_two (h1.trans hs)]
  calc k * 2 ^ (p.log2Nmax - s) < 2 ^ (s - 1) * 2 ^ (p.log2Nmax - s) := Nat.mul_lt_mul_of_pos_right hk (Nat.two_pow_pos _)
    _ = 2 ^ (p.log2Nmax - 1) := by rw [← pow_add]; congr 1; omega

/-- Settles O29: the address and its bound by powers of two, the directions by the bits of fneg, and t = 0 by entry 0 of the table. -/
theorem twiddleAddressAndDirection : Obligations.TwiddleAddressAndDirection := by
  refine fun p => ⟨fun s k h1 hs hk => ⟨rfl, twAddr_mul hs k, twAddr_lt h1 hs hk⟩,
    fun t => ⟨rfl, rfl, fun b hb => getLsbD_fneg _ hb⟩, fun hrom => ⟨romEntry_zero hrom, ?_⟩⟩
  simp only [twiddle, romEntry_zero hrom, Bool.false_eq_true, if_false]
  decide

/-! The recursion (R89). -/

/-- The ROM address of the recursion for length 2^s is the one of stage s (R83). -/
theorem mul_nmax_div {p : Params} {s : Nat} (hs : s ≤ p.log2Nmax) (k : Nat) : k * (p.nmax / 2 ^ s) = twAddr p s k := by
  rw [twAddr, Params.nmax, Nat.pow_div hs Nat.two_pos]

theorem combine_getElem? (p : Params) (inv : Bool) (n : Nat) {es os : List Cplx} {k : Nat} {e o : Cplx} (hlen : es.length = os.length)
    (he : es[k]? = some e) (ho : os[k]? = some o) :
    (combine p inv n es os)[k]? = some (butterfly e o (twiddle p (k * (p.nmax / n)) inv)).1 ∧
      (combine p inv n es os)[k + es.length]? = some (butterfly e o (twiddle p (k * (p.nmax / n)) inv)).2 := by
  have hk : k < es.length := (List.getElem?_eq_some_iff.1 he).1
  have hzip : (es.zip os)[k]? = some (e, o) := List.getElem?_zip_eq_some.2 ⟨he, ho⟩
  unfold combine
  constructor
  · rw [List.getElem?_append_left (by simp; omega)]
    simp [hzip]
  · rw [List.getElem?_append_right (by simp)]
    simp [hzip, hlen]

/-- One level of the recursion on a sequence given by its index. -/
theorem recFft_succ (p : Params) (inv : Bool) (l : Nat) (x : Nat → Cplx) :
    recFft p inv (l + 1) ((List.range (2 ^ (l + 1))).map x) =
      combine p inv (2 ^ (l + 1)) (recFft p inv l ((List.range (2 ^ l)).map (fun i => x (2 * i))))
        (recFft p inv l ((List.range (2 ^ l)).map (fun i => x (2 * i + 1)))) := by
  rw [recFft, Nat.pow_succ', evens_map_range, odds_map_range]

theorem recFft_map_length (p : Params) (inv : Bool) (l : Nat) (x : Nat → Cplx) :
    (recFft p inv l ((List.range (2 ^ l)).map x)).length = 2 ^ l := recFft_length p inv l _ (by simp)

/-- FFT_ref of a sequence of length 2^l. -/
theorem fftRef_of_length (p : Params) (inv : Bool) {l : Nat} {x : List Cplx} (h : x.length = 2 ^ l) :
    fftRef p inv x = if inv then (recFft p inv l x).map (fun z => cdivn z (2 ^ l)) else recFft p inv l x := by
  unfold fftRef
  rw [h, Nat.log2_two_pow]

/-- Settles O21: one level of `recFft` is `combine` of the two halves, and `combine` pairs them index by index. -/
theorem transformIsTheRecursion : Obligations.TransformIsTheRecursion := by
  refine fun p inv => ⟨fun _ => rfl, fun l x k _ => ?_, fun l x => fftRef_of_length p inv (by simp)⟩
  have he := recFft_map_length p inv l fun i => x (2 * i)
  have ho := recFft_map_length p inv l fun i => x (2 * i + 1)
  refine ⟨he, ho, recFft_map_length p inv (l + 1) x, fun e hek o hok => ?_⟩
  have hcombine := combine_getElem? p inv (2 ^ (l + 1)) (he.trans ho.symm) hek hok
  rwa [he, ← recFft_succ] at hcombine

/-! The impulse (R91). -/

theorem fneg_zeroWord (a : Bool) : fneg (zeroWord a) = zeroWord (!a) := by cases a <;> decide

theorem fadd_zeroWord (a b : Bool) : fadd (zeroWord a) (zeroWord b) = zeroWord (a && b) := by
  rw [fadd_fin (unpack_zeroWord a) (unpack_zeroWord b)]
  cases a <;> cases b <;> rfl

theorem fsub_zeroWord (a b : Bool) : fsub (zeroWord a) (zeroWord b) = zeroWord (a && !b) := by
  rw [fsub, fneg_zeroWord, fadd_zeroWord]

theorem fmul_zero_of_isFinite {w : Word} (h : isFinite w = true) : ∃ a, fmul w 0 = zeroWord a := by
  obtain ⟨n, m, hw⟩ := isFinite_iff.1 h
  exact ⟨n ^^ false, by rw [fmul_fin (b := 0) hw (unpack_zeroWord false), if_pos (Nat.mul_zero m)]⟩

theorem isFinite_fneg {w : Word} (h : isFinite w = true) : isFinite (fneg w) = true := by
  obtain ⟨n, m, hw⟩ := isFinite_iff.1 h
  exact isFinite_iff.2 ⟨!n, m, by rw [unpack_fneg, hw]⟩

/-- A finite twiddle times (0, 0) is a pair of zeros of some signs. -/
theorem cmul_zero_of_isFinite {w : Cplx} (hre : isFinite w.re = true) (him : isFinite w.im = true) :
    ∃ a b, cmul w ⟨0, 0⟩ = ⟨zeroWord a, zeroWord b⟩ := by
  obtain ⟨a, ha⟩ := fmul_zero_of_isFinite hre
  obtain ⟨b, hb⟩ := fmul_zero_of_isFinite him
  exact ⟨a && !b, a && b, by simp only [cmul, ha, hb, fsub_zeroWord, fadd_zeroWord]⟩

/-- A zero of either sign leaves 1.0 and +0.0 as they are. -/
theorem fadd_fsub_zeroWord (a : Bool) :
    (fadd 0x3FF0000000000000 (zeroWord a) = 0x3FF0000000000000 ∧ fsub 0x3FF0000000000000 (zeroWord a) = 0x3FF0000000000000) ∧
      fadd 0 (zeroWord a) = 0 ∧ fsub 0 (zeroWord a) = 0 := by cases a <;> decide +kernel

/-- Half an impulse and half zeros: both results of the butterfly are the first operand. -/
theorem butterfly_zero {z w : Cplx} (hz : z = ⟨0x3FF0000000000000, 0⟩ ∨ z = ⟨0, 0⟩) (hre : isFinite w.re = true)
    (him : isFinite w.im = true) : butterfly z ⟨0, 0⟩ w = (z, z) := by
  obtain ⟨a, b, hu⟩ := cmul_zero_of_isFinite hre him
  obtain ⟨⟨hadd1, hsub1⟩, hadd0, hsub0⟩ := fadd_fsub_zeroWord a
  obtain ⟨-, hadd, hsub⟩ := fadd_fsub_zeroWord b
  simp only [butterfly, hu, cadd, csub]
  obtain rfl | rfl := hz
  · rw [hadd1, hsub1, hadd, hsub]
  · rw [hadd0, hsub0, hadd, hsub]

/-- Every forward twiddle is finite. -/
def FiniteTwiddles (p : Params) : Prop :=
  ∀ t < p.nmax / 2, isFinite (twiddle p t false).re = true ∧ isFinite (twiddle p t false).im = true

theorem combine_replicate {p : Params} (hp : FiniteTwiddles p) {l : Nat} (hl : l + 1 ≤ p.log2Nmax) {z : Cplx}
    (hz : z = ⟨0x3FF0000000000000, 0⟩ ∨ z = ⟨0, 0⟩) :
    combine p false (2 ^ (l + 1)) (List.replicate (2 ^ l) z) (List.replicate (2 ^ l) ⟨0, 0⟩) = List.replicate (2 ^ (l + 1)) z := by
  refine List.eq_replicate_iff.2 ⟨by rw [combine_length]; simp; ring, fun y hy => ?_⟩
  have hfst : ∀ k < 2 ^ l, butterfly z ⟨0, 0⟩ (twiddle p (k * (p.nmax / 2 ^ (l + 1))) false) = (z, z) := fun k hk => by
    rw [mul_nmax_div hl]
    obtain ⟨hre, him⟩ := hp _ (twAddr_lt (by omega) hl (by rwa [two_pow_div_two (by omega)]))
    exact butterfly_zero hz hre him
  unfold combine at hy
  simp only [List.mem_append, List.mem_map, List.mem_mapIdx, List.length_zip, List.length_replicate, min_self, List.getElem_zip,
    List.getElem_replicate] at hy
  obtain ⟨r, ⟨k, hk, rfl⟩, rfl⟩ | ⟨r, ⟨k, hk, rfl⟩, rfl⟩ := hy
  · rw [hfst k hk]
  · rw [hfst k hk]

theorem recFft_zeros {p : Params} (hp : FiniteTwiddles p) {l : Nat} (hl : l ≤ p.log2Nmax) :
    recFft p false l ((List.range (2 ^ l)).map fun _ => ⟨0, 0⟩) = List.replicate (2 ^ l) ⟨0, 0⟩ := by
  induction l with
  | zero => rfl
  | succ l ih => rw [recFft_succ, ih (by omega), combine_replicate hp hl (.inr rfl)]

theorem recFft_impulse {p : Params} (hp : FiniteTwiddles p) {l : Nat} (hl : l ≤ p.log2Nmax) :
    recFft p false l ((List.range (2 ^ l)).map fun i => if i = 0 then ⟨0x3FF0000000000000, 0⟩ else ⟨0, 0⟩) =
      List.replicate (2 ^ l) ⟨0x3FF0000000000000, 0⟩ := by
  induction l with
  | zero => rfl
  | succ l ih =>
    rw [recFft_succ]
    simp only [Nat.mul_eq_zero, OfNat.ofNat_ne_zero, false_or, Nat.succ_ne_zero, if_false]
    rw [ih (by omega), recFft_zeros hp (by omega), combine_replicate hp hl (.inl rfl)]

theorem impulse_eq_map {n : Nat} (hn : 0 < n) :
    ((⟨0x3FF0000000000000, 0⟩ : Cplx) :: List.replicate (n - 1) ⟨0, 0⟩) =
      (List.range n).map fun i => if i = 0 then ⟨0x3FF0000000000000, 0⟩ else ⟨0, 0⟩ := by
  obtain ⟨m, rfl⟩ := Nat.exists_eq_add_of_le' hn
  rw [List.range_succ_eq_map]
  simp [Function.comp_def]

/-- Settles O28: at every level the even half transforms to ones and the odd half to zeros, and adding a zero changes neither. -/
theorem impulseIsConstant : Obligations.ImpulseIsConstant := by
  intro p l hfin hl
  have hp : FiniteTwiddles p := fun t ht => ⟨(hfin t ht).1, isFinite_fneg (hfin t ht).2⟩
  rw [impulse_eq_map (Nat.two_pow_pos l), fftRef_of_length (l := l) p false (by simp), if_neg Bool.false_ne_true, recFft_impulse hp hl]

end Sys2Proof.Machine

namespace Sys2Proof.Machine

open Sys2Proof

/-! A specified word determines its bytes (20_memory.md R41). -/

theorem foldr_bytes_lt (bs : List Byte) : bs.foldr (fun b v => b.toNat + 256 * v) 0 < 256 ^ bs.length := by
  induction bs with
  | nil => simp
  | cons b bs ih =>
    have hb := b.isLt
    rw [List.foldr_cons, List.length_cons, pow_succ]
    omega

theorem foldr_bytes_injective {bs cs : List Byte} (hlen : bs.length = cs.length)
    (h : bs.foldr (fun b v => b.toNat + 256 * v) 0 = cs.foldr (fun b v => b.toNat + 256 * v) 0) : bs = cs := by
  induction bs generalizing cs with
  | nil => exact (List.length_eq_zero_iff.1 hlen.symm).symm
  | cons b bs ih =>
    obtain _ | ⟨c, cs⟩ := cs
    · simp at hlen
    · have hb := b.isLt
      have hc := c.isLt
      simp only [List.foldr_cons] at h
      rw [BitVec.eq_of_toNat_eq (show b.toNat = c.toNat by omega), ih (by simpa using hlen) (by omega)]

theorem wordOfBytes_injective {bs cs : List Byte} (hb : bs.length = 8) (hc : cs.length = 8) (h : wordOfBytes bs = wordOfBytes cs) :
    bs = cs := by
  have hlt := foldr_bytes_lt bs
  have hlt' := foldr_bytes_lt cs
  rw [hb, show 256 ^ 8 = 2 ^ 64 by norm_num] at hlt
  rw [hc, show 256 ^ 8 = 2 ^ 64 by norm_num] at hlt'
  refine foldr_bytes_injective (hb.trans hc.symm) ?_
  have hnat := congrArg BitVec.toNat h
  rwa [wordOfBytes, wordOfBytes, BitVec.toNat_ofNat, BitVec.toNat_ofNat, Nat.mod_eq_of_lt hlt, Nat.mod_eq_of_lt hlt'] at hnat

/-- Specified bytes are the list that reading them gives. -/
theorem Memory.read_of_readBytes {m : List Host.Cell} {a n : Nat} {bs : List Byte} (h : Memory.readBytes m a n = some bs) :
    bs.length = n ∧ ∀ i < n, Memory.read m (a + i) = bs[i]? := by
  induction n generalizing a bs with
  | zero =>
    obtain rfl := Option.some.inj h
    exact ⟨rfl, fun i hi => absurd hi (Nat.not_lt_zero i)⟩
  | succ n ih =>
    rw [Memory.readBytes] at h
    split at h
    next b cs hb hcs =>
      obtain rfl := Option.some.inj h
      obtain ⟨hlen, hread⟩ := ih hcs
      refine ⟨by rw [List.length_cons, hlen], fun i hi => ?_⟩
      cases i with
      | zero => exact hb
      | succ i =>
        rw [show a + (i + 1) = a + 1 + i by omega, hread i (by omega), List.getElem?_cons_succ]
    next => cases h

/-- Two memories in which a word is specified alike agree in its bytes. -/
theorem Memory.read_eq_of_readWord {m m' : List Host.Cell} {a i : Nat} {v : Word} (h : Memory.readWord m a = some v)
    (h' : Memory.readWord m' a = some v) (hi : i < 8) : Memory.read m (a + i) = Memory.read m' (a + i) := by
  obtain ⟨bs, hbs, hv⟩ := Option.map_eq_some_iff.1 h
  obtain ⟨cs, hcs, hv'⟩ := Option.map_eq_some_iff.1 h'
  obtain ⟨hlen, hread⟩ := Memory.read_of_readBytes hbs
  obtain ⟨hlen', hread'⟩ := Memory.read_of_readBytes hcs
  rw [hread i hi, hread' i hi, wordOfBytes_injective hlen hlen' (hv.trans hv'.symm)]

theorem State.readWord_of_entry? {s : State} {e : Nat} {z : Cplx} (h : s.entry? e = some z) (im : Bool) :
    Memory.readWord s.dmem (dmemAddr e im) = some (if im then z.im else z.re) := by
  unfold State.entry? at h
  split at h
  next a b ha hb =>
    obtain rfl := Option.some.inj h
    cases im
    · exact ha
    · exact hb
  next => cases h

theorem inEntry_iff {e a : Nat} : inEntry e a ↔ ∃ im i, i < 8 ∧ a = dmemAddr e im + i := by
  constructor
  · rintro ⟨h1, h2⟩
    obtain h | h := Nat.lt_or_ge a (0x10000 + 16 * e + 8)
    · exact ⟨false, a - (0x10000 + 16 * e), by omega, by simp [dmemAddr]; omega⟩
    · exact ⟨true, a - (0x10000 + 16 * e + 8), by omega, by simp [dmemAddr]; omega⟩
  · rintro ⟨im, i, hi, rfl⟩
    cases im <;> simp [dmemAddr] <;> omega

/-- Two states that hold the same value in an entry agree in its bytes. -/
theorem State.read_eq_of_entry? {s t : State} {e a : Nat} {z : Cplx} (hs : s.entry? e = some z) (ht : t.entry? e = some z)
    (ha : inEntry e a) : Memory.read s.dmem a = Memory.read t.dmem a := by
  obtain ⟨im, i, hi, rfl⟩ := inEntry_iff.1 ha
  exact Memory.read_eq_of_readWord (State.readWord_of_entry? hs im) (State.readWord_of_entry? ht im) hi

/-! The state between two commands of the schedule (R90). -/

/-- `t` is `s` after commands on the region that completed: the region holds `y`, its previous contents were read once, and nothing else of
DMEM changed. -/
structure HoldsRegion (s : State) (base l : Nat) (y : Nat → Cplx) (t : State) : Prop where
  only : t = { s with dmem := t.dmem, draws := t.draws, done := true, busy := false }
  draws : t.draws = (s.readRegion base (2 ^ l)).2.draws
  frame : ∀ a, (∀ e, base ≤ e ∧ e < base + 2 ^ l → ¬ inEntry e a) → Memory.read t.dmem a = Memory.read s.dmem a
  entries : ∀ i < 2 ^ l, t.entry? (base + i) = some (y i)

/-- No word of the region is lost. -/
def NoneLost (s : State) (base l : Nat) : Prop := ∀ i < 2 ^ l, ∀ im, dmemAddr (base + i) im ∉ s.lost

section

variable {s t u : State} {base l : Nat} {y : Nat → Cplx}

theorem HoldsRegion.params (h : HoldsRegion s base l y t) : t.params = s.params := by rw [h.only]

theorem HoldsRegion.lost (h : HoldsRegion s base l y t) : t.lost = s.lost := by rw [h.only]

/-- What the region holds, and that the rest is as before, is all of the state. -/
theorem HoldsRegion.unique (ht : HoldsRegion s base l y t) (hu : HoldsRegion s base l y u) :
    u = { t with dmem := u.dmem } ∧ ∀ a, Memory.read u.dmem a = Memory.read t.dmem a := by
  constructor
  · have hdraws := hu.draws.trans ht.draws.symm
    rw [ht.only]
    conv_lhs => rw [hu.only, hdraws]
  · intro a
    by_cases ha : ∃ i < 2 ^ l, inEntry (base + i) a
    · obtain ⟨i, hi, hin⟩ := ha
      exact State.read_eq_of_entry? (hu.entries i hi) (ht.entries i hi) hin
    · have hout (e : Nat) (he : base ≤ e ∧ e < base + 2 ^ l) : ¬ inEntry e a := fun hin =>
        ha ⟨e - base, by omega, by rwa [Nat.add_sub_cancel' he.1]⟩
      rw [hu.frame a hout, ht.frame a hout]

/-- A command that reads the region once and leaves `z` in it. -/
theorem HoldsRegion.of_effect {z : Nat → Cplx} (hr : DmemRun (fun e => base ≤ e ∧ e < base + 2 ^ l) s u)
    (hd : u.draws = (s.readRegion base (2 ^ l)).2.draws) (hz : ∀ i < 2 ^ l, u.entry? (base + i) = some (z i)) :
    HoldsRegion s base l z u.complete :=
  ⟨hr.onlyDmem.complete_eq, hd, fun _ ha => hr.read_other ha, hz⟩

/-- A further command on the region, that draws nothing and leaves `z` in it. -/
theorem HoldsRegion.next {z : Nat → Cplx} (h : HoldsRegion s base l y t) (hr : DmemRun (fun e => base ≤ e ∧ e < base + 2 ^ l) t u)
    (hd : u.draws = t.draws) (hz : ∀ i < 2 ^ l, u.entry? (base + i) = some (z i)) : HoldsRegion s base l z u.complete := by
  refine ⟨?_, hd.trans h.draws, fun a ha => (hr.read_other ha).trans (h.frame a ha), hz⟩
  rw [hr.onlyDmem.complete_eq, h.only]

end

/-! Commands on a specified region draw nothing. -/

/-- Every entry of the region is specified and no word of it is lost. -/
structure Known (base l : Nat) (s : State) : Prop where
  entries : ∀ i < 2 ^ l, ∃ z, s.entry? (base + i) = some z
  noneLost : NoneLost s base l

section

variable {s : State} {base l : Nat}

theorem Known.exists_entry? (h : Known base l s) {e : Nat} (he : base ≤ e ∧ e < base + 2 ^ l) : ∃ z, s.entry? e = some z := by
  have := h.entries (e - base) (by omega)
  rwa [Nat.add_sub_cancel' he.1] at this

theorem Known.dwrite (h : Known base l s) (e : Nat) (z : Cplx) : Known base l (s.dwrite e z) := by
  refine ⟨fun i hi => ?_, fun i hi im => by rw [State.dwrite_lost]; exact h.noneLost i hi im⟩
  by_cases he : base + i = e
  · subst he
    exact ⟨z, (s.stored_dwrite (base + i) z).entry? (h.noneLost i hi)⟩
  · rw [State.entry?_dwrite_other s z he]
    exact h.entries i hi

/-- A read and write of specified entries of the region, and so a loop of them, draws nothing and keeps the region known. -/
theorem Known.foldl {α : Type} {f : State → α → State} {ls : List α}
    (hf : ∀ t, Known base l t → ∀ a ∈ ls, (f t a).draws = t.draws ∧ Known base l (f t a)) (h : Known base l s) :
    (ls.foldl f s).draws = s.draws := by
  induction ls generalizing s with
  | nil => rfl
  | cons a ls ih =>
    obtain ⟨hd, hk⟩ := hf s h a (by simp)
    exact (ih (fun t ht b hb => hf t ht b (by simp [hb])) hk).trans hd

theorem Known.bflyAt (h : Known base l s) (inv : Bool) {e o : Nat} (t : Nat) (he : base ≤ e ∧ e < base + 2 ^ l)
    (ho : base ≤ o ∧ o < base + 2 ^ l) : (s.bflyAt inv e o t).draws = s.draws ∧ Known base l (s.bflyAt inv e o t) := by
  obtain ⟨x, hx⟩ := h.exists_entry? he
  obtain ⟨y, hy⟩ := h.exists_entry? ho
  simp only [State.bflyAt, State.dread_of_entry? hx, State.dread_of_entry? hy, State.dwrite_draws]
  exact ⟨trivial, (h.dwrite _ _).dwrite _ _⟩

theorem Known.scaleAt (h : Known base l s) (n : Nat) {e : Nat} (he : base ≤ e ∧ e < base + 2 ^ l) :
    (s.scaleAt n e).draws = s.draws ∧ Known base l (s.scaleAt n e) := by
  obtain ⟨x, hx⟩ := h.exists_entry? he
  simp only [State.scaleAt, State.dread_of_entry? hx, State.dwrite_draws]
  exact ⟨trivial, h.dwrite _ _⟩

theorem Known.stage_draws (h : Known base l s) (inv : Bool) {st : Nat} (h1 : 1 ≤ st) (hst : st ≤ l) :
    (s.stage inv base (2 ^ l) st).draws = s.draws := by
  refine h.foldl fun t ht b hb => ?_
  obtain ⟨he, ho⟩ := stageBflys_mem ⟨l, rfl⟩ ⟨h1, by rwa [Nat.log2_two_pow]⟩ hb
  exact ht.bflyAt inv b.2.2 he ho

theorem Known.scale_draws (h : Known base l s) : (s.scale base (2 ^ l)).draws = s.draws := by
  refine h.foldl fun t ht i hi => ht.scaleAt (2 ^ l) ?_
  have := List.mem_range.1 hi
  omega

theorem HoldsRegion.known {t : State} {y : Nat → Cplx} (h : HoldsRegion s base l y t) (hl : NoneLost s base l) : Known base l t :=
  ⟨fun i hi => ⟨y i, h.entries i hi⟩, fun i hi im => h.lost ▸ hl i hi im⟩

end

/-! The recursion's intermediate results, as the stages leave them in the region (R90). -/

/-- What block b of 2^st entries holds after stage st: the transform of the samples whose index is bitrev_(l-st)(b) modulo 2^(l-st). -/
def blockFft (p : Params) (inv : Bool) (l : Nat) (x : Nat → Cplx) (st b : Nat) : List Cplx :=
  recFft p inv st ((List.range (2 ^ st)).map fun i => x (i * 2 ^ (l - st) + bitrev (l - st) b))

/-- Entry i of the region after stage st. -/
def blockVal (p : Params) (inv : Bool) (l : Nat) (x : Nat → Cplx) (st i : Nat) : Cplx :=
  (blockFft p inv l x st (i / 2 ^ st)).getD (i % 2 ^ st) ⟨0, 0⟩

section

variable (p : Params) (inv : Bool) {l : Nat} (x : Nat → Cplx)

theorem blockFft_length (st b : Nat) : (blockFft p inv l x st b).length = 2 ^ st := recFft_map_length p inv st _

theorem blockFft_getElem? {st k : Nat} (b : Nat) (hk : k < 2 ^ st) :
    (blockFft p inv l x st b)[k]? = some (blockVal p inv l x st (b * 2 ^ st + k)) := by
  have hdiv : (b * 2 ^ st + k) / 2 ^ st = b := by
    rw [Nat.mul_comm, Nat.mul_add_div (Nat.two_pow_pos st), Nat.div_eq_of_lt hk, Nat.add_zero]
  have hmod : (b * 2 ^ st + k) % 2 ^ st = k := by rw [Nat.mul_comm, Nat.mul_add_mod, Nat.mod_eq_of_lt hk]
  have hlt : k < (blockFft p inv l x st b).length := by rwa [blockFft_length]
  rw [blockVal, hdiv, hmod, List.getD_eq_getElem _ _ hlt, List.getElem?_eq_getElem hlt]

/-- Before the first stage the region holds the samples in bit-reversed order. -/
theorem blockVal_zero (i : Nat) : blockVal p inv l x 0 i = x (bitrev l i) := by simp [blockVal, blockFft, recFft, Nat.mod_one]

/-- After the last stage it holds the transform. -/
theorem blockVal_last {i : Nat} (hi : i < 2 ^ l) : (recFft p inv l ((List.range (2 ^ l)).map x))[i]? = some (blockVal p inv l x l i) := by
  have h := blockFft_getElem? p inv (l := l) x 0 hi
  rw [Nat.zero_mul, Nat.zero_add] at h
  rw [← h]
  simp [blockFft, bitrev]

/-- The samples of a block at the next stage, split into the even-indexed and the odd-indexed, are those of two neighbouring blocks. -/
theorem blockFft_succ {st : Nat} (hst : st < l) (b : Nat) :
    blockFft p inv l x (st + 1) b =
      combine p inv (2 ^ (st + 1)) (blockFft p inv l x st (2 * b)) (blockFft p inv l x st (2 * b + 1)) := by
  obtain ⟨d, hd⟩ : ∃ d, l - st = d + 1 := ⟨l - st - 1, by omega⟩
  have hd' : l - (st + 1) = d := by omega
  have heven (i : Nat) : 2 * i * 2 ^ d + bitrev d b = i * 2 ^ (d + 1) + bitrev (d + 1) (2 * b) := by
    rw [bitrev, Nat.mul_mod_right, Nat.mul_div_cancel_left _ Nat.two_pos]
    ring
  have hodd (i : Nat) : (2 * i + 1) * 2 ^ d + bitrev d b = i * 2 ^ (d + 1) + bitrev (d + 1) (2 * b + 1) := by
    rw [bitrev, show (2 * b + 1) % 2 = 1 by omega, show (2 * b + 1) / 2 = b by omega]
    ring
  rw [blockFft, recFft_succ]
  simp only [blockFft, hd, hd', heven, hodd]

/-- Stage st + 1 on entries k and k + 2^st of block b. -/
theorem blockVal_succ {st b k : Nat} (hst : st < l) (hk : k < 2 ^ st) :
    let r := butterfly (blockVal p inv l x st (b * 2 ^ (st + 1) + k)) (blockVal p inv l x st (b * 2 ^ (st + 1) + k + 2 ^ st))
      (twiddle p (k * (p.nmax / 2 ^ (st + 1))) inv)
    blockVal p inv l x (st + 1) (b * 2 ^ (st + 1) + k) = r.1 ∧ blockVal p inv l x (st + 1) (b * 2 ^ (st + 1) + k + 2 ^ st) = r.2 := by
  intro r
  have hpow : 2 ^ (st + 1) = 2 ^ st + 2 ^ st := by ring
  have he := blockFft_getElem? p inv (l := l) x (2 * b) hk
  have ho := blockFft_getElem? p inv (l := l) x (2 * b + 1) hk
  rw [show 2 * b * 2 ^ st + k = b * 2 ^ (st + 1) + k by ring] at he
  rw [show (2 * b + 1) * 2 ^ st + k = b * 2 ^ (st + 1) + k + 2 ^ st by ring] at ho
  obtain ⟨h1, h2⟩ := combine_getElem? p inv (2 ^ (st + 1))
    ((blockFft_length p inv x st _).trans (blockFft_length p inv x st _).symm) he ho
  rw [← blockFft_succ p inv x hst, blockFft_getElem? p inv x b (by omega)] at h1
  rw [← blockFft_succ p inv x hst, blockFft_length, blockFft_getElem? p inv x b (by omega), ← Nat.add_assoc] at h2
  exact ⟨Option.some.inj h1, Option.some.inj h2⟩

end

/-! The commands of the schedule one by one. -/

/-- The region's previous contents, by index. -/
def State.samples (s : State) (base l i : Nat) : Cplx := (s.readRegion base (2 ^ l)).1.getD i ⟨0, 0⟩

theorem State.readRegion_eq_map_samples (s : State) (base l : Nat) :
    (s.readRegion base (2 ^ l)).1 = (List.range (2 ^ l)).map (s.samples base l) := by
  apply List.ext_getElem
  · simp
  · intro i hi hi'
    rw [List.getElem_map, List.getElem_range, State.samples, List.getD_eq_getElem _ _ hi]

section

variable {s t : State} {base l : Nat}

theorem holdsRegion_permute (inv : Bool) (hl : NoneLost s base l) :
    HoldsRegion s base l (blockVal s.params inv l (s.samples base l) 0) (s.permute base (2 ^ l)).complete := by
  refine .of_effect (DmemRun.permute s base ⟨l, rfl⟩) (State.writeEntries_draws _ _) fun i hi => ?_
  obtain ⟨z, hz, hstored⟩ := s.stored_permute (base := base) (bitrev_lt l i)
  rw [bitrev_bitrev hi] at hstored
  rw [hstored.entry? (hl i hi), blockVal_zero, State.samples, List.getD_eq_getElem?_getD, hz, Option.getD_some]

/-- Stage st + 1 on one pair of the region. -/
theorem HoldsRegion.stage_pair {inv : Bool} {x : Nat → Cplx} {st b k : Nat}
    (h : HoldsRegion s base l (blockVal s.params inv l x st) t) (hl : NoneLost s base l) (hst : st < l) (hp : l ≤ s.params.log2Nmax)
    (hb : b < 2 ^ (l - (st + 1))) (hk : k < 2 ^ st) :
    (t.stage inv base (2 ^ l) (st + 1)).entry? (base + (b * 2 ^ (st + 1) + k)) =
        some (blockVal s.params inv l x (st + 1) (b * 2 ^ (st + 1) + k)) ∧
      (t.stage inv base (2 ^ l) (st + 1)).entry? (base + (b * 2 ^ (st + 1) + k + 2 ^ st)) =
        some (blockVal s.params inv l x (st + 1) (b * 2 ^ (st + 1) + k + 2 ^ st)) := by
  have hpow : 2 ^ (st + 1) = 2 ^ st + 2 ^ st := by ring
  have hblock : b * 2 ^ (st + 1) + 2 ^ (st + 1) ≤ 2 ^ l := by
    rw [← Nat.succ_mul, ← Nat.sub_add_cancel (show st + 1 ≤ l from hst), pow_add 2 (l - (st + 1))]
    exact Nat.mul_le_mul_right _ hb
  have hx := h.entries (b * 2 ^ (st + 1) + k) (by omega)
  have hy := h.entries (b * 2 ^ (st + 1) + k + 2 ^ st) (by omega)
  have hstored := State.stored_stage_block inv (st := st + 1) (b := b) (k := k) (by omega) hst hb hk
    (by rwa [Nat.add_assoc]) (by rwa [Nat.add_assoc base, Nat.add_assoc base])
  obtain ⟨h1, h2⟩ := blockVal_succ s.params inv x (b := b) hst hk
  rw [mul_nmax_div (by omega), twAddr] at h1 h2
  rw [h.params, ← h1, ← h2, Nat.add_sub_cancel, Nat.add_assoc base, Nat.add_assoc base] at hstored
  have hlost := (h.known hl).noneLost
  exact ⟨hstored.1.entry? (hlost _ (by omega)), hstored.2.entry? (hlost _ (by omega))⟩

/-- Every index of the region is in one of the pairs of stage st + 1. -/
theorem forall_lt_of_pairs {st : Nat} {Q : Nat → Prop} (hst : st < l)
    (h : ∀ b < 2 ^ (l - (st + 1)), ∀ k < 2 ^ st, Q (b * 2 ^ (st + 1) + k) ∧ Q (b * 2 ^ (st + 1) + k + 2 ^ st)) :
    ∀ i < 2 ^ l, Q i := by
  intro i hi
  have hpow : 2 ^ (st + 1) = 2 ^ st + 2 ^ st := by ring
  have hb : i / 2 ^ (st + 1) < 2 ^ (l - (st + 1)) := by
    rwa [Nat.div_lt_iff_lt_mul (Nat.two_pow_pos _), ← pow_add, Nat.sub_add_cancel hst]
  have hdiv : i / 2 ^ (st + 1) * 2 ^ (st + 1) + i % 2 ^ (st + 1) = i := Nat.div_add_mod' i _
  have hmod : i % 2 ^ (st + 1) < 2 ^ (st + 1) := Nat.mod_lt _ (Nat.two_pow_pos _)
  obtain hk | hk := Nat.lt_or_ge (i % 2 ^ (st + 1)) (2 ^ st)
  · exact hdiv ▸ (h _ hb _ hk).1
  · have hsecond := (h _ hb (i % 2 ^ (st + 1) - 2 ^ st) (by omega)).2
    rwa [show i / 2 ^ (st + 1) * 2 ^ (st + 1) + (i % 2 ^ (st + 1) - 2 ^ st) + 2 ^ st = i by omega] at hsecond

theorem HoldsRegion.stage {inv : Bool} {x : Nat → Cplx} {st : Nat} (h : HoldsRegion s base l (blockVal s.params inv l x st) t)
    (hl : NoneLost s base l) (hst : st < l) (hp : l ≤ s.params.log2Nmax) :
    HoldsRegion s base l (blockVal s.params inv l x (st + 1)) (t.stage inv base (2 ^ l) (st + 1)).complete :=
  h.next (DmemRun.stage t inv base ⟨l, rfl⟩ ⟨by omega, by rwa [Nat.log2_two_pow]⟩) ((h.known hl).stage_draws inv (by omega) hst)
    (forall_lt_of_pairs hst fun _ hb _ hk => h.stage_pair hl hst hp hb hk)

theorem HoldsRegion.scale {y : Nat → Cplx} (h : HoldsRegion s base l y t) (hl : NoneLost s base l) :
    HoldsRegion s base l (fun i => cdivn (y i) (2 ^ l)) (t.scale base (2 ^ l)).complete := by
  have hknown := h.known hl
  exact h.next (DmemRun.scale t base (2 ^ l)) hknown.scale_draws fun i hi =>
    (State.stored_scale hi (h.entries i hi)).entry? (hknown.noneLost i hi)

/-- FFT leaves FFT_ref of the samples. -/
theorem holdsRegion_fft {inv : Bool} {z : Nat → Cplx} (hl : NoneLost s base l)
    (hz : ∀ i < 2 ^ l, (fftRef s.params inv (s.readRegion base (2 ^ l)).1)[i]? = some (z i)) :
    HoldsRegion s base l z (s.fft inv base (2 ^ l)).complete := by
  refine .of_effect (DmemRun.fft s inv base ⟨l, rfl⟩) (State.writeEntries_draws _ _) fun i hi => ?_
  obtain ⟨w, hw, hstored⟩ := s.stored_fft inv (base := base) hi
  rw [hstored.entry? (hl i hi), ← hw, hz i hi]

end

/-! The schedule (R90). -/

theorem runSeq_cons {i : Instr} {is : List Instr} {s t : State} (h : exec i s = .next t) : runSeq (i :: is) s = runSeq is t := by
  simp only [runSeq, h]

theorem runSeq_append {is js : List Instr} {s t : State} (h : runSeq is s = .next t) : runSeq (is ++ js) s = runSeq js t := by
  induction is generalizing s with
  | nil =>
    obtain rfl : s = t := by simpa [runSeq] using h
    rfl
  | cons i is ih =>
    cases hx : exec i s with
    | next u =>
      rw [runSeq_cons hx] at h
      rw [List.cons_append, runSeq_cons hx, ih h]
    | fault r => simp [runSeq, hx] at h
    | refused r => simp [runSeq, hx] at h

section

variable {s t : State} {base l : Nat}

/-- The stages 1 .. st on the permuted region. -/
theorem runSeq_stages {inv : Bool} {x : Nat → Cplx} (h : HoldsRegion s base l (blockVal s.params inv l x 0) t) (hl : NoneLost s base l)
    (hp : l ≤ s.params.log2Nmax) (hb : base + 2 ^ l ≤ s.params.dmemEntries) {st : Nat} (hst : st ≤ l) :
    ∃ u, runSeq ((List.range' 1 st).map fun k => Instr.stage inv base (2 ^ l) k) t = .next u ∧
      HoldsRegion s base l (blockVal s.params inv l x st) u := by
  induction st with
  | zero => exact ⟨t, rfl, h⟩
  | succ st ih =>
    obtain ⟨u, hu, hholds⟩ := ih (by omega)
    refine ⟨_, ?_, hholds.stage hl hst hp⟩
    rw [List.range'_1_concat, List.map_append, runSeq_append hu, List.map_singleton, Nat.add_comm 1]
    exact runSeq_cons (exec_stage inv (hholds.params ▸ hp) (hholds.params ▸ hb) (by omega) hst)

/-- What the last commands of the schedule leave, as a function of the index: SCALE's quotients when inverse. -/
def scaledIf (inv : Bool) (l : Nat) (y : Nat → Cplx) (i : Nat) : Cplx := if inv then cdivn (y i) (2 ^ l) else y i

theorem runSeq_scale_if (inv : Bool) {y : Nat → Cplx} (h : HoldsRegion s base l y t) (hl : NoneLost s base l)
    (hp : l ≤ s.params.log2Nmax) (hb : base + 2 ^ l ≤ s.params.dmemEntries) :
    ∃ u, runSeq (if inv then [.scale base (2 ^ l)] else []) t = .next u ∧ HoldsRegion s base l (scaledIf inv l y) u := by
  cases inv with
  | false => exact ⟨t, rfl, h⟩
  | true => exact ⟨_, runSeq_cons (exec_scale (h.params ▸ hp) (h.params ▸ hb)), h.scale hl⟩

end

/-- FFT_ref of the region, by index. -/
theorem fftRef_getElem? (s : State) (inv : Bool) (base : Nat) {l i : Nat} (hi : i < 2 ^ l) :
    (fftRef s.params inv (s.readRegion base (2 ^ l)).1)[i]? =
      some (scaledIf inv l (blockVal s.params inv l (s.samples base l) l) i) := by
  have hlast := blockVal_last s.params inv (s.samples base l) hi
  rw [fftRef_of_length _ _ (s.readRegion_length base (2 ^ l)), s.readRegion_eq_map_samples]
  cases inv with
  | false => exact hlast
  | true => simp only [if_true, List.getElem?_map, hlast, Option.map_some, scaledIf]

/-- Settles O27: after BITREV and the stages 1 .. st each block of 2^st entries holds the recursion's result for its residue class, so the
last stage leaves the transform; FFT leaves the same, and both leave the rest of DMEM. -/
theorem scheduleEqualsTransform : Obligations.ScheduleEqualsTransform := by
  intro s inv base l hp hb hl
  have hbitrev := holdsRegion_permute inv hl
  obtain ⟨u, hu, hstages⟩ := runSeq_stages hbitrev hl hp hb le_rfl
  obtain ⟨v, hv, hscaled⟩ := runSeq_scale_if inv hstages hl hp hb
  have hfft := holdsRegion_fft hl fun i hi => fftRef_getElem? s inv base hi
  refine ⟨_, v, exec_fft inv hp hb, ?_, fun i hi => ?_, hfft.unique hscaled⟩
  · rw [runSeq_cons (exec_bitrev hp hb), runSeq_append hu, hv]
  · rw [hscaled.entries i hi, fftRef_getElem? s inv base hi]

end Sys2Proof.Machine

/-! The family 42_vector.md: the pointwise complex product VCMUL (R99). -/

namespace Sys2Proof.Machine

open Sys2Proof

/-- One more element is multiplied after the others. -/
theorem State.vcmul_succ (s : State) (dst src n : Nat) :
    s.vcmul dst src (n + 1) = (s.vcmul dst src n).vcmulAt (dst + n) (src + n) := by
  simp only [State.vcmul, List.range_succ, List.foldl_append, List.foldl_cons, List.foldl_nil]

/-- An element of two specified entries is one write of their product, the destination's value first. -/
theorem State.vcmulAt_of_entry? {s : State} {d e : Nat} {z w : Cplx} (hd : s.entry? d = some z) (he : s.entry? e = some w) :
    s.vcmulAt d e = s.dwrite d (cmul z w) := by
  simp only [State.vcmulAt, State.dread_of_entry? hd, State.dread_of_entry? he]

/-- An entry outside the destination region keeps its value. -/
theorem State.entry?_vcmul_other (s : State) {dst n e : Nat} (src : Nat) (h : ¬ (dst ≤ e ∧ e < dst + n)) :
    (s.vcmul dst src n).entry? e = s.entry? e :=
  ((DmemRun.vcmul s dst src n).sameWords (Q := fun e => ¬ (dst ≤ e ∧ e < dst + n)) fun _ he => he).entry? h

/-- The second operand of element i by the time it is multiplied: the earlier product that source entry holds, where the regions overlap
so, and otherwise its first value. -/
def vcmulOperand (dst src : Nat) (b y : Nat → Cplx) (i : Nat) : Cplx :=
  if dst ≤ src + i ∧ src + i < dst + i then y (src + i - dst) else b i

/-- The state after the first n elements: the products y stand in the destination, and nothing was drawn. -/
structure MultipliedTo (s : State) (dst src : Nat) (y : Nat → Cplx) (n : Nat) : Prop where
  draws : (s.vcmul dst src n).draws = s.draws
  products : ∀ i < n, (s.vcmul dst src n).entry? (dst + i) = some (y i)

section

variable {s : State} {dst src n : Nat} {a b y : Nat → Cplx}

/-- What source entry n holds once the elements before it are multiplied. -/
theorem MultipliedTo.entry?_source (h : MultipliedTo s dst src y n) (hb : s.entry? (src + n) = some (b n)) :
    (s.vcmul dst src n).entry? (src + n) = some (vcmulOperand dst src b y n) := by
  unfold vcmulOperand
  split
  next hover =>
    have hy := h.products (src + n - dst) (by omega)
    rwa [Nat.add_sub_cancel' hover.1] at hy
  next hout => rw [State.entry?_vcmul_other s src hout, hb]

/-- Element n: both its entries are specified, so it draws nothing and stores its product, and the earlier products stay. -/
theorem MultipliedTo.succ (h : MultipliedTo s dst src y n) (hs : s.LostOk) (ha : s.entry? (dst + n) = some (a n))
    (hb : s.entry? (src + n) = some (b n)) (hy : y n = cmul (a n) (vcmulOperand dst src b y n)) :
    MultipliedTo s dst src y (n + 1) := by
  have hdst : (s.vcmul dst src n).entry? (dst + n) = some (a n) := (State.entry?_vcmul_other s src (by omega)).trans ha
  have hstep : s.vcmul dst src (n + 1) = (s.vcmul dst src n).dwrite (dst + n) (y n) := by
    rw [State.vcmul_succ, State.vcmulAt_of_entry? hdst (h.entry?_source hb), hy]
  constructor
  · rw [hstep, State.dwrite_draws, h.draws]
  · intro i hi
    rw [hstep]
    obtain hlt | rfl := Nat.lt_succ_iff_lt_or_eq.1 hi
    · rw [State.entry?_dwrite_other _ _ (by omega), h.products i hlt]
    · have hlost := (DmemRun.vcmul s dst src i).lostOk hs
      exact (State.stored_dwrite _ (dst + i) (y i)).entry? (State.not_lost_of_entry? hlost hdst)

end

/-- VCMUL over specified regions, by induction on the number of elements multiplied. -/
theorem multipliedTo_of_entries {s : State} {dst src count : Nat} {a b y : Nat → Cplx} (hs : s.LostOk)
    (ha : ∀ i < count, s.entry? (dst + i) = some (a i)) (hb : ∀ i < count, s.entry? (src + i) = some (b i))
    (hy : ∀ i < count, y i = cmul (a i) (vcmulOperand dst src b y i)) : MultipliedTo s dst src y count := by
  induction count with
  | zero => exact ⟨rfl, fun i hi => absurd hi (Nat.not_lt_zero i)⟩
  | succ n ih =>
    have hbefore : MultipliedTo s dst src y n :=
      ih (fun i hi => ha i (by omega)) (fun i hi => hb i (by omega)) (fun i hi => hy i (by omega))
    exact hbefore.succ hs (ha n (by omega)) (hb n (by omega)) (hy n (by omega))

theorem exec_vcmul {s : State} {dst src count : Nat} (hd : dst + count ≤ s.params.dmemEntries)
    (he : src + count ≤ s.params.dmemEntries) : exec (.vcmul dst src count) s = .next (s.vcmul dst src count).complete :=
  exec_of_check_none (vcmulCheck_eq_none.2 ⟨hd, he⟩)

/-- Settles O32: each element finds its destination entry as at the start, and its source entry as at the start or holding the product
an earlier element left there. -/
theorem vcmulMultipliesAscending : Obligations.VcmulMultipliesAscending := by
  intro s dst src count a b y hs hd he ha hb hy
  have hdone := multipliedTo_of_entries hs ha hb hy
  have honly := (OnlyDmem.vcmul s dst src count).complete_eq
  rw [State.complete_draws, hdone.draws] at honly
  exact ⟨_, exec_vcmul hd he, honly, hdone.products⟩

end Sys2Proof.Machine

/-! The family 43_ring_buffer.md: the rings by id (R107), the ring commands (R109-R111), taps and FIFO order (R104, R106). -/

namespace Sys2Proof.Machine

open Sys2Proof

/-! The rings by id (R107). -/

/-- Settles O33. -/
theorem ringIdsNameRings : Obligations.RingIdsNameRings :=
  ⟨ringOf_zero, fun s => ⟨ringOf_odd s, ringOf_even s⟩⟩

/-- An id up to 2·NSEC names a ring of a section that exists (R107, R108). -/
theorem section_lt_of_ringOf {id n k : Nat} (hid : id ≤ 2 * n) (h : ringOf id = .xh k ∨ ringOf id = .yh k) : k < n := by
  obtain hx | hy := h
  · have := ringOf_injective (hx.trans (ringOf_odd k).symm)
    omega
  · have := ringOf_injective (hy.trans (ringOf_even k).symm)
    omega

/-! The ring commands (R109-R111): each puts back one ring, and RBRD sets RBDATA besides. -/

/-- What completing changes besides, when the effect put back one ring. -/
theorem State.complete_setRing_eq (s : State) (n : RingName) (r : RingBuf) :
    (s.setRing n r).complete =
      { s with fir := (s.setRing n r).complete.fir, secs := (s.setRing n r).complete.secs, done := true, busy := false } := by
  cases n <;> rfl

/-- The ring of a legal id, put back and read again. -/
theorem State.ring_setRing_ringOf {s : State} {id : Nat} (hs : s.secs.length = s.params.nsec) (hid : id ≤ 2 * s.params.nsec)
    (r : RingBuf) : (s.setRing (ringOf id) r).ring (ringOf id) = r :=
  State.ring_setRing_same r fun _ hk => hs ▸ section_lt_of_ringOf hid hk

/-- The ring of another id is untouched. -/
theorem State.ring_setRing_ringOf_other (s : State) {id id' : Nat} (r : RingBuf) (h : id' ≠ id) :
    (s.setRing (ringOf id) r).ring (ringOf id') = s.ring (ringOf id') :=
  State.ring_setRing_other r fun he => h (ringOf_injective he)

/-- Settles O34: RBWR puts back the ring with XIN written. -/
theorem rbwrWritesTheRing : Obligations.RbwrWritesTheRing := by
  intro s id hs hid r
  exact ⟨_, exec_of_check_none (ringCheck_eq_none.2 hid), s.complete_setRing_eq _ _, State.ring_setRing_ringOf hs hid (r.write s.xin),
    fun _ hne => s.ring_setRing_ringOf_other (r.write s.xin) hne, s.coef_setRing _ _⟩

/-- Settles O35: RBRD puts back the ring with its read cursor advanced, and sets RBDATA to the value read. -/
theorem rbrdReadsTheRing : Obligations.RbrdReadsTheRing := by
  intro s id hs hid r
  have honly := congrArg (fun t : State => { t with rbdata := r.read.1 }) (s.complete_setRing_eq (ringOf id) r.read.2)
  exact ⟨_, exec_of_check_none (ringCheck_eq_none.2 hid), honly, rfl, State.ring_setRing_ringOf hs hid r.read.2,
    fun _ hne => s.ring_setRing_ringOf_other r.read.2 hne, s.coef_setRing _ _⟩

/-- Settles O36: RBCLR puts back the cleared ring of the same capacity. -/
theorem rbclrClearsTheRing : Obligations.RbclrClearsTheRing := by
  intro s id hs hid r
  exact ⟨_, exec_of_check_none (ringCheck_eq_none.2 hid), s.complete_setRing_eq _ _, State.ring_setRing_ringOf hs hid r.clear,
    fun _ hne => s.ring_setRing_ringOf_other r.clear hne, s.coef_setRing _ _⟩

/-! Several writes in turn (R102, R104). -/

@[simp] theorem RingBuf.foldl_write_length (r : RingBuf) (vs : List Word) :
    (vs.foldl RingBuf.write r).slots.length = r.slots.length := by
  induction vs generalizing r with
  | nil => rfl
  | cons v vs ih => exact (ih (r.write v)).trans (r.write_length v)

@[simp] theorem RingBuf.foldl_write_rc (r : RingBuf) (vs : List Word) : (vs.foldl RingBuf.write r).rc = r.rc := by
  induction vs generalizing r with
  | nil => rfl
  | cons v vs ih => exact ih (r.write v)

theorem RingBuf.foldl_write_wc {r : RingBuf} (vs : List Word) (h : r.wc < r.slots.length) :
    (vs.foldl RingBuf.write r).wc = (r.wc + vs.length) % r.slots.length := by
  induction vs using List.reverseRecOn with
  | nil => exact (Nat.mod_eq_of_lt h).symm
  | append_singleton vs v ih =>
    rw [List.foldl_append, List.foldl_cons, List.foldl_nil, RingBuf.write_wc, RingBuf.foldl_write_length, ih, Nat.mod_add_mod,
      List.length_append, List.length_singleton, Nat.add_assoc]

theorem RingBuf.foldl_write_wc_lt {r : RingBuf} (vs : List Word) (h : r.wc < r.slots.length) :
    (vs.foldl RingBuf.write r).wc < (vs.foldl RingBuf.write r).slots.length := by
  rw [RingBuf.foldl_write_wc vs h, RingBuf.foldl_write_length]
  exact Nat.mod_lt _ (by omega)

/-- Tap i after the writes `vs`: the i-th of them from the last, and behind all of them the taps the ring had. -/
theorem RingBuf.tap_foldl_write {r : RingBuf} {i : Nat} (vs : List Word) (h : r.wc < r.slots.length) (hi : i < r.slots.length) :
    (vs.foldl RingBuf.write r).tap i = vs.reverse[i]?.getD (r.tap (i - vs.length)) := by
  induction vs using List.reverseRecOn generalizing i with
  | nil => rfl
  | append_singleton vs v ih =>
    have hwc := RingBuf.foldl_write_wc_lt vs h
    rw [List.foldl_append, List.foldl_cons, List.foldl_nil, List.reverse_concat]
    cases i with
    | zero => exact RingBuf.tap_write_zero v hwc
    | succ i =>
      rw [RingBuf.tap_write_succ v hwc (by simpa using hi), ih (by omega), List.getElem?_cons_succ]
      simp

/-- Settles O38: a write is tap 0, and makes every older tap one older. -/
theorem tapIsRecentHistory : Obligations.TapIsRecentHistory := by
  constructor
  · intro r vs i hwc hi hlen
    rw [RingBuf.tap_foldl_write vs hwc hi, List.getElem?_reverse hlen, List.getElem?_eq_getElem (by omega)]
    rfl
  · intro cap vs i hi hlen
    have hcap : (RingBuf.cleared cap).wc < (RingBuf.cleared cap).slots.length := by
      rw [RingBuf.cleared_length]
      exact Nat.zero_lt_of_lt hi
    rw [RingBuf.tap_foldl_write vs hcap (by simpa using hi), List.getElem?_eq_none (by simpa using hlen)]
    exact RingBuf.tap_cleared cap _

/-! Several reads in turn (R103, R106). -/

/-- n reads leave the ring with its read cursor n slots on. -/
theorem readMany_snd {r : RingBuf} (n : Nat) (h : r.rc < r.slots.length) :
    (readMany n r).2 = { r with rc := (r.rc + n) % r.slots.length } := by
  induction n generalizing r with
  | zero => rw [Nat.add_zero, Nat.mod_eq_of_lt h]; rfl
  | succ n ih =>
    have hrc : r.read.2.rc < r.read.2.slots.length := Nat.mod_lt _ (Nat.zero_lt_of_lt h)
    refine (ih hrc).trans ?_
    show ({ r with rc := ((r.rc + 1) % r.slots.length + n) % r.slots.length } : RingBuf) = _
    rw [Nat.mod_add_mod, Nat.add_right_comm, Nat.add_assoc]

/-- n reads return the slots from the read cursor on, around the end if needed. -/
theorem readMany_fst {r : RingBuf} (n : Nat) (h : r.rc < r.slots.length) :
    (readMany n r).1 = (List.range n).map fun j => r.slots.getD ((r.rc + j) % r.slots.length) 0 := by
  induction n generalizing r with
  | zero => rfl
  | succ n ih =>
    have hrc : r.read.2.rc < r.read.2.slots.length := Nat.mod_lt _ (Nat.zero_lt_of_lt h)
    rw [List.range_succ_eq_map, List.map_cons, List.map_map, Nat.add_zero r.rc, Nat.mod_eq_of_lt h]
    refine congrArg (r.slots.getD r.rc 0 :: ·) ((ih hrc).trans (List.map_congr_left fun j _ => ?_))
    show r.slots.getD (((r.rc + 1) % r.slots.length + j) % r.slots.length) 0 = _
    rw [Nat.mod_add_mod, Nat.add_right_comm, Nat.add_assoc]
    rfl

/-- The slot j places after the write cursor holds the oldest tap but j (R104). -/
theorem RingBuf.tapSlot_from_oldest {r : RingBuf} {j : Nat} (h : r.wc < r.slots.length) (hj : j < r.slots.length) :
    r.tapSlot (r.slots.length - 1 - j) = (r.wc + j) % r.slots.length := by
  rw [RingBuf.tapSlot_eq h (by omega)]
  by_cases hwrap : r.wc + j < r.slots.length
  · rw [Nat.mod_eq_of_lt hwrap, if_neg (by omega)]
    omega
  · rw [Nat.mod_eq_sub_mod (by omega), Nat.mod_eq_of_lt (by omega), if_pos (by omega)]
    omega

/-- A full ring with equal cursors reads as its taps, oldest first. -/
theorem readMany_fst_eq_taps {r : RingBuf} (hc : r.wc = r.rc) (h : r.wc < r.slots.length) :
    (readMany r.slots.length r).1 = (List.range r.slots.length).map fun j => r.tap (r.slots.length - 1 - j) := by
  rw [readMany_fst _ (hc ▸ h), ← hc]
  refine List.map_congr_left fun j hj => ?_
  rw [RingBuf.tap, RingBuf.tapSlot_from_oldest h (List.mem_range.1 hj)]

/-- As many writes as slots bring the write cursor back (R106). -/
theorem RingBuf.foldl_write_wc_full {r : RingBuf} {vs : List Word} (hlen : r.slots.length = vs.length) (h : r.wc < r.slots.length) :
    (vs.foldl RingBuf.write r).wc = r.wc := by
  rw [RingBuf.foldl_write_wc vs h, ← hlen, Nat.add_mod_right, Nat.mod_eq_of_lt h]

/-- As many reads as slots bring the read cursor back, and change nothing else (R106). -/
theorem readMany_snd_full {r : RingBuf} (h : r.rc < r.slots.length) : (readMany r.slots.length r).2 = r := by
  rw [readMany_snd _ h, Nat.add_mod_right, Nat.mod_eq_of_lt h]

/-- Settles O37: after as many writes as slots the write cursor is back, so the reads go from the oldest tap to tap 0. -/
theorem ringIsFifo : Obligations.RingIsFifo := by
  intro r vs hlen hc hwc
  have hlenW : (vs.foldl RingBuf.write r).slots.length = vs.length := (r.foldl_write_length vs).trans hlen
  have hwcW := RingBuf.foldl_write_wc_full hlen hwc
  have hrcW := r.foldl_write_rc vs
  have heq : (vs.foldl RingBuf.write r).wc = (vs.foldl RingBuf.write r).rc := hwcW.trans (hc.trans hrcW.symm)
  have hlt := RingBuf.foldl_write_wc_lt vs hwc
  have htaps := readMany_fst_eq_taps heq hlt
  have hend := readMany_snd_full (heq ▸ hlt)
  rw [hlenW] at htaps hend
  refine ⟨?_, by rw [hend, hwcW], by rw [hend, hrcW]⟩
  rw [htaps]
  refine List.ext_getElem (by simp) fun j hj hj' => ?_
  rw [List.getElem_map, List.getElem_range, RingBuf.tap_foldl_write vs hwc (by omega), List.getElem?_reverse (by omega),
    show vs.length - 1 - (vs.length - 1 - j) = j by omega, List.getElem?_eq_getElem hj']
  rfl

end Sys2Proof.Machine

/-! The family 44_fir.md: the FIR filter (R112-R114). -/

namespace Sys2Proof.Machine

open Sys2Proof

/-! The weighted sum, tap by tap (R112). -/

@[simp] theorem firSum_zero (h : List Word) (r : RingBuf) (y0 : Word) : firSum h r 0 y0 = y0 := rfl

theorem firSum_succ (h : List Word) (r : RingBuf) (n : Nat) (y0 : Word) :
    firSum h r (n + 1) y0 = fadd (firSum h r n y0) (fmul (h.getD n 0) (r.tap n)) := by
  rw [firSum, List.range_succ, List.foldl_append]
  rfl

/-- A sequence that adds the products one at a time reaches the sum. -/
theorem firSum_eq_of_steps {h : List Word} {r : RingBuf} {n : Nat} {y : Nat → Word}
    (hy : ∀ i < n, y (i + 1) = fadd (y i) (fmul (h.getD i 0) (r.tap i))) : firSum h r n (y 0) = y n := by
  induction n with
  | zero => rfl
  | succ n ih => rw [firSum_succ, ih fun i hi => hy i (by omega), hy n (by omega)]

theorem exec_fir {s : State} {clr : Bool} (hpos : 1 ≤ s.ntaps.toNat) (hcap : s.ntaps.toNat ≤ s.params.firCap) :
    exec (.fir clr) s = .next (s.fir1 clr).complete :=
  exec_of_check_none (firCheck_eq_none.2 ⟨hpos, hcap⟩)

/-- Settles O39: the given sequence reaches the sum that FIR leaves in ACC. -/
theorem firAccumulatesTaps : Obligations.FirAccumulatesTaps := by
  intro s clr y hpos hcap r hy0 hy
  rw [exec_fir hpos hcap, ← firSum_eq_of_steps hy, hy0]
  rfl

/-! Sums and products with a zero (R66, R67, R69). -/

/-- The sign of an added zero shows in a sum of two -0.0 only (R66). -/
theorem fadd_zeroWord_right {x : Word} (neg : Bool) (hx : isNaN x = false) (hz : x ≠ 0x8000000000000000) :
    fadd x (zeroWord neg) = x := by
  have hzero := unpack_zeroWord neg
  cases h : unpack x with
  | nan => simp [isNaN, h] at hx
  | inf n => rw [fadd_inf_fin h hzero, eq_infWord h]
  | fin n m =>
    have hsame : addFin n m neg 0 = addFin n m false 0 := by
      cases n with
      | false => simp [addFin, signedMag]
      | true =>
        have hm : m ≠ 0 := fun h0 => hz (eq_zeroWord (h0 ▸ h))
        simp [addFin, signedMag, hm]
    rw [fadd_fin h hzero, hsame, ← fadd_fin (b := 0) h (unpack_zeroWord false), fadd_zero_right hx hz]

theorem fmul_zero_inf {x : Word} {n : Bool} (hx : unpack x = .inf n) : fmul 0 x = canonicalNaN := by
  rw [fmul_comm, fmul_inf_fin (b := 0) hx (unpack_zeroWord false), if_pos rfl]

/-! The sum when a product is a zero or a NaN (R113). -/

/-- A product that is NaN makes the sum NaN, whatever is added before and after it. -/
theorem firSum_eq_canonicalNaN {h : List Word} {r : RingBuf} {n i : Nat} (y0 : Word) (hi : i < n)
    (hprod : fmul (h.getD i 0) (r.tap i) = canonicalNaN) : firSum h r n y0 = canonicalNaN := by
  induction n with
  | zero => exact absurd hi (Nat.not_lt_zero i)
  | succ n ih =>
    rw [firSum_succ]
    obtain hlt | rfl := Nat.lt_succ_iff_lt_or_eq.1 hi
    · rw [ih hlt, fadd_nan_left _ unpack_canonicalNaN]
    · rw [hprod, fadd_nan_right _ unpack_canonicalNaN]

/-- Finite taps with coefficient +0.0 leave the sum of the k taps before them, unless it is NaN or -0.0. -/
theorem firSum_of_zero_coefficients {h : List Word} {r : RingBuf} {k n : Nat} {y0 v : Word} (hkn : k ≤ n)
    (hh : ∀ i, k ≤ i → i < n → h.getD i 0 = 0) (htap : ∀ i, k ≤ i → i < n → isFinite (r.tap i) = true)
    (hk : firSum h r k y0 = v) (hnan : isNaN v = false) (hneg : v ≠ 0x8000000000000000) : firSum h r n y0 = v := by
  induction n, hkn using Nat.le_induction with
  | base => exact hk
  | succ n hkn ih =>
    obtain ⟨neg, hprod⟩ := fmul_zero_of_isFinite (htap n hkn n.lt_succ_self)
    have hbefore := ih (fun i hi hlt => hh i hi (by omega)) (fun i hi hlt => htap i hi (by omega))
    rw [firSum_succ, hbefore, hh n hkn n.lt_succ_self, fmul_comm, hprod, fadd_zeroWord_right neg hnan hneg]

/-- The first tap alone, with coefficient 1.0 from +0.0. -/
theorem firSum_one {h : List Word} {r : RingBuf} (hh : h.getD 0 0 = 0x3FF0000000000000) (hnan : isNaN (r.tap 0) = false) :
    firSum h r 1 0 = fadd (r.tap 0) 0 := by
  rw [firSum_succ, firSum_zero, hh, fmul_one_left hnan, fadd_comm]

/-- Settles O40: the first product is XIN, which +0.0 passes unless it is -0.0; the products of the older taps are zeros or NaNs. -/
theorem firPassThrough : Obligations.FirPassThrough := by
  intro s hs hpos hcap hone hzero r
  obtain ⟨-, ⟨hlen, hwc, -⟩, -⟩ := hs
  have htap : r.tap 0 = s.xin := RingBuf.tap_write_zero s.xin (hlen ▸ hwc)
  refine ⟨_, exec_fir hpos hcap, fun hfin => ?_, fun hnan => ?_, fun i b hi hlt hinf => ?_⟩
  · constructor
    · intro hnan hneg
      have hfirst : firSum s.h r 1 0 = s.xin := by
        rw [firSum_one hone (htap ▸ hnan), htap, fadd_zero_right hnan hneg]
      exact firSum_of_zero_coefficients hpos hzero hfin hfirst hnan hneg
    · intro hx
      have hfirst : firSum s.h r 1 0 = 0 := by
        rw [firSum_one hone (by rw [htap, hx]; decide +kernel), htap, hx]
        exact fadd_zeroWord true false
      exact firSum_of_zero_coefficients hpos hzero hfin hfirst (by decide +kernel) (by decide)
  · refine firSum_eq_canonicalNaN _ hpos (fmul_nan_right _ ?_)
    rw [htap]
    exact isNaN_iff.1 hnan
  · refine firSum_eq_canonicalNaN _ hlt ?_
    rw [hzero i hi hlt, fmul_zero_inf hinf]

end Sys2Proof.Machine

/-! The family 45_iir.md: the biquad section (R115-R118). -/

namespace Sys2Proof.Machine

open Sys2Proof

theorem exec_iir {s : State} (clr : Bool) {k : Nat} (hk : k < s.params.nsec) : exec (.iir clr k) s = .next (s.iir1 clr k).complete :=
  exec_of_check_none (iirCheck_eq_none.2 hk)

/-- Settles O41: the effect of IIR is the five sums of BQ and the two pushes. -/
theorem iirRunsOneBiquad : Obligations.IirRunsOneBiquad := fun _ clr _ hk => exec_iir clr hk

/-! A sum that starts at +0.0 is never -0.0 (R66), so a zero added to it changes nothing. -/

/-- A magnitude of at least one unit does not round to a zero: one unit itself is nearer. -/
theorem roundMag_ne_negZero (neg : Bool) {num : Nat} (h : num ≠ 0) : roundMag neg num 1 ≠ 0x8000000000000000 := by
  intro hz
  have hm : unpack (roundMag neg num 1) = .fin true 0 := hz ▸ unpack_zeroWord true
  obtain rfl : neg = true := by
    obtain ⟨m, hf⟩ | hf := unpack_roundMag neg num 1 <;> simp_all
  have hunit : unpack 1 = .fin false 1 := by decide +kernel
  have hnear := (roundMag_nearest one_pos hm hunit).1
  unfold roundErr at hnear
  omega

/-- A sum is -0.0 only when both operands are (R66). -/
theorem fadd_ne_negZero {a : Word} (b : Word) (ha : a ≠ 0x8000000000000000) : fadd a b ≠ 0x8000000000000000 := by
  cases hb : unpack b with
  | nan => rw [fadd_nan_right a hb]; decide
  | inf n₂ =>
    cases h : unpack a with
    | nan => rw [fadd_nan_left b h]; decide
    | inf n₁ => rw [fadd_inf_inf h hb]; cases n₁ <;> cases n₂ <;> decide
    | fin n₁ m₁ => rw [fadd_comm, fadd_inf_fin hb h]; cases n₂ <;> decide
  | fin n₂ m₂ =>
    cases h : unpack a with
    | nan => rw [fadd_nan_left b h]; decide
    | inf n₁ => rw [fadd_inf_fin h hb]; cases n₁ <;> decide
    | fin n₁ m₁ =>
      by_cases hz : signedMag n₁ m₁ + signedMag n₂ m₂ = 0
      · rw [fadd_of_sum_eq_zero h hb hz]
        intro hneg
        obtain ⟨rfl, rfl⟩ : n₁ = true ∧ n₂ = true := by revert hneg; cases n₁ <;> cases n₂ <;> decide
        obtain rfl : m₁ = 0 := by simp only [signedMag, if_true] at hz; omega
        exact ha (eq_zeroWord h)
      · rw [fadd_of_sum_ne_zero h hb hz]
        exact roundMag_ne_negZero _ (Int.natAbs_ne_zero.2 hz)

theorem firSum_ne_negZero (h : List Word) (r : RingBuf) (n : Nat) : firSum h r n 0 ≠ 0x8000000000000000 := by
  induction n with
  | zero => rw [firSum_zero]; decide
  | succ n ih => exact firSum_succ h r n 0 ▸ fadd_ne_negZero _ ih

/-- Adding +0.0 times a finite value changes no word but -0.0 and the NaNs that are not canonical. -/
theorem fadd_zero_mul {x v : Word} (hnan : NaNCanonical x) (hneg : x ≠ 0x8000000000000000) (hv : isFinite v = true) :
    fadd x (fmul 0 v) = x := by
  obtain ⟨neg, hz⟩ := fmul_zero_of_isFinite hv
  rw [fmul_comm, hz]
  cases hx : isNaN x with
  | false => exact fadd_zeroWord_right neg hx hneg
  | true => rw [fadd_nan_left _ (isNaN_iff.1 hx), hnan hx]

/-! A section without feedback beside a FIR filter with three taps (R118). -/

/-- The newest values of two rings agree after both took the same one, if they agreed before (R104). -/
theorem RingBuf.tap_write_congr {r q : RingBuf} {n : Nat} (v : Word) (hr : r.wc < r.slots.length) (hq : q.wc < q.slots.length)
    (hnr : n ≤ r.slots.length) (hnq : n ≤ q.slots.length) (h : ∀ i < n, r.tap i = q.tap i) :
    ∀ i < n, (r.write v).tap i = (q.write v).tap i
  | 0, _ => by rw [RingBuf.tap_write_zero v hr, RingBuf.tap_write_zero v hq]
  | i + 1, hi => by rw [RingBuf.tap_write_succ v hr (by omega), RingBuf.tap_write_succ v hq (by omega), h i (by omega)]

/-- The section has no feedback, the coefficients and the input history of the filter `h` on the ring `r`, and finite past outputs. -/
structure FirLike (c : Section) (h : List Word) (r : RingBuf) : Prop where
  noFeedback : c.a0 = 0 ∧ c.a1 = 0
  coefs : h.getD 0 0 = c.b0 ∧ h.getD 1 0 = c.b1 ∧ h.getD 2 0 = c.b2
  sizes : c.Ok
  size : 3 ≤ r.slots.length
  cursor : r.wc < r.slots.length
  taps : ∀ i < 3, c.xh.tap i = r.tap i
  finite : ∀ i < 2, isFinite (c.yh.tap i) = true

section

variable {c : Section} {h : List Word} {r : RingBuf} (x : Word)

theorem FirLike.taps_write (hc : FirLike c h r) : ∀ i < 3, (c.xh.write x).tap i = (r.write x).tap i := by
  obtain ⟨⟨hlen, hwc, -⟩, -⟩ := hc.sizes
  exact RingBuf.tap_write_congr x (hlen ▸ hwc) hc.cursor hlen.ge hc.size hc.taps

/-- The feed-forward sums are the filter's, and the feedback products are zeros that do not change the sum. -/
theorem FirLike.biquad_fst (hc : FirLike c h r) : (biquad c x 0).1 = firSum h (r.write x) 3 0 := by
  obtain ⟨ha0, ha1⟩ := hc.noFeedback
  obtain ⟨hb0, hb1, hb2⟩ := hc.coefs
  have hneg := firSum_ne_negZero h (r.write x) 3
  have hnan : NaNCanonical (firSum h (r.write x) 3 0) := firSum_succ h (r.write x) 2 0 ▸ naNCanonical_fadd _ _
  have hforward : fadd (fadd (fadd 0 (fmul c.b0 ((c.xh.write x).tap 0))) (fmul c.b1 ((c.xh.write x).tap 1)))
      (fmul c.b2 ((c.xh.write x).tap 2)) = firSum h (r.write x) 3 0 := by
    rw [hc.taps_write x 0 (by omega), hc.taps_write x 1 (by omega), hc.taps_write x 2 (by omega), ← hb0, ← hb1, ← hb2]
    rfl
  simp only [biquad, biquadSum]
  rw [hforward, ha0, ha1, fadd_zero_mul hnan hneg (hc.finite 0 (by omega)), fadd_zero_mul hnan hneg (hc.finite 1 (by omega))]

/-- A finite output leaves the section and the filter alike for the next sample. -/
theorem FirLike.next (hc : FirLike c h r) (hy : isFinite (biquad c x 0).1 = true) : FirLike (biquad c x 0).2 h (r.write x) where
  noFeedback := hc.noFeedback
  coefs := hc.coefs
  sizes := Section.ok_biquad hc.sizes x 0
  size := r.write_length x ▸ hc.size
  cursor := by
    rw [RingBuf.write_wc, RingBuf.write_length]
    exact Nat.mod_lt _ (Nat.zero_lt_of_lt hc.cursor)
  taps := hc.taps_write x
  finite := by
    obtain ⟨-, hlen, hwc, -⟩ := hc.sizes
    intro i hi
    cases i with
    | zero => exact (RingBuf.tap_write_zero _ (hlen ▸ hwc)).symm ▸ hy
    | succ i => exact (RingBuf.tap_write_succ _ (hlen ▸ hwc) (hlen ▸ hi)).symm ▸ hc.finite i (by omega)

end

/-! Streams of samples. -/

theorem stream_cons {i : Instr} {s t : State} {x : Word} (xs : List Word) (h : exec i { s with xin := x } = .next t) :
    stream i (x :: xs) s = t.acc :: stream i xs t := by
  rw [stream, h]

theorem stream_iir_cons {s : State} {k : Nat} (x : Word) (xs : List Word) (hk : k < s.params.nsec) :
    stream (.iir true k) (x :: xs) s =
      (biquad (s.sec k) x 0).1 :: stream (.iir true k) xs (State.iir1 { s with xin := x } true k).complete :=
  stream_cons (x := x) xs (exec_iir true hk)

theorem stream_iir_ne_nil {s : State} {k : Nat} (x : Word) (xs : List Word) (hk : k < s.params.nsec) :
    stream (.iir true k) (x :: xs) s ≠ [] := by
  rw [stream_iir_cons x xs hk]
  exact List.cons_ne_nil _ _

/-- The section that a sample leaves behind. -/
theorem State.sec_iir1 {s : State} {k : Nat} (x : Word) (hk : k < s.secs.length) :
    (State.iir1 { s with xin := x } true k).complete.sec k = (biquad (s.sec k) x 0).2 :=
  (State.sec_set s k k _).trans (if_pos ⟨rfl, hk⟩)

theorem stream_fir_cons {s : State} (x : Word) (xs : List Word) (hn : s.ntaps = 3) (hcap : 3 ≤ s.params.firCap) :
    stream (.fir true) (x :: xs) s =
      firSum s.h (s.fir.write x) 3 0 :: stream (.fir true) xs (State.fir1 { s with xin := x } true).complete := by
  have hlen : s.ntaps.toNat = 3 := congrArg BitVec.toNat hn
  rw [stream_cons xs (exec_fir (s := { s with xin := x }) (by simp [hlen]) (by simpa [hlen] using hcap)), State.complete_acc, ← hlen]
  rfl

/-- A section like the filter gives its outputs, from any two states that hold the two. -/
theorem stream_iir_eq_stream_fir {s t : State} {k : Nat} (xs : List Word) (hk : k < s.params.nsec)
    (hsecs : s.secs.length = s.params.nsec) (hn : t.ntaps = 3) (hcap : 3 ≤ t.params.firCap) (hc : FirLike (s.sec k) t.h t.fir)
    (hfin : ∀ y ∈ (stream (.iir true k) xs s).dropLast, isFinite y = true) :
    stream (.iir true k) xs s = stream (.fir true) xs t := by
  induction xs generalizing s t with
  | nil => rfl
  | cons x xs ih =>
    rw [stream_iir_cons x xs hk] at hfin ⊢
    rw [stream_fir_cons x xs hn hcap, hc.biquad_fst x]
    refine congrArg (_ :: ·) ?_
    cases xs with
    | nil => rfl
    | cons x' xs =>
      have hk' : k < (State.iir1 { s with xin := x } true k).complete.params.nsec := hk
      rw [List.dropLast_cons_of_ne_nil (stream_iir_ne_nil x' xs hk'), List.forall_mem_cons] at hfin
      obtain ⟨hy, hrest⟩ := hfin
      have hnext := State.sec_iir1 x (hsecs ▸ hk) ▸ hc.next x hy
      exact ih hk' (List.length_set.trans hsecs) hn hcap hnext hrest

/-- Settles O42: from cleared rings the section is like the filter, and stays so while its outputs are finite. -/
theorem iirWithoutFeedbackIsFir : Obligations.IirWithoutFeedbackIsFir := by
  intro s k xs hs hk hcap ha0 ha1 hxh hyh hfir hn hb0 hb1 hb2 hfin
  obtain ⟨-, ⟨hlen, hwc, -⟩, hsecs, hok⟩ := hs
  refine stream_iir_eq_stream_fir xs hk hsecs hn hcap ?_ hfin
  exact {
    noFeedback := ⟨ha0, ha1⟩
    coefs := ⟨hb0, hb1, hb2⟩
    sizes := Section.ok_getD hok k
    size := hlen ▸ hcap
    cursor := hlen ▸ hwc
    taps := fun i _ => by rw [hxh, hfir, RingBuf.tap_cleared, RingBuf.tap_cleared]
    finite := fun i _ => by rw [hyh, RingBuf.tap_cleared]; decide }

end Sys2Proof.Machine

/-! The family 46_sos.md: the cascade of sections (R119-R121). -/

namespace Sys2Proof.Machine

open Sys2Proof

/-! The loop of R119, section by section. -/

theorem cascade_append (ks ls : List Nat) (v : Word) (secs : List Section) :
    cascade (ks ++ ls) v secs = cascade ls (cascade ks v secs).1 (cascade ks v secs).2 := by
  induction ks generalizing v secs with
  | nil => rfl
  | cons k ks ih => exact ih _ _

/-- The loop changes only the sections it runs. -/
theorem cascade_getD_of_not_mem {ks : List Nat} {k : Nat} (v : Word) (secs : List Section) (hk : k ∉ ks) :
    (cascade ks v secs).2.getD k Section.cleared = secs.getD k Section.cleared := by
  induction ks generalizing v secs with
  | nil => rfl
  | cons j ks ih =>
    obtain ⟨hj, hks⟩ := not_or.1 (List.mem_cons.not.1 hk)
    refine (ih _ _ hks).trans ?_
    rw [getD_set, if_neg fun h => hj h.1]

theorem not_mem_range' {first count k : Nat} (h : k < first ∨ first + count ≤ k) : k ∉ List.range' first count := by
  rw [List.mem_range'_1]
  omega

/-- One more section: it runs as it stood before the loop, on the loop's value. -/
theorem cascade_range'_succ (first n : Nat) (v : Word) (secs : List Section) :
    let r := cascade (List.range' first n) v secs
    let c := secs.getD (first + n) Section.cleared
    cascade (List.range' first (n + 1)) v secs =
      (fmul (biquad c r.1 0).1 c.g, r.2.set (first + n) (biquad c r.1 0).2) := by
  rw [List.range'_1_concat, cascade_append]
  simp only [cascade, cascade_getD_of_not_mem v secs (not_mem_range' (.inr le_rfl))]
  rfl

section

variable {secs : List Section} {first count : Nat} {v : Nat → Word}
  (hv : ∀ j < count, v (j + 1) =
    fmul (biquad (secs.getD (first + j) Section.cleared) (v j) 0).1 (secs.getD (first + j) Section.cleared).g)

include hv

/-- The values the loop passes on, from the input of the first section to the last scaled output. -/
theorem cascade_range'_fst {n : Nat} (hn : n ≤ count) : (cascade (List.range' first n) (v 0) secs).1 = v n := by
  induction n with
  | zero => rfl
  | succ n ih => rw [cascade_range'_succ, ih (by omega), hv n hn]

/-- Each section the loop ran holds what BQ leaves of it on the value passed to it. -/
theorem cascade_range'_getD (hlen : first + count ≤ secs.length) {n j : Nat} (hn : n ≤ count) (hj : j < n) :
    (cascade (List.range' first n) (v 0) secs).2.getD (first + j) Section.cleared =
      (biquad (secs.getD (first + j) Section.cleared) (v j) 0).2 := by
  induction n with
  | zero => exact absurd hj j.not_lt_zero
  | succ n ih =>
    rw [cascade_range'_succ, cascade_range'_fst hv (by omega), getD_set, cascade_length]
    obtain hlt | rfl := Nat.lt_succ_iff_lt_or_eq.1 hj
    · rw [if_neg (by omega), ih (by omega) hlt]
    · rw [if_pos ⟨rfl, by omega⟩]

end

theorem exec_sos {s : State} {first count : Nat} (hpos : 1 ≤ count) (hle : first + count ≤ s.params.nsec) :
    exec (.sos first count) s = .next (s.sos1 first count).complete :=
  exec_of_check_none (sosCheck_eq_none.2 ⟨hpos, hle⟩)

/-- Settles O43: the given sequence is what the loop passes on, and the loop leaves each section BQ of it. -/
theorem sosCascadesSections : Obligations.SosCascadesSections := by
  intro s first count v hsecs hpos hle hv0 hv
  have hacc : (s.sos1 first count).acc = v count := by
    rw [← cascade_range'_fst hv le_rfl, hv0]
    rfl
  refine ⟨_, exec_sos hpos hle, rfl, hacc, fun j hj => ?_, fun k hk => ?_⟩
  · have hsec := cascade_range'_getD hv (hsecs ▸ hle) le_rfl hj
    rwa [hv0] at hsec
  · exact cascade_getD_of_not_mem _ _ (not_mem_range' hk)

/-! The host's loop (R121). -/

/-- One round of the host's loop: IIR.C, then the output times the gain in XIN. -/
theorem hostCascade_cons {s : State} {k : Nat} (ks : List Nat) (hk : k < s.params.nsec) :
    hostCascade (k :: ks) s =
      hostCascade ks { (s.iir1 true k).complete with xin := fmul (s.iir1 true k).acc (s.sec k).g } := by
  have hgain : ((s.iir1 true k).complete.sec k).g = (s.sec k).g :=
    coef_getD_set (Section.coef_biquad _ _ _) k .g
  simp only [hostCascade, exec_iir true hk, hgain]
  rfl

/-- The host's loop leaves the cascade's last value in XIN and ACC, and the cascade's sections. -/
theorem hostCascade_eq {s : State} {k : Nat} {ks : List Nat} (hks : ∀ j ∈ k :: ks, j < s.params.nsec) :
    let r := cascade (k :: ks) s.xin s.secs
    hostCascade (k :: ks) s = .next { s with acc := r.1, xin := r.1, secs := r.2, done := true, busy := false } := by
  obtain ⟨hk, hrest⟩ := List.forall_mem_cons.1 hks
  induction ks generalizing s k with
  | nil => exact hostCascade_cons [] hk
  | cons k' ks ih =>
    obtain ⟨hk', hrest'⟩ := List.forall_mem_cons.1 hrest
    rw [hostCascade_cons (k' :: ks) hk]
    exact ih hrest hk' hrest'

/-- Settles O44: both leave the cascade over the same sections from XIN. -/
theorem sosEqualsHostSequence : Obligations.SosEqualsHostSequence := by
  intro s first count _ hpos hle
  obtain ⟨n, rfl⟩ := Nat.exists_eq_add_of_le' hpos
  have hks : ∀ j ∈ List.range' first (n + 1), j < s.params.nsec := fun j hj => by
    rw [List.mem_range'_1] at hj
    omega
  exact ⟨_, _, exec_sos hpos hle, hostCascade_eq hks, rfl, rfl⟩

/-! A section with one coefficient (R120). -/

theorem RingBuf.tap_isFinite {r : RingBuf} (h : ∀ v ∈ r.slots, isFinite v = true) (i : Nat) : isFinite (r.tap i) = true := by
  unfold RingBuf.tap
  rw [List.getD_eq_getElem?_getD]
  cases hget : r.slots[r.tapSlot i]? with
  | none => decide
  | some v => exact h v (List.mem_of_getElem? hget)

/-- Finite histories with coefficient +0.0 leave the product with the input, from +0.0. -/
theorem biquad_fst_of_input_only {c : Section} (x : Word) (hc : c.Ok) (hb1 : c.b1 = 0) (hb2 : c.b2 = 0) (ha0 : c.a0 = 0)
    (ha1 : c.a1 = 0) (hxh : ∀ v ∈ c.xh.slots, isFinite v = true) (hyh : ∀ v ∈ c.yh.slots, isFinite v = true) :
    (biquad c x 0).1 = fadd 0 (fmul c.b0 x) := by
  obtain ⟨⟨hlen, hwc, -⟩, -⟩ := hc
  have hcur := hlen ▸ hwc
  have hnan : NaNCanonical (fadd 0 (fmul c.b0 x)) := naNCanonical_fadd _ _
  have hneg : fadd 0 (fmul c.b0 x) ≠ 0x8000000000000000 := fadd_ne_negZero _ (by decide)
  simp only [biquad, biquadSum]
  rw [RingBuf.tap_write_zero x hcur, RingBuf.tap_write_succ x hcur (by omega), RingBuf.tap_write_succ x hcur (by omega),
    hb1, hb2, ha0, ha1, fadd_zero_mul hnan hneg (RingBuf.tap_isFinite hxh 0), fadd_zero_mul hnan hneg (RingBuf.tap_isFinite hxh 1),
    fadd_zero_mul hnan hneg (RingBuf.tap_isFinite hyh 0), fadd_zero_mul hnan hneg (RingBuf.tap_isFinite hyh 1)]

/-- Settles O45: the section leaves +0.0 plus XIN, which the gain 1.0 passes. -/
theorem sosIdentitySection : Obligations.SosIdentitySection := by
  intro s k hs hk c hb0 hb1 hb2 ha0 ha1 hg hxh hyh
  obtain ⟨-, -, -, hok⟩ := hs
  have hout : (biquad c s.xin 0).1 = fadd 0 (fmul c.b0 s.xin) :=
    biquad_fst_of_input_only s.xin (Section.ok_getD hok k) hb1 hb2 ha0 ha1 hxh hyh
  have hacc : (s.sos1 k 1).acc = fmul (fadd 0 (fmul 0x3FF0000000000000 s.xin)) 0x3FF0000000000000 := by
    calc (s.sos1 k 1).acc = fmul (biquad c s.xin 0).1 c.g := rfl
      _ = _ := by rw [hout, hb0, hg]
  refine ⟨_, exec_sos le_rfl hk, ?_⟩
  rw [State.complete_acc, hacc]
  refine ⟨fun hnan hneg => ?_, fun hx => ?_, fun hnan => ?_⟩
  · rw [fmul_one_left hnan, fadd_comm, fadd_zero_right hnan hneg, fmul_comm, fmul_one_left hnan]
  · rw [hx]
    decide +kernel
  · rw [fmul_nan_right _ (isNaN_iff.1 hnan), fadd_nan_right _ unpack_canonicalNaN, fmul_nan_left _ unpack_canonicalNaN]

end Sys2Proof.Machine

/-! The family 47_control.md: the engine's step and its end (R122-R126), and the host's accesses (R124, R127, R128). -/

namespace Sys2Proof.Machine

open Sys2Proof

/-! The engine's turn (47_control.md R125). -/

/-- Out of reset with no turn lined up the step is the engine's (log entry 2). -/
theorem step_of_no_turn {s : State} (hr : s.rstN = true) (ha : s.agenda = []) :
    step s = engineTurn { s with agenda := [], resp := none } := by
  simp only [step, turn, hr, if_true, nextTurn, ha]

theorem engineTurn_of_command {s : State} {i : Instr} (hb : s.busy = true) (h : decode s.cmd = .command i) :
    engineTurn s = exec i s := by
  simp only [engineTurn, hb, if_true, engineStep, h]

/-- Settles O5: the step is the engine's turn, which runs the decoded command. -/
theorem stepExecutesPendingCommand : Obligations.StepExecutesPendingCommand := by
  intro s i ts hr hb hi ha
  have hturn := engineTurn_of_command (s := { s with agenda := ts, resp := none }) hb hi
  obtain ha | ⟨ha, rfl⟩ := ha
  · rw [step_of_engine hr ha, hturn]
  · rw [step_of_no_turn hr ha, hturn]

/-- Settles O18: the word is `encode .nop`, and NOP has no effect to complete after. -/
theorem nopOnlyCompletes : Obligations.NopOnlyCompletes := by
  refine ⟨fun w => ⟨fun h => ?_, fun h => ?_⟩, fun s => rfl⟩
  · obtain ⟨-, hw⟩ := encodeOfDecode w .nop h
    rw [← hw]
    decide
  · obtain ⟨hzero, -⟩ := workedEncodingsDecode
    rw [h]
    exact hzero

/-! A command no cause holds for (60_exceptions.md R134, R138, R139). -/

/-- The first error of a list of checks is one of them. -/
theorem firstErr_mem {cs : List (Option ErrCode)} {c : ErrCode} (h : firstErr cs = some c) : some c ∈ cs := by
  simpa [firstErr] using List.exists_of_findSome?_eq_some h

@[simp] theorem errIf_eq_some {b : Bool} {c e : ErrCode} : errIf b e = some c ↔ c = e ∧ b = true := by
  cases b <;> simp [errIf, eq_comm]

theorem lenCheck_eq_some {p : Params} {n : Nat} {c : ErrCode} : lenCheck p n = some c ↔ LenCause p n c := by
  unfold lenCheck LenCause
  rw [← isPow2_iff]
  by_cases hpow : isPow2 n = true
  · by_cases hlong : p.nmax < n <;> simp [hpow, hlong, eq_comm]
  · simp [hpow, eq_comm]

theorem addrCheck_eq_some {p : Params} {base n : Nat} {c : ErrCode} : addrCheck p base n = some c ↔ AddrCause p base n c := by
  simp [addrCheck, AddrCause]

/-- A check fails only for a cause of its error (R134). -/
theorem causeOf_of_checkOf {p : Params} {taps : Nat} {i : Instr} {c : ErrCode} (h : checkOf p taps i = some c) :
    CauseOf p taps i c := by
  cases i with
  | nop => cases h
  | fft _ base n | bitrev base n | scale base n | stage _ base n st =>
    simpa [CauseOf, eq_comm (a := some c), lenCheck_eq_some, addrCheck_eq_some] using firstErr_mem h
  | bfly _ e o t => simpa [CauseOf, eq_comm (a := some c)] using firstErr_mem h
  | vcmul dst src count => simpa [CauseOf, eq_comm (a := some c), addrCheck_eq_some] using firstErr_mem h
  | fir _ => simpa [CauseOf, checkOf, firCheck] using h
  | iir _ sec => simpa [CauseOf, checkOf, iirCheck] using h
  | sos first count => simpa [CauseOf, eq_comm (a := some c)] using firstErr_mem h
  | rbwr id | rbrd id | rbclr id => simpa [CauseOf, checkOf, ringCheck] using h

theorem checkOf_eq_none {p : Params} {taps : Nat} {i : Instr} (h : ∀ c, ¬ CauseOf p taps i c) : checkOf p taps i = none :=
  Option.eq_none_iff_forall_ne_some.2 fun c hc => h c (causeOf_of_checkOf hc)

/-- Settles O13: the checks pass, and the effect leaves the error record (`effectOf_keepsConfig`). -/
theorem commandWithoutCauseCompletes : Obligations.CommandWithoutCauseCompletes := by
  intro i s h
  have hk := effectOf_keepsConfig i s
  exact ⟨_, exec_of_check_none (checkOf_eq_none h), rfl, rfl, hk.err, hk.eovf, hk.errCode, hk.errInfo⟩

/-! The word at a location (47_control.md R127). -/

/-- A read of a DMEM word: its value, or one draw. -/
theorem State.readDmem_eq (s : State) (a : Nat) :
    s.readDmem a = ((Memory.readWord s.dmem a).getD (Config.freeWord s.draws),
      { s with draws := s.draws + if Memory.readWord s.dmem a = none then 1 else 0 }) := by
  cases hw : Memory.readWord s.dmem a with
  | some v => rw [State.readDmem_of_some hw]; rfl
  | none => rw [State.readDmem_of_none hw]; rfl

theorem State.readLoc_dmem (s : State) (e : Nat) (im : Bool) :
    s.readLoc (.dmem e im) = ((Memory.readWord s.dmem (dmemAddr e im)).getD (Config.freeWord s.draws),
      { s with draws := s.draws + if Memory.readWord s.dmem (dmemAddr e im) = none then 1 else 0 }) := s.readDmem_eq _

/-- Reading a location changes the count of draws at most. -/
theorem State.readLoc_snd (s : State) (l : Loc) : (s.readLoc l).2 = { s with draws := (s.readLoc l).2.draws } := by
  cases l with
  | dmem e im => rw [State.readLoc_dmem]
  | _ => rfl

/-- The turns lined up and the response are no part of what a location reads. -/
theorem State.readLoc_agenda_resp (s : State) (l : Loc) (ts : List Turn) (r : Option Response) :
    (State.readLoc { s with agenda := ts, resp := r } l).1 = (s.readLoc l).1 ∧
      (State.readLoc { s with agenda := ts, resp := r } l).2.draws = (s.readLoc l).2.draws := by
  cases l with
  | dmem e im => simp only [State.readLoc_dmem, and_self]
  | _ => exact ⟨rfl, rfl⟩

/-- Settles O15: a location that is not VOLATILE shows the configuration, which no command writes (`commandsWriteOnlyTheirState`). -/
theorem commandsChangeOnlyVolatileLocations : Obligations.CommandsChangeOnlyVolatileLocations := by
  intro i s t l h hvol hstatus hcode hinfo
  obtain ⟨hparams, hdoneIe, herrIe, hcmd, hxin, hntaps, hh, -, -, -, -, -, hcoef, -⟩ := commandsWriteOnlyTheirState i s t h
  cases l with
  | id => rfl
  | param => simp only [State.readLoc, hparams]
  | ctrl => simp only [State.readLoc, State.ctrlWord, hdoneIe, herrIe]
  | cmd => exact hcmd
  | xin => exact hxin
  | firCfg => simp only [State.readLoc, hntaps]
  | h i => simp only [State.readLoc, hh]
  | coef k c => exact hcoef k c
  | rom j im => simp only [State.readLoc, hparams]
  | status => exact absurd rfl hstatus
  | errCode => exact absurd rfl hcode
  | errInfo => exact absurd rfl hinfo
  | acc | rbdata | firCur | firSlot _ | xhSlot _ _ | yhSlot _ _ | secCur _ | dmem _ _ => cases hvol

/-! A pending command ends (47_control.md R123). -/

/-- `t` has the pin and the coming turns of `s`, as the effect of an access leaves them. -/
def SameTurns (s t : State) : Prop := t.rstN = s.rstN ∧ t.agenda = s.agenda

theorem SameTurns.record (s : State) (c : ErrCode) (i : Word) : SameTurns s (s.record c i) :=
  ⟨s.record_rstN c i, s.record_agenda c i⟩

theorem SameTurns.hostRead (s : State) (a : Addr) : SameTurns s (s.hostRead a) := by
  unfold State.hostRead
  split
  · exact ⟨rfl, rfl⟩
  next l _ =>
    dsimp only
    split
    · exact ⟨rfl, rfl⟩
    · rw [State.readLoc_snd]
      exact ⟨rfl, rfl⟩

theorem SameTurns.writeLoc (s : State) (a : Addr) (l : Loc) (v : Word) : SameTurns s (s.writeLoc a l v) := by
  obtain ⟨-, h⟩ | ⟨-, h⟩ | ⟨-, h⟩ | ⟨-, -, -, h⟩ := writeLoc_cases s a l v
  · rw [h, State.issue]
    split
    · exact .record s _ v
    · exact ⟨rfl, rfl⟩
  · rw [h, State.writeCtrl]
    split <;> exact ⟨rfl, rfl⟩
  · rw [h]
    exact ⟨rfl, rfl⟩
  · rw [h]
    split
    · exact .record s _ _
    · cases l <;> exact ⟨rfl, rfl⟩

theorem SameTurns.hostAccess (s : State) (r : Request) : SameTurns s (s.hostAccess r) := by
  cases r with
  | read a => exact .hostRead s a
  | write a v =>
    obtain ⟨h, -⟩ | ⟨l, -, -, h⟩ := hostWrite_cases s a v
    · rw [State.hostAccess, h]
      exact ⟨rfl, rfl⟩
    · rw [State.hostAccess, h]
      exact SameTurns.writeLoc s a l v

/-- Raised or completed, a command clears BUSY (R125). -/
theorem exec_clears_busy (i : Instr) (s : State) : ∃ t, exec i s = .next t ∧ t.busy = false := by
  rw [exec_eq]
  cases checkOf s.params s.ntaps.toNat i with
  | some e => exact ⟨_, rfl, s.raiseErr_busy e⟩
  | none => exact ⟨_, rfl, rfl⟩

/-- The engine's turn ends the pending word, a command's or not (R125). -/
theorem engineTurn_clears_busy {s : State} (hb : s.busy = true) : ∃ t, engineTurn s = .next t ∧ t.busy = false := by
  cases hd : decode s.cmd with
  | command i => rw [engineTurn_of_command hb hd]; exact exec_clears_busy i s
  | illegal y => exact ⟨_, engineTurn_of_illegal hb hd, s.raiseErr_busy _⟩

/-- A turn lined up ends the pending command, or leaves the block out of reset with the turns behind it. -/
theorem step_of_turn {s : State} {u : Turn} {us : List Turn} (hr : s.rstN = true) (hb : s.busy = true) (ha : s.agenda = u :: us) :
    ∃ t, step s = .next t ∧ (t.busy = false ∨ t.rstN = true ∧ t.agenda = us) := by
  cases u with
  | engine =>
    obtain ⟨t, ht, hidle⟩ := engineTurn_clears_busy (s := { s with agenda := us, resp := none }) hb
    exact ⟨t, (step_of_engine hr ha).trans ht, .inl hidle⟩
  | host r =>
    obtain ⟨hrst, hagenda⟩ := SameTurns.hostAccess { s with agenda := us, resp := none } r
    exact ⟨_, step_of_host hr ha, .inr ⟨hrst.trans hr, hagenda⟩⟩
  | rstEdge level =>
    refine ⟨State.clockEdge { s with agenda := us, resp := none } level, ?_, ?_⟩
    · simp only [step, turn, hr, if_true, nextTurn, ha, takeTurn]
    · cases level
      · exact .inl rfl
      · exact .inr ⟨rfl, rfl⟩

theorem run_succ {s t : State} (k : Nat) (h : step s = .next t) : Host.Core.run core (k + 1) s = Host.Core.run core k t := by
  have hcore : core.step s = .next t := h
  simp only [Host.Core.run, hcore]

/-- Settles O11, by induction on the turns lined up: each ends the command or is one fewer before the engine's. -/
theorem pendingCommandEnds : Obligations.PendingCommandEnds := by
  intro s hr hb
  induction hagenda : s.agenda generalizing s with
  | nil =>
    obtain ⟨t, ht, hidle⟩ := engineTurn_clears_busy (s := { s with agenda := [], resp := none }) hb
    exact ⟨1, t, le_rfl, run_succ 0 ((step_of_no_turn hr hagenda).trans ht), hidle⟩
  | cons u us ih =>
    obtain ⟨t, ht, hcase⟩ := step_of_turn hr hb hagenda
    cases hbusy : t.busy with
    | false => exact ⟨1, t, by simp, run_succ 0 ht, hbusy⟩
    | true =>
      obtain ⟨hrst, hus⟩ := hcase.resolve_left (by simp [hbusy])
      obtain ⟨k, t', hk, hrun, hidle⟩ := ih t hrst hbusy hus
      exact ⟨k + 1, t', Nat.succ_le_succ hk, (run_succ k ht).trans hrun, hidle⟩

/-! The host's writes to CMD and to data locations (47_control.md R124, R128). -/

/-- Settles O52: the address names CMD, and the write issues the word, or records the overrun. -/
theorem cmdWriteIssues : Obligations.CmdWriteIssues := by
  intro s ts v hr ha
  have hs := step_of_hostWrite (l := .cmd) hr ha rfl rfl
  rw [State.writeLoc, State.issue] at hs
  constructor
  · intro hb
    rw [hs, if_neg (by simp [hb])]
    rfl
  · intro hb
    rw [hs, if_pos hb, State.record_eq]
    rfl

/-- Settles O55: the write to a data location records BUSY_WRITE or stores the word. -/
theorem dataWriteRule : Obligations.DataWriteRule := by
  intro s ts a v l hr ha hl hw hcmd hctrl hstatus
  have hs := step_of_hostWrite hr ha hl hw
  obtain ⟨rfl, -⟩ | ⟨rfl, -⟩ | ⟨rfl, -⟩ | ⟨-, -, -, hx⟩ := writeLoc_cases { s with agenda := ts, resp := none } a l v
  · exact absurd rfl hcmd
  · exact absurd rfl hctrl
  · exact absurd rfl hstatus
  rw [hx] at hs
  constructor
  · intro hb
    rw [hs, if_pos hb, State.record_eq, BitVec.ofNat_toNat]
    rfl
  · intro hb
    rw [hs, if_neg (by simp [hb])]
    cases l <;> rfl

/-! What a host read shows (47_control.md R127; 10_state.md R16-R34). -/

theorem toNat_append_ofBool {w : Nat} (x : BitVec w) (b : Bool) : (x ++ BitVec.ofBool b).toNat = x.toNat * 2 + b.toNat :=
  BitVec.toNat_concat x b

theorem placed_of_lt {lo width v : Nat} (h : v < 2 ^ width) : placed lo width v = v * 2 ^ lo := by
  rw [placed, Nat.mod_eq_of_lt h]

theorem toNat_statusWord (s : State) :
    s.statusWord.toNat = s.busy.toNat + s.done.toNat * 2 ^ 1 + s.err.toNat * 2 ^ 2 + s.eovf.toNat * 2 ^ 3 := by
  simp only [State.statusWord, toNat_append_ofBool, BitVec.ofNat_eq_ofNat, BitVec.toNat_zero]
  omega

theorem toNat_ctrlWord (s : State) : s.ctrlWord.toNat = s.doneIe.toNat + s.errIe.toNat * 2 ^ 1 := by
  simp only [State.ctrlWord, toNat_append_ofBool, BitVec.ofNat_eq_ofNat, BitVec.toNat_zero]
  omega

/-- The legal parameters fit PARAM's fields (10_state.md R17). -/
theorem toNat_paramWord {p : Params} (hp : p.Legal) :
    (paramWord p).toNat = p.log2Nmax + p.log2Dmem * 2 ^ 8 + p.firCap * 2 ^ 16 + p.nsec * 2 ^ 32 := by
  obtain ⟨⟨-, hnmax⟩, ⟨-, hdmem⟩, ⟨-, hcap⟩, ⟨-, hsec⟩, -⟩ := hp
  rw [paramWord, placed_of_lt (by omega), placed_of_lt (by omega), placed_of_lt (by omega), placed_of_lt (by omega), BitVec.toNat_ofNat]
  omega

/-- The cursors of a ring within the largest capacity fit FIR_CUR's fields (10_state.md R27). -/
theorem toNat_firCurWord {r : RingBuf} {cap : Nat} (hr : r.Ok cap) (hcap : cap ≤ 512) :
    (firCurWord r).toNat = r.wc + r.rc * 2 ^ 16 := by
  obtain ⟨-, hwc, hrc⟩ := hr
  rw [firCurWord, placed_of_lt (by omega), placed_of_lt (by omega), BitVec.toNat_ofNat]
  omega

/-- The cursors of a section fit its cursor word's fields (10_state.md R32). -/
theorem toNat_secCurWord {c : Section} (hc : c.Ok) :
    (secCurWord c).toNat = c.xh.wc + c.xh.rc * 2 ^ 8 + c.yh.wc * 2 ^ 16 + c.yh.rc * 2 ^ 24 := by
  obtain ⟨⟨-, hxw, hxr⟩, -, hyw, hyr⟩ := hc
  rw [secCurWord, placed_of_lt (by omega), placed_of_lt (by omega), placed_of_lt (by omega), placed_of_lt (by omega), BitVec.toNat_ofNat]
  omega

theorem getElem?_eq_some_getD {α : Type} {l : List α} {i : Nat} (d : α) (h : i < l.length) : l[i]? = some (l.getD i d) := by
  rw [List.getD_eq_getElem _ _ h, List.getElem?_eq_getElem h]

/-- In a block of legal sizes an implemented location reads the word of R16-R34. -/
theorem State.shows_readLoc {s : State} {l : Loc} (hp : s.params.Legal) (hs : s.Sized) (hl : l.Implemented s.params) :
    s.Shows l (s.readLoc l).1 := by
  obtain ⟨hh, hfir, hsecs, hok⟩ := hs
  have ⟨_, _, ⟨_, hcap⟩, _⟩ := hp
  cases l with
  | param => exact toNat_paramWord hp
  | ctrl => exact toNat_ctrlWord s
  | status => exact toNat_statusWord s
  | errCode => exact BitVec.toNat_setWidth_of_le (by decide)
  | firCfg => exact BitVec.toNat_setWidth_of_le (by decide)
  | firCur => exact toNat_firCurWord hfir hcap
  | h i => exact getElem?_eq_some_getD 0 (hh.symm ▸ hl)
  | firSlot i => exact getElem?_eq_some_getD 0 (hfir.1.symm ▸ hl)
  | coef k c =>
    have hsec : s.secs[k]? = some (s.sec k) := getElem?_eq_some_getD _ (hsecs.symm ▸ hl)
    cases c <;> simp only [State.Shows, hsec] <;> rfl
  | xhSlot k i => exact getElem?_eq_some_getD 0 ((Section.ok_getD hok k).1.1.symm ▸ hl.2)
  | yhSlot k i => exact getElem?_eq_some_getD 0 ((Section.ok_getD hok k).2.1.symm ▸ hl.2)
  | secCur k => exact toNat_secCurWord (Section.ok_getD hok k)
  | dmem e im => rw [State.readLoc_dmem]; rfl
  | id | cmd | errInfo | xin | acc | rbdata | rom _ _ => rfl

theorem State.hostRead_of_unmapped {s : State} {a : Addr} (hl : locate s.params a.toNat = none) :
    s.hostRead a = { s with resp := some ⟨true, some 0⟩ } := by
  simp only [State.hostRead, hl]

/-- A VOLATILE location read while BUSY = 1 answers a free value. -/
theorem State.hostRead_of_volatile {s : State} {a : Addr} {l : Loc} (hl : locate s.params a.toNat = some l) (hb : s.busy = true)
    (hv : l.isVolatile = true) :
    s.hostRead a = { s with resp := some ⟨false, some (Config.freeWord s.draws)⟩, draws := s.draws + 1 } := by
  have hcond : (s.busy && l.isVolatile) = true := Bool.and_eq_true_iff.2 ⟨hb, hv⟩
  simp only [State.hostRead, hl, hcond, if_true]
  rfl

/-- Any other mapped location answers its word. -/
theorem State.hostRead_of_stable {s : State} {a : Addr} {l : Loc} (hl : locate s.params a.toNat = some l)
    (h : s.busy = false ∨ l.isVolatile = false) :
    s.hostRead a = { s with resp := some ⟨false, some (s.readLoc l).1⟩, draws := (s.readLoc l).2.draws } := by
  have hcond : (s.busy && l.isVolatile) = false := Bool.and_eq_false_iff.2 h
  simp only [State.hostRead, hl, hcond, Bool.false_eq_true, if_false]
  rw [State.readLoc_snd]
  rfl

/-- Settles O53: the access is the one of the three the address and BUSY choose, and an address names implemented locations only. -/
theorem hostReadRule : Obligations.HostReadRule := by
  intro s ts a hr ha
  refine ⟨fun hl => ?_, fun l hl hb hv => ?_, fun l hl h => ⟨?_, fun hp hz => ?_, ?_⟩⟩
  · have hread := State.hostRead_of_unmapped (s := { s with agenda := ts, resp := none }) hl
    rw [step_of_host hr ha, State.hostAccess, hread]
  · have hread := State.hostRead_of_volatile (s := { s with agenda := ts, resp := none }) hl hb hv
    rw [step_of_host hr ha, State.hostAccess, hread]
  · have hread := State.hostRead_of_stable (s := { s with agenda := ts, resp := none }) hl h
    obtain ⟨hword, hdraws⟩ := s.readLoc_agenda_resp l ts none
    rw [step_of_host hr ha, State.hostAccess, hread, hword, hdraws]
  · exact State.shows_readLoc hp hz (implemented_of_locate hl)
  · cases l with
    | dmem e im => rw [State.readLoc_dmem]
    | _ => rfl

/-! What a store leaves at every location (47_control.md R128, 10_state.md R12). -/

theorem Section.coef_setCoef (c : Section) (j k : Coef) (v : Word) : (c.setCoef k v).coef j = if j = k then v else c.coef j := by
  cases j <;> cases k <;> rfl

theorem Section.xh_setCoef (c : Section) (k : Coef) (v : Word) : (c.setCoef k v).xh = c.xh := by cases k <;> rfl

theorem Section.yh_setCoef (c : Section) (k : Coef) (v : Word) : (c.setCoef k v).yh = c.yh := by cases k <;> rfl

/-- Two words of DMEM do not overlap (20_memory.md R43). -/
theorem dmemAddr_disjoint {e e' : Nat} {im im' : Bool} (h : Loc.dmem e' im' ≠ .dmem e im) :
    dmemAddr e' im' + 8 ≤ dmemAddr e im ∨ dmemAddr e im + 8 ≤ dmemAddr e' im' := by
  by_cases he : e' = e
  · subst he
    cases im <;> cases im' <;> simp [dmemAddr] at h ⊢
  · cases im <;> cases im' <;> simp [dmemAddr] <;> omega

/-- A stored word reads back (R128). -/
theorem State.readLoc_storeLoc_same {s : State} {l : Loc} (v : Word) (hs : s.Sized) (hl : l.Implemented s.params)
    (hw : l.readOnly = false) (hcmd : l ≠ .cmd) (hctrl : l ≠ .ctrl) (hstatus : l ≠ .status) :
    ((s.storeLoc l v).readLoc l).1 = if l = .firCfg then BitVec.ofNat 64 (v.toNat % 2 ^ 16) else v := by
  obtain ⟨hh, -, hsecs, -⟩ := hs
  cases l with
  | xin | acc => rfl
  | firCfg =>
    apply BitVec.eq_of_toNat_eq
    simp [State.readLoc, State.storeLoc]
  | h i => simp [State.readLoc, State.storeLoc, List.getD, show i < s.h.length from hh.symm ▸ hl]
  | coef k c =>
    have hk : k < s.secs.length := hsecs.symm ▸ hl
    simp [State.readLoc, State.storeLoc, State.sec_set, hk, Section.coef_setCoef]
  | dmem e im => simp [State.storeLoc, State.readLoc_dmem]
  | cmd => exact absurd rfl hcmd
  | ctrl => exact absurd rfl hctrl
  | status => exact absurd rfl hstatus
  | id | param | errCode | errInfo | rbdata | firCur | firSlot _ | xhSlot _ _ | yhSlot _ _ | secCur _ | rom _ _ => cases hw

/-- The registers XIN, ACC and FIR_CFG show in their own locations alone. -/
theorem State.readLoc_of_registers {s : State} {l : Loc} {x a : Word} {n : BitVec 16} (hx : l = .xin → x = s.xin)
    (ha : l = .acc → a = s.acc) (hn : l = .firCfg → n = s.ntaps) :
    (State.readLoc { s with xin := x, acc := a, ntaps := n } l).1 = (s.readLoc l).1 := by
  cases l with
  | xin => exact hx rfl
  | acc => exact ha rfl
  | firCfg => simp only [State.readLoc, hn rfl]
  | dmem e im => simp only [State.readLoc_dmem]
  | _ => rfl

/-- A FIR coefficient shows in its own location alone. -/
theorem State.readLoc_storeLoc_h {s : State} {i : Nat} {l : Loc} (v : Word) (h : l ≠ .h i) :
    ((s.storeLoc (.h i) v).readLoc l).1 = (s.readLoc l).1 := by
  cases l with
  | h j =>
    have hj : i ≠ j := fun he => h (he ▸ rfl)
    simp [State.readLoc, State.storeLoc, List.getD, hj]
  | dmem e im => simp only [State.readLoc_dmem, State.storeLoc]
  | _ => rfl

/-- A section whose coefficient is stored keeps its rings and its other coefficients, and every other section stays. -/
theorem State.sec_storeLoc_coef (s : State) (k j : Nat) (c : Coef) (v : Word) :
    ((s.storeLoc (.coef k c) v).sec j).xh = (s.sec j).xh ∧ ((s.storeLoc (.coef k c) v).sec j).yh = (s.sec j).yh ∧
      ∀ d, ¬ (j = k ∧ d = c) → ((s.storeLoc (.coef k c) v).sec j).coef d = (s.sec j).coef d := by
  rw [State.storeLoc, State.sec_set]
  split
  next hj =>
    obtain ⟨rfl, -⟩ := hj
    refine ⟨Section.xh_setCoef _ c v, Section.yh_setCoef _ c v, fun d hd => ?_⟩
    rw [Section.coef_setCoef, if_neg fun he => hd ⟨rfl, he⟩]
  next => exact ⟨rfl, rfl, fun _ _ => rfl⟩

/-- A section's coefficient shows in its own location alone. -/
theorem State.readLoc_storeLoc_coef {s : State} {k : Nat} {c : Coef} {l : Loc} (v : Word) (h : l ≠ .coef k c) :
    ((s.storeLoc (.coef k c) v).readLoc l).1 = (s.readLoc l).1 := by
  have hsec := fun j => s.sec_storeLoc_coef k j c v
  cases l with
  | coef j d => exact (hsec j).2.2 d fun ⟨hj, hd⟩ => h (by rw [hj, hd])
  | xhSlot j i => simp only [State.readLoc, hsec j]
  | yhSlot j i => simp only [State.readLoc, hsec j]
  | secCur j => simp only [State.readLoc, secCurWord, hsec j]
  | dmem e im => simp only [State.readLoc_dmem, State.storeLoc]
  | _ => rfl

/-- A DMEM word shows in its own location alone. -/
theorem State.readLoc_storeLoc_dmem {s : State} {e : Nat} {im : Bool} {l : Loc} (v : Word) (h : l ≠ .dmem e im) :
    ((s.storeLoc (.dmem e im) v).readLoc l).1 = (s.readLoc l).1 := by
  cases l with
  | dmem e' im' =>
    have hword : Memory.readWord (s.hostDmem (dmemAddr e im) v).dmem (dmemAddr e' im') = Memory.readWord s.dmem (dmemAddr e' im') :=
      Memory.readWord_writeWord_other _ _ (dmemAddr_disjoint h)
    simp only [State.storeLoc, State.readLoc_dmem, hword, State.hostDmem_draws]
  | _ => rfl

/-- The block has no aliases (R12): no other location changes. -/
theorem State.readLoc_storeLoc_other {s : State} {l l' : Loc} (v : Word) (h : l' ≠ l) :
    ((s.storeLoc l v).readLoc l').1 = (s.readLoc l').1 := by
  cases l with
  | xin => exact State.readLoc_of_registers (fun he => absurd he h) (fun _ => rfl) fun _ => rfl
  | acc => exact State.readLoc_of_registers (fun _ => rfl) (fun he => absurd he h) fun _ => rfl
  | firCfg => exact State.readLoc_of_registers (fun _ => rfl) (fun _ => rfl) fun he => absurd he h
  | h i => exact State.readLoc_storeLoc_h v h
  | coef k c => exact State.readLoc_storeLoc_coef v h
  | dmem e im => exact State.readLoc_storeLoc_dmem v h
  | _ => rfl

/-- The host's store of a DMEM word ends its loss, and no other store ends any (70_reset_and_hazards.md R153). -/
theorem State.mem_lost_storeLoc {s : State} {l : Loc} {v : Word} {a : Nat} :
    a ∈ (s.storeLoc l v).lost ↔ a ∈ s.lost ∧ ∀ e im, l = .dmem e im → a ≠ dmemAddr e im := by
  cases l with
  | dmem e im => simp [State.storeLoc]
  | _ => simp [State.storeLoc]

/-- Settles O56: the store reads back in its own location, shows in no other, and ends the loss of its own word. -/
theorem storedWordReadsBack : Obligations.StoredWordReadsBack := by
  intro s l v hs hl hw hcmd hctrl hstatus
  exact ⟨State.readLoc_storeLoc_same v hs hl hw hcmd hctrl hstatus, fun _ _ h => State.readLoc_storeLoc_other v h,
    fun _ => State.mem_lost_storeLoc⟩

end Sys2Proof.Machine

/-! The families 60_exceptions.md and 70_reset_and_hazards.md: the lowest cause is raised (R134-R139), no step stops the machine
(R141), and reset (R150-R153). -/

namespace Sys2Proof.Machine

open Sys2Proof

/-! No step stops the machine (60_exceptions.md R141). -/

/-- The engine's turn gives a next state, whatever is pending: nothing, a command or an illegal word. -/
theorem engineTurn_next (s : State) : ∃ t, engineTurn s = .next t := by
  cases hb : s.busy with
  | false => exact ⟨s, by simp [engineTurn, hb]⟩
  | true => exact (engineTurn_clears_busy hb).imp fun _ h => h.1

theorem takeTurn_next (u : Turn) (s : State) : ∃ t, takeTurn u s = .next t := by
  cases u with
  | host r => exact ⟨_, rfl⟩
  | engine => exact engineTurn_next s
  | rstEdge level => exact ⟨_, rfl⟩

/-- Settles O7: out of reset the step is a turn's or the engine's, in reset it is a clock edge or waits. -/
theorem stepAlwaysGoesOn : Obligations.StepAlwaysGoesOn := by
  intro s
  unfold GoesOn step turn
  split
  · unfold nextTurn
    split
    · exact takeTurn_next _ _
    · exact engineTurn_next _
  · unfold heldInReset
    split <;> exact ⟨_, rfl⟩

/-! The lowest cause (60_exceptions.md R134, R138). -/

/-- The checks of a command in the order R138 gives them: each raises one kind of cause of R134. -/
def checksOf (p : Params) (taps : Nat) (i : Instr) : List (Option ErrCode) :=
  match i with
  | .nop => []
  | .fft _ base n => [lenCheck p n, addrCheck p base n]
  | .bitrev base n => [lenCheck p n, addrCheck p base n]
  | .stage _ base n st => [lenCheck p n, errIf (decide (st < 1) || decide (n.log2 < st)) .fieldRange, addrCheck p base n]
  | .scale base n => [lenCheck p n, addrCheck p base n]
  | .bfly _ e o t =>
    [errIf (decide (p.nmax / 2 ≤ t) || decide (e = o)) .fieldRange,
      errIf (decide (p.dmemEntries ≤ e) || decide (p.dmemEntries ≤ o)) .addrRange]
  | .vcmul dst src count => [addrCheck p dst count, addrCheck p src count]
  | .fir _ => [firCheck p taps]
  | .iir _ sec => [iirCheck p sec]
  | .sos first count => [errIf (decide (count = 0)) .dimMismatch, errIf (decide (p.nsec < first + count)) .fieldRange]
  | .rbwr id => [ringCheck p id]
  | .rbrd id => [ringCheck p id]
  | .rbclr id => [ringCheck p id]

theorem firstErr_singleton (c : Option ErrCode) : firstErr [c] = c := by cases c <;> rfl

theorem firstErr_checksOf (p : Params) (taps : Nat) (i : Instr) : firstErr (checksOf p taps i) = checkOf p taps i := by
  cases i with
  | fir _ | iir _ _ | rbwr _ | rbrd _ | rbclr _ => exact firstErr_singleton _
  | _ => rfl

/-- The causes of a command that hold are the errors of its checks (R134). -/
theorem causeOf_iff_mem_checksOf {p : Params} {taps : Nat} {i : Instr} {c : ErrCode} :
    CauseOf p taps i c ↔ some c ∈ checksOf p taps i := by
  cases i with
  | nop => simp [CauseOf, checksOf]
  | fft _ base n | bitrev base n | scale base n | stage _ base n st | vcmul dst src count =>
    simp [CauseOf, checksOf, eq_comm (a := some c), lenCheck_eq_some, addrCheck_eq_some]
  | bfly _ e o t | sos first count => simp [CauseOf, checksOf, eq_comm (a := some c)]
  | fir _ => simp [CauseOf, checksOf, eq_comm (a := some c), firCheck]
  | iir _ sec => simp [CauseOf, checksOf, eq_comm (a := some c), iirCheck]
  | rbwr id | rbrd id | rbclr id => simp [CauseOf, checksOf, eq_comm (a := some c), ringCheck]

/-- No error of the check `a` has a higher code than one of the check `b`. -/
def CodesBelow (a b : Option ErrCode) : Prop := ∀ c d, a = some c → b = some d → c.code.toNat ≤ d.code.toNat

theorem CodesBelow.errIf (b b' : Bool) {c d : ErrCode} (h : c.code.toNat ≤ d.code.toNat) :
    CodesBelow (errIf b c) (Machine.errIf b' d) := by
  intro e e' he he'
  obtain ⟨rfl, -⟩ := errIf_eq_some.1 he
  obtain ⟨rfl, -⟩ := errIf_eq_some.1 he'
  exact h

/-- A length's codes are 2 and 3, the lowest of R134 but ILLEGAL_CMD's. -/
theorem CodesBelow.lenCheck (p : Params) (n : Nat) (b : Bool) {d : ErrCode} (h : 3 ≤ d.code.toNat) :
    CodesBelow (lenCheck p n) (Machine.errIf b d) := by
  intro c e hc he
  obtain ⟨rfl, -⟩ := errIf_eq_some.1 he
  obtain ⟨rfl, -⟩ | ⟨rfl, -⟩ := lenCheck_eq_some.1 hc
  · exact (by decide : ErrCode.invalidLength.code.toNat ≤ 3).trans h
  · exact h

/-- A command's checks come in the order of their codes (R138). -/
theorem checksOf_pairwise (p : Params) (taps : Nat) (i : Instr) : (checksOf p taps i).Pairwise CodesBelow := by
  cases i with
  | nop => exact .nil
  | fft _ base n | bitrev base n | scale base n => exact List.pairwise_pair.2 (.lenCheck _ _ _ (by decide))
  | stage _ base n st =>
    simp only [checksOf, addrCheck, List.pairwise_cons, List.forall_mem_cons]
    exact ⟨⟨.lenCheck _ _ _ (by decide), .lenCheck _ _ _ (by decide), by simp⟩, ⟨.errIf _ _ (by decide), by simp⟩, by simp⟩
  | bfly _ e o t | vcmul dst src count | sos first count => exact List.pairwise_pair.2 (.errIf _ _ (by decide))
  | fir _ | iir _ _ | rbwr _ | rbrd _ | rbclr _ => exact List.pairwise_singleton _ _

/-- If an error is among the checks, the first one raised has a code no higher. -/
theorem exists_firstErr_le {cs : List (Option ErrCode)} {c : ErrCode} (hcs : cs.Pairwise CodesBelow) (hc : some c ∈ cs) :
    ∃ e, firstErr cs = some e ∧ e.code.toNat ≤ c.code.toNat := by
  induction cs with
  | nil => cases hc
  | cons a cs ih =>
    obtain ⟨hbelow, htail⟩ := List.pairwise_cons.1 hcs
    cases a with
    | none => exact ih htail (by simpa using hc)
    | some e =>
      refine ⟨e, rfl, ?_⟩
      obtain hce | hc := List.mem_cons.1 hc
      · cases hce
        exact le_rfl
      · exact hbelow _ hc e c rfl rfl

theorem exists_checkOf_le {p : Params} {taps : Nat} {i : Instr} {c : ErrCode} (h : CauseOf p taps i c) :
    ∃ e, checkOf p taps i = some e ∧ e.code.toNat ≤ c.code.toNat := by
  rw [← firstErr_checksOf]
  exact exists_firstErr_le (checksOf_pairwise p taps i) (causeOf_iff_mem_checksOf.1 h)

/-- The checks pass exactly when no cause holds (R134, R139). -/
theorem checkOf_eq_none_iff {p : Params} {taps : Nat} {i : Instr} : checkOf p taps i = none ↔ ∀ c, ¬ CauseOf p taps i c := by
  refine ⟨fun h c hc => ?_, checkOf_eq_none⟩
  obtain ⟨e, he, -⟩ := exists_checkOf_le hc
  simp [h] at he

/-- The codes of R134 are distinct. -/
theorem ErrCode.code_injective {c d : ErrCode} (h : c.code.toNat = d.code.toNat) : c = d := by
  cases c <;> cases d <;> simp [ErrCode.code] at h ⊢

/-- The lowest of the causes that hold is the error of the checks. -/
theorem checkOf_of_lowest {p : Params} {taps : Nat} {i : Instr} {c : ErrCode} (hc : CauseOf p taps i c)
    (hmin : ∀ d, CauseOf p taps i d → c.code.toNat ≤ d.code.toNat) : checkOf p taps i = some c := by
  obtain ⟨e, he, hle⟩ := exists_checkOf_le hc
  rw [he, ErrCode.code_injective (le_antisymm hle (hmin e (causeOf_of_checkOf he)))]

/-- Settles O12: the checks come in the order of their codes, so the first that fails is the lowest cause, and raising it records it. -/
theorem lowestCauseIsRaised : Obligations.LowestCauseIsRaised := by
  intro i s c hc hmin
  rw [exec_eq, checkOf_of_lowest hc hmin, runCommand_some, State.raiseErr, State.record_eq]

/-! The state after reset (70_reset_and_hazards.md R151). -/

/-- Settles O9: the sizes are the parameters', and there is no byte, lost word or error. -/
theorem resetIsWellFormed : Obligations.ResetIsWellFormed := by
  intro p hp
  have hdmem : (State.resetFor p).DmemOk := ⟨rfl, fun _ hc => by cases hc⟩
  have hlost : (State.resetFor p).LostOk := ⟨.nil, fun _ ha => by cases ha⟩
  have herr : (State.resetFor p).ErrOk := ⟨fun _ => ⟨rfl, rfl⟩, fun he => by cases he⟩
  exact ⟨hp, State.sized_resetFor hp, hdmem, hlost, herr⟩

theorem State.sec_resetFor {p : Params} {k : Nat} (hk : k < p.nsec) : (State.resetFor p).sec k = Section.cleared :=
  List.getD_replicate _ hk

theorem State.statusWord_resetFor (p : Params) : (State.resetFor p).statusWord = 0 :=
  BitVec.eq_of_toNat_eq (toNat_statusWord _)

theorem State.ctrlWord_resetFor (p : Params) : (State.resetFor p).ctrlWord = 0 := BitVec.eq_of_toNat_eq (toNat_ctrlWord _)

theorem firCurWord_cleared (cap : Nat) : firCurWord (RingBuf.cleared cap) = 0 := by simp [firCurWord, RingBuf.cleared, placed]

/-- Settles O10: the registers and the cursors are 0, PARAM holds the parameters, and every slot and section is a cleared one. -/
theorem resetValues : Obligations.ResetValues := by
  intro p hp s
  have hparam : paramWord p = BitVec.ofNat 64 (p.log2Nmax + p.log2Dmem * 2 ^ 8 + p.firCap * 2 ^ 16 + p.nsec * 2 ^ 32) := by
    rw [← toNat_paramWord hp, BitVec.ofNat_toNat, BitVec.setWidth_eq]
  refine ⟨rfl, hparam, State.ctrlWord_resetFor p, State.statusWord_resetFor p, rfl, rfl, rfl, rfl, rfl, rfl, rfl, firCurWord_cleared _,
    fun i hi => ⟨List.getD_replicate _ hi, List.getD_replicate _ hi⟩, fun k hk => ?_, fun _ => rfl, rfl, rfl⟩
  have hsec : s.sec k = Section.cleared := State.sec_resetFor hk
  simp only [State.readLoc, hsec]
  exact ⟨fun c => by cases c <;> rfl, fun i hi => List.getD_replicate _ hi, fun i hi => List.getD_replicate _ hi, rfl⟩

/-! What a reset leaves (70_reset_and_hazards.md R150-R153). -/

/-- The entries a reset abandons are those the pending command could write (R153). -/
theorem State.mem_abandoned {s : State} {e : Nat} : e ∈ s.abandoned ↔ s.Abandons e := by
  unfold State.abandoned State.Abandons State.HasCause
  cases hb : s.busy with
  | false => simp
  | true =>
    cases hd : decode s.cmd with
    | illegal y => simp
    | command i => simp [mem_dmemTargets s.ntaps.toNat, checkOf_eq_none_iff]

/-- A reset keeps DMEM less the abandoned entries, whose words are lost. -/
theorem State.resetDmem_doReset (s : State) : ResetDmem s s.doReset := by
  refine ⟨fun hb => ?_, fun a ha => ?_, fun a e he ha => ?_, fun a => ?_⟩
  · rw [State.doReset_dmem, State.doReset_lost, State.abandoned_of_idle hb]
    exact ⟨rfl, rfl⟩
  · rw [State.doReset_dmem, Memory.read_foldl_eraseEntry, if_neg]
    rintro ⟨e, he, hin⟩
    exact ha e (State.mem_abandoned.1 he) hin
  · rw [State.doReset_dmem, Memory.read_foldl_eraseEntry, if_pos ⟨e, State.mem_abandoned.2 he, ha⟩]
  · rw [State.doReset_lost, Addrs.mem_foldr_loseEntry]
    simp only [State.mem_abandoned, exists_and_left]

/-- Settles O59: the address names CTRL, and bit 2 resets. -/
theorem softResetRestoresAndAbandons : Obligations.SoftResetRestoresAndAbandons := by
  intro s ts v hr ha hv
  have hs := step_of_hostWrite (l := .ctrl) hr ha rfl rfl
  rw [State.writeLoc, State.writeCtrl, if_pos hv] at hs
  refine ⟨_, hs, ?_, State.resetDmem_doReset { s with agenda := ts, resp := none }⟩
  simp only [State.doReset_eq, State.ack, hr, State.resetFor]

/-! Clock edges (R150). -/

theorem takeEdge_eq_none {ws : List Turn} (h : ∀ level, .rstEdge level ∉ ws) : takeEdge ws = none := by
  induction ws with
  | nil => rfl
  | cons u us ih =>
    have hus := ih fun level hl => h level (List.mem_cons_of_mem u hl)
    cases u with
    | rstEdge level => exact absurd List.mem_cons_self (h level)
    | host r | engine => simp only [takeEdge, hus, Option.map_none]

/-- The edge behind turns that are none is the next one, and those turns stay. -/
theorem takeEdge_append {ws : List Turn} (level : Bool) (ts : List Turn) (h : ∀ level, .rstEdge level ∉ ws) :
    takeEdge (ws ++ .rstEdge level :: ts) = some (level, ws ++ ts) := by
  induction ws with
  | nil => rfl
  | cons u us ih =>
    have hus := ih fun level hl => h level (List.mem_cons_of_mem u hl)
    cases u with
    | rstEdge level => exact absurd List.mem_cons_self (h level)
    | host r | engine => simp only [List.cons_append, takeEdge, hus, Option.map_some]

/-- In reset the next clock edge is taken ahead of the turns that wait (log entry 8). -/
theorem step_of_edge_in_reset {s : State} {ws ts : List Turn} {level : Bool} (hr : s.rstN = false)
    (hws : ∀ level, .rstEdge level ∉ ws) (ha : s.agenda = ws ++ .rstEdge level :: ts) :
    step s = .next (State.clockEdge { s with agenda := ws ++ ts, resp := none } level) := by
  simp only [step, turn, hr, Bool.false_eq_true, if_false, heldInReset, ha, takeEdge_append level ts hws]

/-- A clock edge that is next is taken, in reset or out of it. -/
theorem step_of_edge {s : State} {ts : List Turn} {level : Bool} (ha : s.agenda = .rstEdge level :: ts) :
    step s = .next (State.clockEdge { s with agenda := ts, resp := none } level) := by
  cases hr : s.rstN with
  | false => exact step_of_edge_in_reset (ws := []) hr (by simp) ha
  | true => simp only [step, turn, hr, if_true, nextTurn, ha, takeTurn]

/-- In reset with no clock edge coming nothing happens. -/
theorem step_of_no_edge {s : State} (hr : s.rstN = false) (h : ∀ level, .rstEdge level ∉ s.agenda) :
    step s = .next { s with resp := none } := by
  simp only [step, turn, hr, Bool.false_eq_true, if_false, heldInReset, takeEdge_eq_none h]

/-- An edge with rst_n = 0, once it is taken, resets (R150). -/
theorem exists_hardReset {s : State} {us : List Turn}
    (h : step s = .next (State.clockEdge { s with agenda := us, resp := none } false)) :
    ∃ t, step s = .next t ∧
      t = { State.resetFor s.params with dmem := t.dmem, lost := t.lost, agenda := us, draws := s.draws, rstN := false } ∧
      ResetDmem s t :=
  ⟨_, h, rfl, State.resetDmem_doReset { s with agenda := us, resp := none }⟩

/-- Settles O60: in each case the edge that is taken, with the turns that wait. -/
theorem hardResetAndRelease : Obligations.HardResetAndRelease := by
  intro s ts
  refine ⟨fun ha => exists_hardReset (step_of_edge ha), step_of_no_edge, fun ws hr hws => ⟨fun ha => ?_, fun ha => ?_⟩⟩
  · exact step_of_edge_in_reset hr hws ha
  · exact exists_hardReset (step_of_edge_in_reset hr hws ha)

end Sys2Proof.Machine
